-- ==== Sys2Proof/Word.lean ====
section
/-! DEFINITION. The word types of the P-256 ECDSA verify core (00_scope.md R7, R10). -/

namespace Sys2Proof

/-- An operand register's contents: `WORD` = 256 bits (00_scope.md R7). -/
abbrev Word := BitVec 256

/-- A byte of the window (20_memory.md R77). -/
abbrev Byte := BitVec 8

/-- A 32-bit value: a bus word (20_memory.md R72), a command word (30_encoding.md R100), or a SHA-256
word (43_sha256.md R210). -/
abbrev Word32 := BitVec 32

/-- A byte offset in the 4 KiB register window: `OFFW` = 12 bits (00_scope.md R7, 20_memory.md R70). -/
abbrev Offset := BitVec 12

/-- An operand register number, `NREG` = 32 (00_scope.md R7, 10_state.md R32). -/
abbrev Reg := Fin 32

end Sys2Proof
end

