-- ==== Sys2Proof/Syntax.lean ====
section
/-! DEFINITION. The commands of the core, one constructor per row of spec/opcode_table.json
(30_encoding.md R106), and the modulus they may select (30_encoding.md R103). -/

namespace Sys2Proof

/-- The modulus select bit M: `p` is M = 0 (suffix .P), `n` is M = 1 (suffix .N) (30_encoding.md R103). -/
inductive Modulus where
  | p
  | n
deriving DecidableEq, Repr

/-- A command (30_encoding.md R106). A field of class S is a register number; a field of class T is the
base of a triple and one of class D the base of a pair, whose ranges WellFormed.lean checks (R104). -/
inductive Instr where
  /-- No operation (40_move_compare.md R130). -/
  | nop
  /-- `W[rd] <- W[ra]` (40_move_compare.md R131). -/
  | mov (rd ra : Reg)
  /-- `W[rd] <- ROM[k]` (40_move_compare.md R133). -/
  | ldc (rd : Reg) (k : BitVec 6)
  /-- Compare W[ra] with W[rb] (40_move_compare.md R134). -/
  | cmp (ra rb : Reg)
  /-- Modular addition (41_modular.md R153). -/
  | madd (m : Modulus) (rd ra rb : Reg)
  /-- Modular subtraction (41_modular.md R154). -/
  | msub (m : Modulus) (rd ra rb : Reg)
  /-- Modular negation (41_modular.md R155). -/
  | mneg (m : Modulus) (rd ra : Reg)
  /-- Modular multiplication (41_modular.md R156). -/
  | mmul (m : Modulus) (rd ra rb : Reg)
  /-- Modular squaring (41_modular.md R157). -/
  | msqr (m : Modulus) (rd ra : Reg)
  /-- Modular inversion (41_modular.md R159). -/
  | minv (m : Modulus) (rd ra : Reg)
  /-- Reduction of a 256-bit integer (41_modular.md R158). -/
  | mred (m : Modulus) (rd ra : Reg)
  /-- Montgomery product (41_modular.md R161). -/
  | mont (m : Modulus) (rd ra rb : Reg)
  /-- Conversion to Montgomery form (41_modular.md R162). -/
  | tomont (m : Modulus) (rd ra : Reg)
  /-- Conversion from Montgomery form (41_modular.md R163). -/
  | frommont (m : Modulus) (rd ra : Reg)
  /-- Jacobian point doubling; rd and ra are class T (42_curve.md R185). -/
  | pdbl (rd ra : Reg)
  /-- Jacobian point addition; rd, ra and rb are class T (42_curve.md R186). -/
  | padd (rd ra rb : Reg)
  /-- Scalar multiplication; rd and ra are class T, rb the scalar (42_curve.md R187). -/
  | pmul (rd ra rb : Reg)
  /-- `u1·G + u2·Q`; rd and ra (Q) are class T, rb is u1 and rc is u2 (42_curve.md R188). -/
  | psham (rd ra rb rc : Reg)
  /-- Conversion to affine; rd and ra are class T (42_curve.md R189). -/
  | paff (rd ra : Reg)
  /-- Decode-and-validate an affine pair; ra is class D (42_curve.md R190). -/
  | pchk (ra : Reg)
  /-- Start a message (43_sha256.md R214). -/
  | shainit
  /-- Absorb one block (43_sha256.md R215). -/
  | shablk
  /-- Absorb the last `len` bytes, pad and write the digest (43_sha256.md R216). -/
  | shafin (rd : Reg) (len : BitVec 6)
  /-- ECDSA verification; ra (key) and rb (signature) are class D, rc the digest (44_verify.md R241). -/
  | verify (ra rb rc : Reg)
deriving DecidableEq, Repr

end Sys2Proof
end

