-- ==== Sys2Proof/WellFormed.lean ====
section
/-! DEFINITION. When a command is legal (30_encoding.md R104, R105, R108): the range checks on its fields. -/

namespace Sys2Proof

/-- Why a command word is illegal (30_encoding.md R108). Each reason leads to the one error ILLEGAL_CMD. -/
inductive Illegal where
  /-- The opcode is reserved (R106). -/
  | reservedOpcode
  /-- A must-be-zero field is not zero (R107). -/
  | mustBeZero
  /-- A T field exceeds 29 (R104). -/
  | tripleOutOfRange
  /-- A D field exceeds 30 (R104). -/
  | pairOutOfRange
  /-- LDC with an index over 11 (R105, 40_move_compare.md R133). -/
  | romIndex
deriving DecidableEq, Repr

/-- A class T field names W[f], W[f+1], W[f+2], so f is at most 29 (30_encoding.md R104). -/
def tripleOk (f : Reg) : Bool := decide (f.val ≤ 29)

/-- A class D field names W[f], W[f+1], so f is at most 30 (30_encoding.md R104). -/
def pairOk (f : Reg) : Bool := decide (f.val ≤ 30)

/-- The range check of each row, in the order of 30_encoding.md R110: T fields, D fields, the ROM index. -/
def Instr.rangeError : Instr → Option Illegal
  | .pdbl rd ra | .paff rd ra | .pmul rd ra _ | .psham rd ra _ _ =>
      if tripleOk rd && tripleOk ra then none else some .tripleOutOfRange
  | .padd rd ra rb =>
      if tripleOk rd && tripleOk ra && tripleOk rb then none else some .tripleOutOfRange
  | .pchk ra => if pairOk ra then none else some .pairOutOfRange
  | .verify ra rb _ => if pairOk ra && pairOk rb then none else some .pairOutOfRange
  | .ldc _ k => if k.toNat ≤ 11 then none else some .romIndex
  | .nop | .mov .. | .cmp .. | .madd .. | .msub .. | .mneg .. | .mmul .. | .msqr .. | .minv ..
  | .mred .. | .mont .. | .tomont .. | .frommont .. | .shainit | .shablk | .shafin .. => none

/-- A command is well formed when no range check of its row fails (30_encoding.md R108). -/
def Instr.wellFormed (i : Instr) : Bool := i.rangeError.isNone

end Sys2Proof
end

