-- ==== Sys2Proof/Decode.lean ====
section
/-! DEFINITION. The decoder of command words, total on every 32-bit word, and after it the encoder
(30_encoding.md R100 to R110). -/

namespace Sys2Proof

/-! ## Fields (30_encoding.md R101, R102) -/

/-- OPC, bits 31:26. -/
def opcField (c : Word32) : BitVec 6 := c.extractLsb' 26 6

/-- M, bit 25, as the modulus it selects (30_encoding.md R103). -/
def mField (c : Word32) : Modulus := if c.getLsbD 25 then .n else .p

/-- The five-bit register number whose lowest bit is bit `lo`. -/
def regField (c : Word32) (lo : Nat) : Reg := (c.extractLsb' lo 5).toFin

/-- RD, bits 24:20. -/
def rdField (c : Word32) : Reg := regField c 20

/-- RA, bits 19:15. -/
def raField (c : Word32) : Reg := regField c 15

/-- RB, bits 14:10. -/
def rbField (c : Word32) : Reg := regField c 10

/-- RC, bits 9:5. -/
def rcField (c : Word32) : Reg := regField c 5

/-- IMM6, bits 5:0. -/
def imm6Field (c : Word32) : BitVec 6 := c.extractLsb' 0 6

/-! ## The opcode map (30_encoding.md R106) -/

/-- A row of the opcode map: the word's fixed bits and how its fields make a command. -/
structure Row where
  pattern : Word32
  mask    : Word32
  build   : Word32 → Instr

/-- The rows of the move, constant and compare commands. -/
def rowsMove : List Row :=
  [ ⟨0x00000000#32, 0xFFFFFFFF#32, fun _ => .nop⟩,
    ⟨0x04000000#32, 0xFE007FFF#32, fun c => .mov (rdField c) (raField c)⟩,
    ⟨0x08000000#32, 0xFE0FFFC0#32, fun c => .ldc (rdField c) (imm6Field c)⟩,
    ⟨0x0C000000#32, 0xFFF003FF#32, fun c => .cmp (raField c) (rbField c)⟩ ]

/-- The rows of the modular commands. -/
def rowsModular : List Row :=
  [ ⟨0x20000000#32, 0xFC0003FF#32, fun c => .madd (mField c) (rdField c) (raField c) (rbField c)⟩,
    ⟨0x24000000#32, 0xFC0003FF#32, fun c => .msub (mField c) (rdField c) (raField c) (rbField c)⟩,
    ⟨0x28000000#32, 0xFC007FFF#32, fun c => .mneg (mField c) (rdField c) (raField c)⟩,
    ⟨0x2C000000#32, 0xFC0003FF#32, fun c => .mmul (mField c) (rdField c) (raField c) (rbField c)⟩,
    ⟨0x30000000#32, 0xFC007FFF#32, fun c => .msqr (mField c) (rdField c) (raField c)⟩,
    ⟨0x34000000#32, 0xFC007FFF#32, fun c => .minv (mField c) (rdField c) (raField c)⟩,
    ⟨0x38000000#32, 0xFC007FFF#32, fun c => .mred (mField c) (rdField c) (raField c)⟩,
    ⟨0x3C000000#32, 0xFC0003FF#32, fun c => .mont (mField c) (rdField c) (raField c) (rbField c)⟩,
    ⟨0x40000000#32, 0xFC007FFF#32, fun c => .tomont (mField c) (rdField c) (raField c)⟩,
    ⟨0x44000000#32, 0xFC007FFF#32, fun c => .frommont (mField c) (rdField c) (raField c)⟩ ]

/-- The rows of the curve commands. -/
def rowsCurve : List Row :=
  [ ⟨0x60000000#32, 0xFE007FFF#32, fun c => .pdbl (rdField c) (raField c)⟩,
    ⟨0x64000000#32, 0xFE0003FF#32, fun c => .padd (rdField c) (raField c) (rbField c)⟩,
    ⟨0x68000000#32, 0xFE0003FF#32, fun c => .pmul (rdField c) (raField c) (rbField c)⟩,
    ⟨0x6C000000#32, 0xFE00001F#32, fun c => .psham (rdField c) (raField c) (rbField c) (rcField c)⟩,
    ⟨0x70000000#32, 0xFE007FFF#32, fun c => .paff (rdField c) (raField c)⟩,
    ⟨0x74000000#32, 0xFFF07FFF#32, fun c => .pchk (raField c)⟩ ]

/-- The rows of the SHA-256 commands and of VERIFY. -/
def rowsShaVerify : List Row :=
  [ ⟨0x80000000#32, 0xFFFFFFFF#32, fun _ => .shainit⟩,
    ⟨0x84000000#32, 0xFFFFFFFF#32, fun _ => .shablk⟩,
    ⟨0x88000000#32, 0xFE0FFFC0#32, fun c => .shafin (rdField c) (imm6Field c)⟩,
    ⟨0xA0000000#32, 0xFFF0001F#32, fun c => .verify (raField c) (rbField c) (rcField c)⟩ ]

/-- The opcode map, 24 rows (30_encoding.md R106). -/
def opcodeMap : List Row := rowsMove ++ rowsModular ++ rowsCurve ++ rowsShaVerify

/-- Whether a word has a row's fixed bits: `(word & mask) == match` (30_encoding.md R106). -/
def Row.fits (r : Row) (c : Word32) : Bool := c &&& r.mask == r.pattern

/-- The decode function, total on every 32-bit word; an illegal word is refused by the reason it is
illegal (30_encoding.md R108, R110). -/
def decode (c : Word32) : Except Illegal Instr :=
  match opcodeMap.find? (fun r => r.fits c) with
  | none =>
      if opcodeMap.any (fun r => opcField r.pattern == opcField c) then .error .mustBeZero
      else .error .reservedOpcode
  | some r =>
      match (r.build c).rangeError with
      | some why => .error why
      | none => .ok (r.build c)

/-! ## The encoder (30_encoding.md R101, R102, R106) -/

/-- The bit M of a modulus (30_encoding.md R103). -/
def Modulus.bit : Modulus → BitVec 1
  | .p => 0#1
  | .n => 1#1

/-- A register number as its five-bit field. -/
def regBits (r : Reg) : BitVec 5 := BitVec.ofFin r

/-- Format R: OPC, M, RD, RA, RB, RC and Z5 = 0 (30_encoding.md R101). -/
def formatR (opc : BitVec 6) (m : BitVec 1) (rd ra rb rc : Reg) : Word32 :=
  opc ++ m ++ regBits rd ++ regBits ra ++ regBits rb ++ regBits rc ++ 0#5

/-- Format I: OPC, M = 0, RD, Z14 = 0 and IMM6 (30_encoding.md R102). -/
def formatI (opc : BitVec 6) (rd : Reg) (imm : BitVec 6) : Word32 :=
  opc ++ 0#1 ++ regBits rd ++ 0#14 ++ imm

/-- The word of a command, each unused field 0 (30_encoding.md R106, R107). -/
def encode : Instr → Word32
  | .nop => formatR 0x00#6 0#1 0 0 0 0
  | .mov rd ra => formatR 0x01#6 0#1 rd ra 0 0
  | .ldc rd k => formatI 0x02#6 rd k
  | .cmp ra rb => formatR 0x03#6 0#1 0 ra rb 0
  | .madd m rd ra rb => formatR 0x08#6 m.bit rd ra rb 0
  | .msub m rd ra rb => formatR 0x09#6 m.bit rd ra rb 0
  | .mneg m rd ra => formatR 0x0A#6 m.bit rd ra 0 0
  | .mmul m rd ra rb => formatR 0x0B#6 m.bit rd ra rb 0
  | .msqr m rd ra => formatR 0x0C#6 m.bit rd ra 0 0
  | .minv m rd ra => formatR 0x0D#6 m.bit rd ra 0 0
  | .mred m rd ra => formatR 0x0E#6 m.bit rd ra 0 0
  | .mont m rd ra rb => formatR 0x0F#6 m.bit rd ra rb 0
  | .tomont m rd ra => formatR 0x10#6 m.bit rd ra 0 0
  | .frommont m rd ra => formatR 0x11#6 m.bit rd ra 0 0
  | .pdbl rd ra => formatR 0x18#6 0#1 rd ra 0 0
  | .padd rd ra rb => formatR 0x19#6 0#1 rd ra rb 0
  | .pmul rd ra rb => formatR 0x1A#6 0#1 rd ra rb 0
  | .psham rd ra rb rc => formatR 0x1B#6 0#1 rd ra rb rc
  | .paff rd ra => formatR 0x1C#6 0#1 rd ra 0 0
  | .pchk ra => formatR 0x1D#6 0#1 0 ra 0 0
  | .shainit => formatR 0x20#6 0#1 0 0 0 0
  | .shablk => formatR 0x21#6 0#1 0 0 0 0
  | .shafin rd len => formatI 0x22#6 rd len
  | .verify ra rb rc => formatR 0x28#6 0#1 0 ra rb rc

/-! ## The host's reading of a table row -/

/-- The command word whose bits, numbered as spec/opcode_table.json numbers them, are the low `nbits`
of `w`, every bit above being 0. A command is one 32-bit word (30_encoding.md R100). -/
def tableWord (nbits w : Nat) : Word32 := BitVec.ofNat 32 (w % 2 ^ nbits)

/-- What the decoder reads from a table row's word; none where it refuses. -/
def decodeTableWord (nbits w : Nat) : Option Instr :=
  match decode (tableWord nbits w) with
  | .ok i => some i
  | .error _ => none

end Sys2Proof
end

