-- ==== Sys2Proof/Config.lean ====
section
/-! DEFINITION. What is fixed at build time (10_state.md R52): the curve constants, the constant ROM, the
SHA-256 tables, the identity values; and the parameters the spec leaves OPEN (00_scope.md R7), which
have no value here. -/

namespace Sys2Proof.Config

/-- The curve prime, by the source's formula (00_scope.md R8). -/
def p : Nat := 2 ^ 256 - 2 ^ 224 + 2 ^ 192 + 2 ^ 96 - 1

/-- The group order (00_scope.md R8). -/
def n : Nat := 0xFFFFFFFF00000000FFFFFFFFFFFFFFFFBCE6FAADA7179E84F3B9CAC2FC632551

/-- The curve coefficient a = p - 3 (00_scope.md R8). -/
def a : Nat := p - 3

/-- The curve coefficient b (00_scope.md R8). -/
def b : Nat := 0x5AC635D8AA3A93E7B3EBBD55769886BC651D06B0CC53B0F63BCE3C3E27D2604B

/-- The generator's x (00_scope.md R8). -/
def gx : Nat := 0x6B17D1F2E12C4247F8BCE6E563A440F277037D812DEB33A0F4A13945D898C296

/-- The generator's y (00_scope.md R8). -/
def gy : Nat := 0x4FE342E2FE1A7F9B8EE7EB4A7C0F9E162BCE33576B315ECECBB6406837BF51F5

/-- The Montgomery radix R for both moduli (41_modular.md R160). -/
def montRadix : Nat := 2 ^ 256

/-- `Rinv(0)`, the inverse of R mod p (41_modular.md R160). -/
def rInvP : Nat := 0xFFFFFFFE00000003FFFFFFFD0000000200000001FFFFFFFE0000000300000000

/-- `Rinv(1)`, the inverse of R mod n (41_modular.md R160). -/
def rInvN : Nat := 0x60D066334905C1E907F8B6041E607725BADEF3E243566FAFCE1BC8F79C197C79

/-- The constant ROM of LDC: indices 0 to 11 are defined (40_move_compare.md R132). -/
def rom : List Nat :=
  [ 0,
    1,
    0xFFFFFFFF00000001000000000000000000000000FFFFFFFFFFFFFFFFFFFFFFFF,
    0xFFFFFFFF00000000FFFFFFFFFFFFFFFFBCE6FAADA7179E84F3B9CAC2FC632551,
    0xFFFFFFFF00000001000000000000000000000000FFFFFFFFFFFFFFFFFFFFFFFC,
    0x5AC635D8AA3A93E7B3EBBD55769886BC651D06B0CC53B0F63BCE3C3E27D2604B,
    0x6B17D1F2E12C4247F8BCE6E563A440F277037D812DEB33A0F4A13945D898C296,
    0x4FE342E2FE1A7F9B8EE7EB4A7C0F9E162BCE33576B315ECECBB6406837BF51F5,
    0x00000000FFFFFFFEFFFFFFFFFFFFFFFFFFFFFFFF000000000000000000000001,
    0x00000004FFFFFFFDFFFFFFFFFFFFFFFEFFFFFFFBFFFFFFFF0000000000000003,
    0x00000000FFFFFFFF00000000000000004319055258E8617B0C46353D039CDAAF,
    0x66E12D94F3D956202845B2392B6BEC594699799C49BD6FA683244C95BE79EEA2 ]

/-- The identity register's constant, ASCII "P256" (00_scope.md R3, 10_state.md R44). -/
def idValue : Word32 := 0x50323536#32

/-- The version register's constant, 1.0 (00_scope.md R3, 10_state.md R44). -/
def versionValue : Word32 := 0x00010000#32

/-- The initial chaining value of SHA-256 (43_sha256.md R211). -/
def shaIv : Vector Word32 8 :=
  #v[0x6a09e667#32, 0xbb67ae85#32, 0x3c6ef372#32, 0xa54ff53a#32,
     0x510e527f#32, 0x9b05688c#32, 0x1f83d9ab#32, 0x5be0cd19#32]

/-- The round constants K[0..31] (43_sha256.md R211). -/
def shaKLow : List Word32 :=
  [ 0x428a2f98#32, 0x71374491#32, 0xb5c0fbcf#32, 0xe9b5dba5#32,
    0x3956c25b#32, 0x59f111f1#32, 0x923f82a4#32, 0xab1c5ed5#32,
    0xd807aa98#32, 0x12835b01#32, 0x243185be#32, 0x550c7dc3#32,
    0x72be5d74#32, 0x80deb1fe#32, 0x9bdc06a7#32, 0xc19bf174#32,
    0xe49b69c1#32, 0xefbe4786#32, 0x0fc19dc6#32, 0x240ca1cc#32,
    0x2de92c6f#32, 0x4a7484aa#32, 0x5cb0a9dc#32, 0x76f988da#32,
    0x983e5152#32, 0xa831c66d#32, 0xb00327c8#32, 0xbf597fc7#32,
    0xc6e00bf3#32, 0xd5a79147#32, 0x06ca6351#32, 0x14292967#32 ]

/-- The round constants K[32..63] (43_sha256.md R211). -/
def shaKHigh : List Word32 :=
  [ 0x27b70a85#32, 0x2e1b2138#32, 0x4d2c6dfc#32, 0x53380d13#32,
    0x650a7354#32, 0x766a0abb#32, 0x81c2c92e#32, 0x92722c85#32,
    0xa2bfe8a1#32, 0xa81a664b#32, 0xc24b8b70#32, 0xc76c51a3#32,
    0xd192e819#32, 0xd6990624#32, 0xf40e3585#32, 0x106aa070#32,
    0x19a4c116#32, 0x1e376c08#32, 0x2748774c#32, 0x34b0bcb5#32,
    0x391c0cb3#32, 0x4ed8aa4a#32, 0x5b9cca4f#32, 0x682e6ff3#32,
    0x748f82ee#32, 0x78a5636f#32, 0x84c87814#32, 0x8cc70208#32,
    0x90befffa#32, 0xa4506ceb#32, 0xbef9a3f7#32, 0xc67178f2#32 ]

/-- The 64 round constants of SHA-256, in order (43_sha256.md R211). -/
def shaK : List Word32 := shaKLow ++ shaKHigh

/-- `BASE`: the platform base address of an instance's window, OPEN (00_scope.md R7, 60_exceptions.md R272).
It has no body: a statement that uses it holds whatever it is. -/
opaque base : Nat → Nat

/-- `IRQ_LINE`: the platform interrupt number an instance's irq is wired to, OPEN (00_scope.md R7). -/
opaque irqLine : Nat → Nat

/-- One less than `N_INSTANCES`, which is OPEN and at least 1 (00_scope.md R7). -/
opaque instancesBeyondFirst : Nat

/-- `N_INSTANCES`: how many independent cores the platform has (00_scope.md R7, 60_exceptions.md R272). -/
def nInstances : Nat := instancesBeyondFirst + 1

end Sys2Proof.Config
end

