-- ==== Sys2Proof/Machine/Field.lean ====
section
/-! DEFINITION. Arithmetic modulo p and modulo n on exact integers (00_scope.md R11, 41_modular.md R150). -/

namespace Sys2Proof.Machine

/-- `MOD(M)` (00_scope.md R11, 30_encoding.md R103). -/
def modulus : Modulus → Nat
  | .p => Config.p
  | .n => Config.n

/-- `Rinv(M)` (41_modular.md R160). -/
def montInverse : Modulus → Nat
  | .p => Config.rInvP
  | .n => Config.rInvN

/-- `(x + y) mod m`. -/
def addMod (m x y : Nat) : Nat := (x + y) % m

/-- `(x - y) mod m`, the residue in [0, m) also of a negative difference (00_scope.md R11). -/
def subMod (m x y : Nat) : Nat := (((x : Int) - (y : Int)) % (m : Int)).toNat

/-- `(x · y) mod m`, the product at full width (41_modular.md R150). -/
def mulMod (m x y : Nat) : Nat := x * y % m

/-- Square-and-multiply over the exponent's bits below `bit`, most significant first. -/
def powModLoop (m x e : Nat) : Nat → Nat → Nat
  | 0, acc => acc
  | bit + 1, acc =>
      powModLoop m x e bit
        (if e.testBit bit then mulMod m (mulMod m acc acc) x else mulMod m acc acc)

/-- `x^e mod m` for an exponent of at most 256 bits. -/
def powMod (m x e : Nat) : Nat := powModLoop m x e 256 (1 % m)

/-- The inverse of a canonical nonzero x modulo the prime m, as `x^(m-2) mod m`: the spec allows the
algorithm and the result is the unique inverse (41_modular.md R159). -/
def invMod (m x : Nat) : Nat := powMod m x (m - 2)

/-- `fadd` (00_scope.md R11). -/
def fadd (x y : Nat) : Nat := addMod Config.p x y

/-- `fsub` (00_scope.md R11). -/
def fsub (x y : Nat) : Nat := subMod Config.p x y

/-- `fmul` (00_scope.md R11). -/
def fmul (x y : Nat) : Nat := mulMod Config.p x y

/-- `fsq` (00_scope.md R11). -/
def fsq (x : Nat) : Nat := fmul x x

/-- `finv` (00_scope.md R11). -/
def finv (x : Nat) : Nat := invMod Config.p x

end Sys2Proof.Machine
end

