-- ==== Sys2Proof/Machine/Curve.lean ====
section
/-! DEFINITION. The group-law functions on Jacobian points and the curve test (42_curve.md R180 to R190),
as functions on integers; the commands that use them are in Point.lean and Verify.lean. -/

namespace Sys2Proof.Machine

/-- A Jacobian point (X, Y, Z); Z = 0 is the point at infinity (42_curve.md R180). -/
structure JPoint where
  x : Nat
  y : Nat
  z : Nat
deriving DecidableEq, Repr

/-- The canonical infinity INF = (1, 1, 0) (42_curve.md R182). -/
def infinity : JPoint := ⟨1, 1, 0⟩

/-- The generator (Gx, Gy, 1) (42_curve.md R188). -/
def generator : JPoint := ⟨Config.gx, Config.gy, 1⟩

/-- Every coordinate is canonical mod p (42_curve.md R181). -/
def JPoint.canonical (q : JPoint) : Bool :=
  decide (q.x < Config.p) && decide (q.y < Config.p) && decide (q.z < Config.p)

/-- `DBL` (42_curve.md R183). -/
def pointDouble (q : JPoint) : JPoint :=
  if q.z = 0 then infinity
  else
    let zz := fsq q.z
    let mm := fmul 3 (fmul (fsub q.x zz) (fadd q.x zz))
    let yy := fsq q.y
    let s := fmul 4 (fmul q.x yy)
    let x3 := fsub (fsq mm) (fmul 2 s)
    let y3 := fsub (fmul mm (fsub s x3)) (fmul 8 (fsq yy))
    let z3 := fmul 2 (fmul q.y q.z)
    if z3 = 0 then infinity else ⟨x3, y3, z3⟩

/-- `ADD` (42_curve.md R184). -/
def pointAdd (q1 q2 : JPoint) : JPoint :=
  if q1.z = 0 then (if q2.z = 0 then infinity else q2)
  else if q2.z = 0 then q1
  else
    let u1 := fmul q1.x (fsq q2.z)
    let u2 := fmul q2.x (fsq q1.z)
    let s1 := fmul q1.y (fmul q2.z (fsq q2.z))
    let s2 := fmul q2.y (fmul q1.z (fsq q1.z))
    let h := fsub u2 u1
    let rr := fsub s2 s1
    if h = 0 then (if rr = 0 then pointDouble q1 else infinity)
    else
      let hh := fsq h
      let hhh := fmul h hh
      let x3 := fsub (fsub (fsq rr) hhh) (fmul 2 (fmul u1 hh))
      let y3 := fsub (fmul rr (fsub (fmul u1 hh) x3)) (fmul s1 hhh)
      let z3 := fmul h (fmul q1.z q2.z)
      ⟨x3, y3, z3⟩

/-- The loop of PMUL over the bits of k below `bit`, most significant first (42_curve.md R187). -/
def scalarMulLoop (pt : JPoint) (k : Nat) : Nat → JPoint → JPoint
  | 0, r => r
  | bit + 1, r =>
      scalarMulLoop pt k bit
        (if k.testBit bit then pointAdd (pointDouble r) pt else pointDouble r)

/-- Scalar multiplication over all 256 bits of k (42_curve.md R187). -/
def scalarMul (pt : JPoint) (k : Nat) : JPoint := scalarMulLoop pt k 256 infinity

/-- What one step of PSHAM adds after its doubling, by the two scalar bits (42_curve.md R188). -/
def shamirAdd (t1 t2 t3 r : JPoint) : Bool → Bool → JPoint
  | true, false => pointAdd r t1
  | false, true => pointAdd r t2
  | true, true => pointAdd r t3
  | false, false => r

/-- The loop of PSHAM over the bits below `bit`, most significant first (42_curve.md R188). -/
def shamirLoop (t1 t2 t3 : JPoint) (u1 u2 : Nat) : Nat → JPoint → JPoint
  | 0, r => r
  | bit + 1, r =>
      shamirLoop t1 t2 t3 u1 u2 bit
        (shamirAdd t1 t2 t3 (pointDouble r) (u1.testBit bit) (u2.testBit bit))

/-- `PSHAM_fn(u1, u2, Q)`: `u1·G + u2·Q` by Shamir's trick with the table G, Q, G+Q
(42_curve.md R188, 44_verify.md R241). -/
def shamir (u1 u2 : Nat) (q : JPoint) : JPoint :=
  shamirLoop generator q (pointAdd generator q) u1 u2 256 infinity

/-- The affine x of a point with Z ≠ 0: `X · (Z^-1)^2` (42_curve.md R189, 44_verify.md R250). -/
def affineX (q : JPoint) : Nat := fmul q.x (fsq (finv q.z))

/-- The affine y of a point with Z ≠ 0: `Y · (Z^-1)^3` (42_curve.md R189). -/
def affineY (q : JPoint) : Nat := fmul q.y (fmul (finv q.z) (fsq (finv q.z)))

/-- The affine form of a point: (x, y, 1), or INF when Z = 0 (42_curve.md R189). -/
def toAffine (q : JPoint) : JPoint :=
  if q.z = 0 then infinity else ⟨affineX q, affineY q, 1⟩

/-- `y^2 = x^3 + a·x + b` mod p (00_scope.md R9, 42_curve.md R190). -/
def curveEquation (x y : Nat) : Bool :=
  fsq y == fadd (fadd (fmul x (fsq x)) (fmul Config.a x)) Config.b

/-- Decode-and-validate of an affine pair, the tests in the source's order (42_curve.md R190). -/
def validPoint (x y : Nat) : Bool :=
  decide (x < Config.p) && decide (y < Config.p) && curveEquation x y && !(x == 0 && y == 0)

end Sys2Proof.Machine
end

