-- ==== Sys2Proof/Machine/Memory.lean ====
section
/-! DEFINITION. The byte memory of the window: MSGBUF, keyed by window byte offset (10_state.md R46,
20_memory.md R71, R79). Every other offset of the window is a register or reserved. -/

namespace Sys2Proof.Machine

/-- A memory: (window offset, byte) cells in one canonical form, offsets strictly rising and no cell
holding what an unlisted offset reads as. -/
abbrev Memory := List Host.Cell

/-- What an unlisted offset reads as: MSGBUF's reset contents, every byte 0 (10_state.md R46, R51). -/
def unlistedByte : Byte := 0#8

/-- The window offset of MSGBUF[0] (20_memory.md R71). -/
def msgbufBase : Nat := 0x040

/-- MSGBUF has 64 bytes (10_state.md R46). -/
def msgbufSize : Nat := 64

/-- The byte at a window offset. -/
def Memory.read : Memory → Nat → Byte
  | [], _ => unlistedByte
  | (k, b) :: m, a => if a = k then b else Memory.read m a

/-- The memory with the byte at one offset replaced, in canonical form. -/
def Memory.write : Memory → Nat → Byte → Memory
  | [], a, v => if v = unlistedByte then [] else [(a, v)]
  | (k, b) :: m, a, v =>
      if a < k then (if v = unlistedByte then (k, b) :: m else (a, v) :: (k, b) :: m)
      else if a = k then (if v = unlistedByte then m else (a, v) :: m)
      else (k, b) :: Memory.write m a v

/-- Every offset of the list is above `lo`, the offsets rise strictly, and no cell holds the byte an
unlisted offset reads as. -/
def Memory.risesFrom : Memory → Nat → Bool
  | [], _ => true
  | (k, b) :: m, lo => decide (lo ≤ k) && decide (b ≠ unlistedByte) && Memory.risesFrom m (k + 1)

/-- The canonical form. -/
def Memory.wf (m : Memory) : Bool := Memory.risesFrom m 0

/-- Only MSGBUF's offsets are listed (20_memory.md R71). -/
def Memory.onlyMsgbuf (m : Memory) : Bool :=
  m.all (fun cell => decide (msgbufBase ≤ cell.1) && decide (cell.1 < msgbufBase + msgbufSize))

/-- MSGBUF[j] (20_memory.md R79). -/
def Memory.msgbuf (m : Memory) (j : Nat) : Byte := Memory.read m (msgbufBase + j)

/-- The first `len` bytes of MSGBUF, in message order (20_memory.md R79). -/
def Memory.msgbufBytes (m : Memory) (len : Nat) : List Byte := (List.range len).map (Memory.msgbuf m)

end Sys2Proof.Machine
end

