-- ==== Sys2Proof/Machine/Bytes.lean ====
section
/-! DEFINITION. Bytes of registers and of bus words (00_scope.md R12, 20_memory.md R77, R78). -/

namespace Sys2Proof.Machine

/-- Byte k of a bus word, carried in data bits 8k+7 down to 8k: the lanes are little-endian (20_memory.md R77). -/
def busByte (v : Word32) (k : Nat) : Byte := v.extractLsb' (8 * k) 8

/-- The bus word whose bytes 0 to 3 are given (20_memory.md R77). -/
def busWord (b0 b1 b2 b3 : Byte) : Word32 := b3 ++ b2 ++ b1 ++ b0

/-- Window byte j of a register, its bits 255 - 8j down to 248 - 8j: byte 0 is the most significant
(20_memory.md R78). -/
def wordByte (v : Word) (j : Nat) : Byte := v.extractLsb' (248 - 8 * j) 8

/-- The register value with window byte j replaced, the other 31 kept (20_memory.md R78, R80). -/
def setWordByte (v : Word) (j : Nat) (b : Byte) : Word :=
  (v &&& ~~~(0xFF#256 <<< (248 - 8 * j))) ||| (b.setWidth 256 <<< (248 - 8 * j))

/-- The k-th 32-bit bus word of a register in the window (20_memory.md R78, MemRead). -/
def readWordLane (v : Word) (k : Nat) : Word32 :=
  busWord (wordByte v (4 * k)) (wordByte v (4 * k + 1)) (wordByte v (4 * k + 2)) (wordByte v (4 * k + 3))

/-- The register value after a write of `d` to its k-th 32-bit bus word (20_memory.md R78, MemWrite). -/
def writeWordLane (v : Word) (k : Nat) (d : Word32) : Word :=
  let v0 := setWordByte v (4 * k) (busByte d 0)
  let v1 := setWordByte v0 (4 * k + 1) (busByte d 1)
  let v2 := setWordByte v1 (4 * k + 2) (busByte d 2)
  setWordByte v2 (4 * k + 3) (busByte d 3)

/-- The integer whose big-endian byte string is given (00_scope.md R12, `be256`). -/
def beValue : List Byte → Nat → Nat
  | [], acc => acc
  | b :: bs, acc => beValue bs (acc * 256 + b.toNat)

/-- `be256` of a byte string, as a register value (00_scope.md R12). -/
def be256 (bs : List Byte) : Word := BitVec.ofNat 256 (beValue bs 0)

/-- The big-endian bytes of a 32-bit word (43_sha256.md R213). -/
def be32Bytes (v : Word32) : List Byte :=
  [v.extractLsb' 24 8, v.extractLsb' 16 8, v.extractLsb' 8 8, v.extractLsb' 0 8]

/-- A length in bits as 8 bytes, big-endian (43_sha256.md R213). -/
def be64Bytes (v : BitVec 64) : List Byte :=
  be32Bytes (v.extractLsb' 32 32) ++ be32Bytes (v.extractLsb' 0 32)

/-- `bytes_be32`: the 32 bytes of a register value, most significant first (00_scope.md R12). -/
def bytesBe32 (v : Word) : List Byte := (List.range 32).map (wordByte v)

end Sys2Proof.Machine
end

