-- ==== Sys2Proof/Machine/Sha256.lean ====
section
/-! DEFINITION. The SHA-256 function (43_sha256.md R210 to R213); the commands that use it are in Sha.lean. -/

namespace Sys2Proof.Machine

/-- `ROTR(x, k)` (43_sha256.md R210). -/
def rotr (x : Word32) (k : Nat) : Word32 := x.rotateRight k

/-- The message-schedule function s0 (43_sha256.md R212). -/
def smallSigma0 (x : Word32) : Word32 := rotr x 7 ^^^ rotr x 18 ^^^ (x >>> 3)

/-- The message-schedule function s1 (43_sha256.md R212). -/
def smallSigma1 (x : Word32) : Word32 := rotr x 17 ^^^ rotr x 19 ^^^ (x >>> 10)

/-- The first 16 schedule words: the block's words, big-endian (43_sha256.md R212). -/
def blockWords : List Byte → List Word32
  | b0 :: b1 :: b2 :: b3 :: rest => (b0 ++ b1 ++ b2 ++ b3) :: blockWords rest
  | _ => []

/-- Schedule word t from the words before it, newest first: index 0 is Wt[t-1] (43_sha256.md R212). -/
def nextScheduleWord (recent : List Word32) : Word32 :=
  recent.getD 15 0#32 + smallSigma0 (recent.getD 14 0#32) + recent.getD 6 0#32 +
    smallSigma1 (recent.getD 1 0#32)

/-- The schedule extended by `k` words, newest first (43_sha256.md R212). -/
def extendSchedule : Nat → List Word32 → List Word32
  | 0, ws => ws
  | k + 1, ws => extendSchedule k (nextScheduleWord ws :: ws)

/-- The 64 schedule words of a block, Wt[0] first (43_sha256.md R212). -/
def schedule (block : List Byte) : List Word32 :=
  (extendSchedule 48 (blockWords block).reverse).reverse

/-- The chaining value and the eight working variables: eight 32-bit words (43_sha256.md R212). -/
abbrev ShaWords := Vector Word32 8

/-- One round with its constant and schedule word (43_sha256.md R212). -/
def shaRound (v : ShaWords) (k w : Word32) : ShaWords :=
  let a := v[0]; let b := v[1]; let c := v[2]; let d := v[3]
  let e := v[4]; let f := v[5]; let g := v[6]; let h := v[7]
  let t1 := h + (rotr e 6 ^^^ rotr e 11 ^^^ rotr e 25) + ((e &&& f) ^^^ (~~~e &&& g)) + k + w
  let t2 := (rotr a 2 ^^^ rotr a 13 ^^^ rotr a 22) + ((a &&& b) ^^^ (a &&& c) ^^^ (b &&& c))
  #v[t1 + t2, a, b, c, d + t1, e, f, g]

/-- The rounds over the constants and schedule words in order (43_sha256.md R212). -/
def shaRounds : List Word32 → List Word32 → ShaWords → ShaWords
  | k :: ks, w :: ws, v => shaRounds ks ws (shaRound v k w)
  | _, _, v => v

/-- `COMPRESS(H, B)` (43_sha256.md R212). -/
def compress (h : ShaWords) (block : List Byte) : ShaWords :=
  let v := shaRounds Config.shaK (schedule block) h
  #v[h[0] + v[0], h[1] + v[1], h[2] + v[2], h[3] + v[3],
     h[4] + v[4], h[5] + v[5], h[6] + v[6], h[7] + v[7]]

/-- COMPRESS over `k` consecutive 64-byte blocks of a byte string (43_sha256.md R213). -/
def compressBlocks : Nat → ShaWords → List Byte → ShaWords
  | 0, h, _ => h
  | k + 1, h, bs => compressBlocks k (compress h (bs.take 64)) (bs.drop 64)

/-- The number z of zero bytes of the padding: the least that makes the length of tail, 0x80, zeros and
length field a multiple of 64 (43_sha256.md R213). -/
def paddingZeros (len : Nat) : Nat := (64 - (len + 9) % 64) % 64

/-- The padded tail `T ‖ 0x80 ‖ 0x00 × z ‖ L` (43_sha256.md R213). -/
def paddedTail (bits : BitVec 64) (tail : List Byte) : List Byte :=
  tail ++ [0x80#8] ++ List.replicate (paddingZeros tail.length) 0x00#8 ++ be64Bytes bits

/-- The chaining value after the padded tail: the H' of `FINAL(H, L, T)` (43_sha256.md R213, R216). -/
def shaFinal (h : ShaWords) (bits : BitVec 64) (tail : List Byte) : ShaWords :=
  compressBlocks ((paddedTail bits tail).length / 64) h (paddedTail bits tail)

/-- The 32 digest bytes of a final chaining value, `H0 ‖ ... ‖ H7` (43_sha256.md R213). -/
def digestBytes (h : ShaWords) : List Byte := h.toList.flatMap be32Bytes

/-- The digest as a register value, `be256(D)` (43_sha256.md R216). -/
def digestWord (h : ShaWords) : Word := be256 (digestBytes h)

/-- `SHA256(m)` of a byte string, as its digest bytes (43_sha256.md R210, R213). -/
def sha256 (msg : List Byte) : List Byte :=
  let full := msg.length / 64
  digestBytes (shaFinal (compressBlocks full Config.shaIv msg) (BitVec.ofNat 64 (8 * msg.length))
    (msg.drop (64 * full)))

end Sys2Proof.Machine
end

