-- ==== Sys2Proof/Machine/State.lean ====
section
/-! DEFINITION. The state of the core (10_state.md), the moves the outside world can make on it, and the
state after reset. -/

namespace Sys2Proof.Machine

/-- STATUS.VRES, the result of VERIFY (10_state.md R34). -/
inductive VRes where
  /-- 0 NONE: no VERIFY since reset. -/
  | none
  /-- 1 VALID. -/
  | valid
  /-- 2 INVALID. -/
  | invalid
  /-- 3 BADARG. -/
  | badArg
deriving DecidableEq, Repr

/-- ERRINFO.CAUSE (60_exceptions.md R261). Codes 7 to 15 are never recorded. -/
inductive Cause where
  /-- 0 NONE: no error recorded. -/
  | none
  /-- 1 ILLEGAL_CMD: decode fails. -/
  | illegalCmd
  /-- 2 NONCANON: a source operand or coordinate is not canonical. -/
  | noncanon
  /-- 3 INV_ZERO: MINV of 0. -/
  | invZero
  /-- 4 SHA_NOT_OPEN: SHABLK or SHAFIN with no open message. -/
  | shaNotOpen
  /-- 5 SHA_LENGTH: the message would exceed 2^64 - 1 bits. -/
  | shaLength
  /-- 6 OVERRUN: a host write to CMD, W or MSGBUF while BUSY. -/
  | overrun
deriving DecidableEq, Repr

/-- The command flags of STATUS (10_state.md R34, R35). -/
structure Flags where
  eq   : Bool
  lt   : Bool
  zr   : Bool
  inf  : Bool
  pv   : Bool
  vres : VRes
deriving DecidableEq, Repr

/-- The SHA-256 unit: the hidden chaining value, MSGBITS and SHA_OPEN (10_state.md R37, R45, R47). -/
structure ShaState where
  h      : ShaWords
  bits   : BitVec 64
  isOpen : Bool
deriving DecidableEq, Repr

/-- One effect a command commits at completion (00_scope.md R12, R13). -/
inductive Write where
  /-- `W[r] <- v`. -/
  | reg (r : Reg) (v : Word)
  /-- `F.EQ <- b`. -/
  | eq (b : Bool)
  /-- `F.LT <- b`. -/
  | lt (b : Bool)
  /-- `F.ZR <- b`. -/
  | zr (b : Bool)
  /-- `F.INF <- b`. -/
  | inf (b : Bool)
  /-- `F.PV <- b`. -/
  | pv (b : Bool)
  /-- `F.VRES <- v`. -/
  | vres (v : VRes)
  /-- `H <- h`. -/
  | shaH (h : ShaWords)
  /-- `MSGBITS <- n`. -/
  | msgbits (n : BitVec 64)
  /-- `SHA_OPEN <- b`. -/
  | shaOpen (b : Bool)
deriving DecidableEq, Repr

/-- What a command computes at issue: the effects to commit, or its error cause (10_state.md R39, R49). -/
inductive Result where
  | commit (writes : List Write)
  | error (cause : Cause)
deriving DecidableEq, Repr

/-- The pending record, held from issue to completion (10_state.md R49). -/
structure Pending where
  cmd    : Word32
  result : Result
deriving DecidableEq, Repr

/-- The width of a host access (20_memory.md R73). -/
inductive BusWidth where
  | w8
  | w16
  | w32
  | w64
deriving DecidableEq, Repr

/-- A host access to the window (20_memory.md R72, R73). A write carries its byte strobes; the data is the
32 bits an accepted write can carry (any other access has no effect, R73). -/
inductive Access where
  | read (off : Offset) (width : BusWidth)
  | write (off : Offset) (width : BusWidth) (strobes : BitVec 4) (data : Word32)
deriving DecidableEq, Repr

/-- The one response of an access (20_memory.md R72, R75). -/
inductive Response where
  /-- A read answered OKAY with its data. -/
  | data (v : Word32)
  /-- A write answered OKAY. -/
  | okay
  /-- A bus error. -/
  | busError
deriving DecidableEq, Repr

/-- A move of one of the agents (10_state.md R30, 70_reset_and_hazards.md R290, R308). -/
inductive Turn where
  /-- The host makes an access. -/
  | host (a : Access)
  /-- The core's turn: its completion step, if a command is pending. -/
  | core
  /-- The core's completion step and a host write of d to EVENT in the same hardware cycle
  (60_exceptions.md R267). -/
  | coreWithClear (d : Word32)
  /-- The platform asserts the reset input. -/
  | resetAssert
  /-- The platform releases the reset input. -/
  | resetRelease
deriving DecidableEq, Repr

/-- The state of the core, of its reset input, and of the moves still to come. BUSY is the presence of the
pending record (10_state.md R36, R49). -/
structure State where
  /-- W0 to W31 (10_state.md R32). -/
  w         : Vector Word 32
  /-- MSGBUF, at its window offsets (10_state.md R46). -/
  mem       : Memory
  /-- The SHA-256 unit (10_state.md R37, R45, R47). -/
  sha       : ShaState
  /-- The command flags (10_state.md R34). -/
  flags     : Flags
  /-- EVENT.DONE (10_state.md R40). -/
  done      : Bool
  /-- EVENT.ERR (10_state.md R40). -/
  err       : Bool
  /-- ERRINFO.CAUSE (10_state.md R41). -/
  cause     : Cause
  /-- ERRCMD (10_state.md R42). -/
  errcmd    : Word32
  /-- CTRL.IE_DONE (10_state.md R43). -/
  ieDone    : Bool
  /-- CTRL.IE_ERR (10_state.md R43). -/
  ieErr     : Bool
  /-- The pending record, present iff BUSY = 1 (10_state.md R49). -/
  pending   : Option Pending
  /-- Whether the hardware reset is asserted (70_reset_and_hazards.md R290). -/
  inReset   : Bool
  /-- The model's own: the moves still to come, oldest first (log entry 1). -/
  schedule  : List Turn
  /-- The model's own: the responses given so far, newest first (log entry 2). -/
  responses : List Response
deriving DecidableEq, Repr

/-- Why the machine stops. -/
inductive Fault where
  /-- Raised by step when the host accesses the window while the hardware reset is asserted: the host has no
  move there (70_reset_and_hazards.md R290, 93_implementation_defined.md I14). Safe: the model stops where
  the spec gives no behaviour. -/
  | accessInReset
deriving DecidableEq, Repr

/-- Why an instruction has no meaning. -/
inductive Refusal where
  /-- Raised by exec's arm of an instruction that has no meaning yet. Safe: nothing is claimed of it. No arm
  raises it in this model. -/
  | notModelled (mnemonic : String)
deriving DecidableEq, Repr

/-- The state after a hardware or soft reset (10_state.md R51), with no moves to come and no responses given. -/
def State.reset : State where
  w         := Vector.replicate 32 0#256
  mem       := []
  sha       := { h := Vector.replicate 8 0#32, bits := 0#64, isOpen := false }
  flags     := { eq := false, lt := false, zr := false, inf := false, pv := false, vres := .none }
  done      := false
  err       := false
  cause     := .none
  errcmd    := 0#32
  ieDone    := false
  ieErr     := false
  pending   := none
  inReset   := false
  schedule  := []
  responses := []

end Sys2Proof.Machine
end

