-- ==== Sys2Proof/Machine/Flags.lean ====
section
/-! DEFINITION. Flag computations (10_state.md R35) and the bit layout of the control registers
(10_state.md R34, R40 to R45), with the interrupt output (10_state.md R50). -/

namespace Sys2Proof.Machine

/-! ## Flags a command writes (10_state.md R35) -/

/-- EQ of CMP: plain equality of the 256-bit integers (40_move_compare.md R134). -/
def eqFlag (x y : Word) : Bool := x == y

/-- LT of CMP: unsigned less-than (40_move_compare.md R134). -/
def ltFlag (x y : Word) : Bool := x.ult y

/-- ZR of a modular command: the result is zero (41_modular.md R152). -/
def zrFlag (r : Nat) : Bool := r == 0

/-- INF of a point command: the result's Z is zero (42_curve.md R180). -/
def infFlag (q : JPoint) : Bool := q.z == 0

/-! ## Register layouts -/

/-- VRES as its two bits (10_state.md R34). -/
def VRes.bits : VRes → BitVec 2
  | .none => 0#2
  | .valid => 1#2
  | .invalid => 2#2
  | .badArg => 3#2

/-- The code of a cause (60_exceptions.md R261). -/
def Cause.code : Cause → BitVec 4
  | .none => 0#4
  | .illegalCmd => 1#4
  | .noncanon => 2#4
  | .invZero => 3#4
  | .shaNotOpen => 4#4
  | .shaLength => 5#4
  | .overrun => 6#4

/-- BUSY: a command is latched (10_state.md R36, R49). -/
def State.busy (s : State) : Bool := s.pending.isSome

/-- STATUS as the host reads it; reserved bits read 0 (10_state.md R34). -/
def State.statusWord (s : State) : Word32 :=
  0#17 ++ s.flags.vres.bits ++ BitVec.ofBool s.flags.pv ++ BitVec.ofBool s.flags.inf ++
    BitVec.ofBool s.flags.zr ++ BitVec.ofBool s.flags.lt ++ BitVec.ofBool s.flags.eq ++ 0#6 ++
    BitVec.ofBool s.sha.isOpen ++ BitVec.ofBool s.busy

/-- EVENT as the host reads it (10_state.md R40). -/
def State.eventWord (s : State) : Word32 := 0#30 ++ BitVec.ofBool s.err ++ BitVec.ofBool s.done

/-- ERRINFO as the host reads it: CAUSE in bits 3:0, which reads NONE while EVENT.ERR is 0 (10_state.md R41). -/
def State.errinfoWord (s : State) : Word32 := 0#28 ++ (if s.err then s.cause.code else Cause.none.code)

/-- CTRL as the host reads it: SRST and the reserved bits read 0 (10_state.md R43). -/
def State.ctrlWord (s : State) : Word32 :=
  0#29 ++ BitVec.ofBool s.ieErr ++ BitVec.ofBool s.ieDone ++ 0#1

/-- MSGBITS_LO, bits 31:0 (10_state.md R45). -/
def State.msgbitsLo (s : State) : Word32 := s.sha.bits.extractLsb' 0 32

/-- MSGBITS_HI, bits 63:32 (10_state.md R45). -/
def State.msgbitsHi (s : State) : Word32 := s.sha.bits.extractLsb' 32 32

/-- The interrupt output, a level that is a function of the stored bits (10_state.md R50, 60_exceptions.md R266). -/
def State.irq (s : State) : Bool := (s.ieDone && s.done) || (s.ieErr && s.err)

end Sys2Proof.Machine
end

