-- ==== Sys2Proof/Machine/Operands.lean ====
section
/-! DEFINITION. Every operand form: registers, triples, pairs, immediates, ROM constants and window offsets
(30_encoding.md R104, R105; 20_memory.md R71), and the operand checks (41_modular.md R151, 42_curve.md R181). -/

namespace Sys2Proof.Machine

/-! ## Command operands -/

/-- Class S: `W[f]` (30_encoding.md R104). -/
def State.reg (s : State) (f : Reg) : Word := s.w[f.val]

/-- `W[f]` as the unsigned integer it holds (10_state.md R32). -/
def State.regNat (s : State) (f : Reg) : Nat := (s.reg f).toNat

/-- Class T: the Jacobian point `P(f) = (W[f], W[f+1], W[f+2])`; a well-formed command has f at most 29
(30_encoding.md R104, 00_scope.md R12). -/
def State.point (s : State) (f : Reg) : JPoint :=
  ⟨s.regNat f, s.regNat (f + 1), s.regNat (f + 2)⟩

/-- Class D, the second register of the pair `(W[f], W[f+1])`; f is at most 30 (30_encoding.md R104). -/
def State.pairSecond (s : State) (f : Reg) : Nat := s.regNat (f + 1)

/-- IMM6 is zero-extended, never sign-extended, scaled or shifted (30_encoding.md R105). -/
def immValue (imm : BitVec 6) : Nat := imm.toNat

/-- The ROM entry of an index; 12 to 63 are reserved (40_move_compare.md R132). -/
def romEntry (k : Nat) : Option Word := (Config.rom[k]?).map (BitVec.ofNat 256)

/-- The canonical-operand check: NONCANON unless the source is below MOD(M) (41_modular.md R151). -/
def requireCanon (m : Modulus) (v : Nat) (onOk : Result) : Result :=
  if v < modulus m then onOk else .error .noncanon

/-- The point operand check: NONCANON unless X, Y and Z are below p (42_curve.md R181). -/
def requirePoint (q : JPoint) (onOk : Result) : Result :=
  if q.canonical then onOk else .error .noncanon

/-! ## Results -/

/-- A modular command's results: `W[rd] <- r` and `F.ZR <- (r == 0)` (41_modular.md R152). -/
def modularResult (rd : Reg) (r : Nat) : Result :=
  .commit [.reg rd (BitVec.ofNat 256 r), .zr (zrFlag r)]

/-- A point command's results: `P(rd) <- R` and `F.INF <- (R.Z == 0)` (42_curve.md R180). -/
def pointResult (rd : Reg) (q : JPoint) : Result :=
  .commit [.reg rd (BitVec.ofNat 256 q.x), .reg (rd + 1) (BitVec.ofNat 256 q.y),
    .reg (rd + 2) (BitVec.ofNat 256 q.z), .inf (infFlag q)]

/-! ## Window offsets (20_memory.md R71) -/

/-- What an aligned window offset names. -/
inductive Target where
  | id
  | version
  | ctrl
  | status
  | event
  | errinfo
  | errcmd
  | cmd
  | msgbitsLo
  | msgbitsHi
  /-- The word at MSGBUF[4k] to MSGBUF[4k+3]. -/
  | msgbuf (k : Nat)
  /-- The k-th word of W[i]. -/
  | w (i : Reg) (k : Nat)
deriving DecidableEq, Repr

/-- The register number of an offset in the W window, `W[i] at 0x100 + 32·i` (20_memory.md R71). -/
def windowReg (off : Nat) : Reg := Fin.ofNat 32 ((off - 0x100) / 32)

/-- The target of an aligned offset; none for a reserved one (20_memory.md R71, R76). -/
def windowTarget (off : Nat) : Option Target :=
  if off = 0x000 then some .id
  else if off = 0x004 then some .version
  else if off = 0x008 then some .ctrl
  else if off = 0x00C then some .status
  else if off = 0x010 then some .event
  else if off = 0x014 then some .errinfo
  else if off = 0x018 then some .errcmd
  else if off = 0x01C then some .cmd
  else if off = 0x020 then some .msgbitsLo
  else if off = 0x024 then some .msgbitsHi
  else if 0x040 ≤ off ∧ off < 0x080 then some (.msgbuf ((off - 0x040) / 4))
  else if 0x100 ≤ off ∧ off < 0x500 then some (.w (windowReg off) ((off - 0x100) % 32 / 4))
  else none

/-- The target of an access, if its width, alignment and offset are accepted (20_memory.md R73, R74, R76). -/
def acceptedTarget (off : Offset) (width : BusWidth) : Option Target :=
  if width = .w32 ∧ off.toNat % 4 = 0 then windowTarget off.toNat else none

end Sys2Proof.Machine
end

