-- ==== Sys2Proof/Machine/Ops.lean ====
section
/-! DEFINITION. The named operations over registers and memory; issue, completion and commit
(10_state.md R39, R49); the recording of errors, which is the core's exception entry, and the
acknowledgement, which is its return (60_exceptions.md R263, R264, R268, R269); reset. -/

namespace Sys2Proof.Machine

/-! ## Registers and memory -/

/-- `W[r] <- v` (00_scope.md R12). -/
def State.setReg (s : State) (r : Reg) (v : Word) : State := { s with w := s.w.set r.val v }

/-- The state with the byte MSGBUF[j] replaced (20_memory.md R79). -/
def State.setMsgbuf (s : State) (j : Nat) (b : Byte) : State :=
  { s with mem := Memory.write s.mem (msgbufBase + j) b }

/-- The 32-bit bus word at MSGBUF[4k] (20_memory.md R77, R79). -/
def State.msgbufWord (s : State) (k : Nat) : Word32 :=
  busWord (Memory.msgbuf s.mem (4 * k)) (Memory.msgbuf s.mem (4 * k + 1))
    (Memory.msgbuf s.mem (4 * k + 2)) (Memory.msgbuf s.mem (4 * k + 3))

/-- The state after a bus write of `d` at MSGBUF[4k] (20_memory.md R77, R79). -/
def State.setMsgbufWord (s : State) (k : Nat) (d : Word32) : State :=
  (((s.setMsgbuf (4 * k) (busByte d 0)).setMsgbuf (4 * k + 1) (busByte d 1)).setMsgbuf (4 * k + 2)
    (busByte d 2)).setMsgbuf (4 * k + 3) (busByte d 3)

/-- The state after a bus write of `d` to the k-th word of W[i] (20_memory.md R78). -/
def State.setRegLane (s : State) (i : Reg) (k : Nat) (d : Word32) : State :=
  s.setReg i (writeWordLane (s.reg i) k d)

/-- The state with one more response given (20_memory.md R72). -/
def State.respond (s : State) (r : Response) : State := { s with responses := r :: s.responses }

/-! ## Commit -/

/-- One committed effect (00_scope.md R12). -/
def Write.apply : Write → State → State
  | .reg r v, s => s.setReg r v
  | .eq b, s => { s with flags := { s.flags with eq := b } }
  | .lt b, s => { s with flags := { s.flags with lt := b } }
  | .zr b, s => { s with flags := { s.flags with zr := b } }
  | .inf b, s => { s with flags := { s.flags with inf := b } }
  | .pv b, s => { s with flags := { s.flags with pv := b } }
  | .vres v, s => { s with flags := { s.flags with vres := v } }
  | .shaH h, s => { s with sha := { s.sha with h := h } }
  | .msgbits n, s => { s with sha := { s.sha with bits := n } }
  | .shaOpen b, s => { s with sha := { s.sha with isOpen := b } }

/-- A command's effects, all together (00_scope.md R13). -/
def applyWrites : List Write → State → State
  | [], s => s
  | x :: xs, s => applyWrites xs (x.apply s)

/-! ## Recording an error: the core's exception entry (60_exceptions.md R263, R264, R268) -/

/-- The first error since EVENT.ERR was last 0 is kept; ERR is set (60_exceptions.md R263, R264). -/
def State.recordError (s : State) (cause : Cause) (word : Word32) : State :=
  if s.err then s else { s with err := true, cause := cause, errcmd := word }

/-- Completion with error: the error is recorded, DONE is set and BUSY is cleared; nothing else changes
(60_exceptions.md R263). -/
def completeWithError (c : Word32) (cause : Cause) (s : State) : State :=
  { s.recordError cause c with done := true, pending := none }

/-- A dropped host write while BUSY: OVERRUN is recorded with the write's data; DONE is not set and the
command in progress goes on (60_exceptions.md R264). -/
def overrun (d : Word32) (s : State) : State := s.recordError .overrun d

/-! ## Acknowledging: the return (60_exceptions.md R269, 10_state.md R40 to R42) -/

/-- A host write to EVENT: write-1-to-clear; clearing ERR clears ERRINFO and ERRCMD in the same write. -/
def State.clearEvents (s : State) (d : Word32) : State :=
  let s1 := if d.getLsbD 0 then { s with done := false } else s
  if d.getLsbD 1 then { s1 with err := false, cause := .none, errcmd := 0#32 } else s1

/-! ## Issue and completion (10_state.md R39, R49) -/

/-- Latch a command word with the result computed at issue; BUSY becomes 1 (10_state.md R36, R39, R49). -/
def State.latch (s : State) (c : Word32) (r : Result) : State := { s with pending := some ⟨c, r⟩ }

/-- A write of word c to CMD with the result its function gives: issue when BUSY = 0, an overrun when
BUSY = 1 (10_state.md R38). -/
def issueWord (c : Word32) (r : Result) (s : State) : State :=
  if s.busy then overrun c s else s.latch c r

/-- Issue of a command: an ill-formed one has the result ILLEGAL_CMD before any other error
(30_encoding.md R108, 60_exceptions.md R265). -/
def issue (i : Instr) (r : Result) (s : State) : Host.Outcome State Fault Refusal :=
  .next (issueWord (encode i) (if i.wellFormed then r else .error .illegalCmd) s)

/-- The core's completion step: commit every result together, clear BUSY and set DONE; or record the error.
It is enabled exactly while a command is pending (10_state.md R39, R49, 70_reset_and_hazards.md R308). -/
def complete (s : State) : State :=
  match s.pending with
  | none => s
  | some ⟨_, .commit ws⟩ => { applyWrites ws s with done := true, pending := none }
  | some ⟨c, .error cause⟩ => completeWithError c cause s

/-- The EVENT bits that the completion of the pending command sets, none on an idle core (10_state.md R39, R40). -/
def State.completionEvents (s : State) : Word32 :=
  match s.pending with
  | none => 0x0#32
  | some ⟨_, .commit _⟩ => 0x1#32
  | some ⟨_, .error _⟩ => 0x3#32

/-- The completion and a host write of d to EVENT in the same hardware cycle: the completion is ordered first, and
the bits it sets survive the clear (60_exceptions.md R267, 10_state.md R40). -/
def completeWithClear (d : Word32) (s : State) : State :=
  (complete s).clearEvents (d &&& ~~~s.completionEvents)

/-! ## Reset (10_state.md R43, R51; 70_reset_and_hazards.md R290, R291) -/

/-- The core in its reset state; the moves to come, the responses given and the level of the reset input
are not the core's and stay. -/
def State.toReset (s : State) : State :=
  { State.reset with inReset := s.inReset, schedule := s.schedule, responses := s.responses }

/-- A host write to CTRL: SRST = 1 resets the core whatever the other bits; otherwise the enables are set
(10_state.md R43, 70_reset_and_hazards.md R291). -/
def State.writeCtrl (s : State) (d : Word32) : State :=
  if d.getLsbD 0 then s.toReset else { s with ieDone := d.getLsbD 1, ieErr := d.getLsbD 2 }

/-- The reset input is asserted: any command in progress is lost without commit, DONE or ERR
(70_reset_and_hazards.md R290). -/
def State.assertReset (s : State) : State := { s.toReset with inReset := true }

/-- The reset input is released: the state is the reset state (70_reset_and_hazards.md R290). A release of an
input that is not asserted is no edge and changes nothing. -/
def State.releaseReset (s : State) : State :=
  if s.inReset then { s.toReset with inReset := false } else s

end Sys2Proof.Machine
end

