-- ==== Sys2Proof/Machine/Modular.lean ====
section
/-! DEFINITION. The modular arithmetic commands, mod p and mod n (41_modular.md). Each checks its sources, RA
before RB (R151), and writes its canonical result and ZR (R150, R152). -/

namespace Sys2Proof.Machine

/-- `(W[RA] + W[RB]) mod MOD(M)` (41_modular.md R153). -/
def maddResult (m : Modulus) (rd ra rb : Reg) (s : State) : Result :=
  requireCanon m (s.regNat ra) (requireCanon m (s.regNat rb)
    (modularResult rd (addMod (modulus m) (s.regNat ra) (s.regNat rb))))

/-- MADD (41_modular.md R153). -/
def execMadd (m : Modulus) (rd ra rb : Reg) (s : State) : Host.Outcome State Fault Refusal :=
  issue (.madd m rd ra rb) (maddResult m rd ra rb s) s

/-- `(W[RA] - W[RB]) mod MOD(M)` (41_modular.md R154). -/
def msubResult (m : Modulus) (rd ra rb : Reg) (s : State) : Result :=
  requireCanon m (s.regNat ra) (requireCanon m (s.regNat rb)
    (modularResult rd (subMod (modulus m) (s.regNat ra) (s.regNat rb))))

/-- MSUB (41_modular.md R154). -/
def execMsub (m : Modulus) (rd ra rb : Reg) (s : State) : Host.Outcome State Fault Refusal :=
  issue (.msub m rd ra rb) (msubResult m rd ra rb s) s

/-- `(0 - W[RA]) mod MOD(M)` (41_modular.md R155). -/
def mnegResult (m : Modulus) (rd ra : Reg) (s : State) : Result :=
  requireCanon m (s.regNat ra) (modularResult rd (subMod (modulus m) 0 (s.regNat ra)))

/-- MNEG (41_modular.md R155). -/
def execMneg (m : Modulus) (rd ra : Reg) (s : State) : Host.Outcome State Fault Refusal :=
  issue (.mneg m rd ra) (mnegResult m rd ra s) s

/-- `(W[RA] · W[RB]) mod MOD(M)` (41_modular.md R156). -/
def mmulResult (m : Modulus) (rd ra rb : Reg) (s : State) : Result :=
  requireCanon m (s.regNat ra) (requireCanon m (s.regNat rb)
    (modularResult rd (mulMod (modulus m) (s.regNat ra) (s.regNat rb))))

/-- MMUL (41_modular.md R156). -/
def execMmul (m : Modulus) (rd ra rb : Reg) (s : State) : Host.Outcome State Fault Refusal :=
  issue (.mmul m rd ra rb) (mmulResult m rd ra rb s) s

/-- `(W[RA] · W[RA]) mod MOD(M)` (41_modular.md R157). -/
def msqrResult (m : Modulus) (rd ra : Reg) (s : State) : Result :=
  requireCanon m (s.regNat ra) (modularResult rd (mulMod (modulus m) (s.regNat ra) (s.regNat ra)))

/-- MSQR (41_modular.md R157). -/
def execMsqr (m : Modulus) (rd ra : Reg) (s : State) : Host.Outcome State Fault Refusal :=
  issue (.msqr m rd ra) (msqrResult m rd ra s) s

/-- `W[RA] mod MOD(M)`; any 256-bit value is accepted (41_modular.md R158). -/
def mredResult (m : Modulus) (rd ra : Reg) (s : State) : Result :=
  modularResult rd (s.regNat ra % modulus m)

/-- MRED (41_modular.md R158). -/
def execMred (m : Modulus) (rd ra : Reg) (s : State) : Host.Outcome State Fault Refusal :=
  issue (.mred m rd ra) (mredResult m rd ra s) s

/-- The inverse of W[RA] modulo MOD(M): NONCANON first, then INV_ZERO for 0 (41_modular.md R159). -/
def minvResult (m : Modulus) (rd ra : Reg) (s : State) : Result :=
  requireCanon m (s.regNat ra)
    (if s.regNat ra = 0 then .error .invZero else modularResult rd (invMod (modulus m) (s.regNat ra)))

/-- MINV (41_modular.md R159). -/
def execMinv (m : Modulus) (rd ra : Reg) (s : State) : Host.Outcome State Fault Refusal :=
  issue (.minv m rd ra) (minvResult m rd ra s) s

/-- `(W[RA] · W[RB] · Rinv(M)) mod MOD(M)` (41_modular.md R161). -/
def montResult (m : Modulus) (rd ra rb : Reg) (s : State) : Result :=
  requireCanon m (s.regNat ra) (requireCanon m (s.regNat rb)
    (modularResult rd (mulMod (modulus m) (s.regNat ra * s.regNat rb) (montInverse m))))

/-- MONT (41_modular.md R161). -/
def execMont (m : Modulus) (rd ra rb : Reg) (s : State) : Host.Outcome State Fault Refusal :=
  issue (.mont m rd ra rb) (montResult m rd ra rb s) s

/-- `(W[RA] · 2^256) mod MOD(M)` (41_modular.md R162). -/
def tomontResult (m : Modulus) (rd ra : Reg) (s : State) : Result :=
  requireCanon m (s.regNat ra) (modularResult rd (mulMod (modulus m) (s.regNat ra) Config.montRadix))

/-- TOMONT (41_modular.md R162). -/
def execTomont (m : Modulus) (rd ra : Reg) (s : State) : Host.Outcome State Fault Refusal :=
  issue (.tomont m rd ra) (tomontResult m rd ra s) s

/-- `(W[RA] · Rinv(M)) mod MOD(M)` (41_modular.md R163). -/
def frommontResult (m : Modulus) (rd ra : Reg) (s : State) : Result :=
  requireCanon m (s.regNat ra) (modularResult rd (mulMod (modulus m) (s.regNat ra) (montInverse m)))

/-- FROMMONT (41_modular.md R163). -/
def execFrommont (m : Modulus) (rd ra : Reg) (s : State) : Host.Outcome State Fault Refusal :=
  issue (.frommont m rd ra) (frommontResult m rd ra s) s

end Sys2Proof.Machine
end

