-- ==== Sys2Proof/Machine/Move.lean ====
section
/-! DEFINITION. The move, constant and compare commands (40_move_compare.md). Each command is its function on
the state at issue, and its meaning, which issues it. -/

namespace Sys2Proof.Machine

/-- NOP computes nothing (40_move_compare.md R130). -/
def nopResult (_ : State) : Result := .commit []

/-- NOP: it still issues and completes (40_move_compare.md R130). -/
def execNop (s : State) : Host.Outcome State Fault Refusal := issue .nop (nopResult s) s

/-- `W[RD] <- W[RA]`, copied whole (40_move_compare.md R131). -/
def movResult (rd ra : Reg) (s : State) : Result := .commit [.reg rd (s.reg ra)]

/-- MOV (40_move_compare.md R131). -/
def execMov (rd ra : Reg) (s : State) : Host.Outcome State Fault Refusal :=
  issue (.mov rd ra) (movResult rd ra s) s

/-- `W[RD] <- ROM[k]`; an index over 11 is ILLEGAL_CMD (40_move_compare.md R133). -/
def ldcResult (rd : Reg) (k : BitVec 6) (_ : State) : Result :=
  match romEntry (immValue k) with
  | some v => .commit [.reg rd v]
  | none => .error .illegalCmd

/-- LDC (40_move_compare.md R133). -/
def execLdc (rd : Reg) (k : BitVec 6) (s : State) : Host.Outcome State Fault Refusal :=
  issue (.ldc rd k) (ldcResult rd k s) s

/-- `F.EQ` and `F.LT` of the two registers as unsigned integers (40_move_compare.md R134). -/
def cmpResult (ra rb : Reg) (s : State) : Result :=
  .commit [.eq (eqFlag (s.reg ra) (s.reg rb)), .lt (ltFlag (s.reg ra) (s.reg rb))]

/-- CMP (40_move_compare.md R134). -/
def execCmp (ra rb : Reg) (s : State) : Host.Outcome State Fault Refusal :=
  issue (.cmp ra rb) (cmpResult ra rb s) s

end Sys2Proof.Machine
end

