-- ==== Sys2Proof/Machine/Point.lean ====
section
/-! DEFINITION. The curve arithmetic commands (42_curve.md). A point command checks its point sources (R181),
writes its result point and INF (R180), and checks no scalar. -/

namespace Sys2Proof.Machine

/-- `DBL(P(RA))` (42_curve.md R185). -/
def pdblResult (rd ra : Reg) (s : State) : Result :=
  requirePoint (s.point ra) (pointResult rd (pointDouble (s.point ra)))

/-- PDBL (42_curve.md R185). -/
def execPdbl (rd ra : Reg) (s : State) : Host.Outcome State Fault Refusal :=
  issue (.pdbl rd ra) (pdblResult rd ra s) s

/-- `ADD(P(RA), P(RB))` (42_curve.md R186). -/
def paddResult (rd ra rb : Reg) (s : State) : Result :=
  requirePoint (s.point ra) (requirePoint (s.point rb)
    (pointResult rd (pointAdd (s.point ra) (s.point rb))))

/-- PADD (42_curve.md R186). -/
def execPadd (rd ra rb : Reg) (s : State) : Host.Outcome State Fault Refusal :=
  issue (.padd rd ra rb) (paddResult rd ra rb s) s

/-- `W[RB] · P(RA)` (42_curve.md R187). -/
def pmulResult (rd ra rb : Reg) (s : State) : Result :=
  requirePoint (s.point ra) (pointResult rd (scalarMul (s.point ra) (s.regNat rb)))

/-- PMUL (42_curve.md R187). -/
def execPmul (rd ra rb : Reg) (s : State) : Host.Outcome State Fault Refusal :=
  issue (.pmul rd ra rb) (pmulResult rd ra rb s) s

/-- `W[RB]·G + W[RC]·P(RA)` (42_curve.md R188). -/
def pshamResult (rd ra rb rc : Reg) (s : State) : Result :=
  requirePoint (s.point ra)
    (pointResult rd (shamir (s.regNat rb) (s.regNat rc) (s.point ra)))

/-- PSHAM (42_curve.md R188). -/
def execPsham (rd ra rb rc : Reg) (s : State) : Host.Outcome State Fault Refusal :=
  issue (.psham rd ra rb rc) (pshamResult rd ra rb rc s) s

/-- The affine form of P(RA), or INF (42_curve.md R189). -/
def paffResult (rd ra : Reg) (s : State) : Result :=
  requirePoint (s.point ra) (pointResult rd (toAffine (s.point ra)))

/-- PAFF (42_curve.md R189). -/
def execPaff (rd ra : Reg) (s : State) : Host.Outcome State Fault Refusal :=
  issue (.paff rd ra) (paffResult rd ra s) s

/-- Decode-and-validate the pair (W[RA], W[RA+1]) into PV; a failure is PV = 0, not an error (42_curve.md R190). -/
def pchkResult (ra : Reg) (s : State) : Result :=
  .commit [.pv (validPoint (s.regNat ra) (s.pairSecond ra))]

/-- PCHK (42_curve.md R190). -/
def execPchk (ra : Reg) (s : State) : Host.Outcome State Fault Refusal :=
  issue (.pchk ra) (pchkResult ra s) s

end Sys2Proof.Machine
end

