-- ==== Sys2Proof/Machine/Sha.lean ====
section
/-! DEFINITION. The SHA-256 commands (43_sha256.md R214 to R216). -/

namespace Sys2Proof.Machine

/-- `H <- IV; MSGBITS <- 0; SHA_OPEN <- 1` (43_sha256.md R214). -/
def shainitResult (_ : State) : Result :=
  .commit [.shaH Config.shaIv, .msgbits 0#64, .shaOpen true]

/-- SHAINIT (43_sha256.md R214). -/
def execShainit (s : State) : Host.Outcome State Fault Refusal := issue .shainit (shainitResult s) s

/-- The message length once `extra` more bits are absorbed, exact (43_sha256.md R215, R216). -/
def lengthAfter (s : State) (extra : Nat) : Nat := s.sha.bits.toNat + extra

/-- The checks of SHABLK and SHAFIN, in this order: SHA_NOT_OPEN, then SHA_LENGTH for a message over
2^64 - 1 bits (43_sha256.md R215, R216; 60_exceptions.md R265). -/
def requireShaRoom (s : State) (extra : Nat) (onOk : Result) : Result :=
  if s.sha.isOpen then
    (if lengthAfter s extra > 2 ^ 64 - 1 then .error .shaLength else onOk)
  else .error .shaNotOpen

/-- Absorb the 64 bytes of MSGBUF (43_sha256.md R215). -/
def shablkResult (s : State) : Result :=
  requireShaRoom s 512
    (.commit [.shaH (compress s.sha.h (Memory.msgbufBytes s.mem 64)),
      .msgbits (BitVec.ofNat 64 (lengthAfter s 512))])

/-- SHABLK (43_sha256.md R215). -/
def execShablk (s : State) : Host.Outcome State Fault Refusal := issue .shablk (shablkResult s) s

/-- The chaining value of FINAL over the first `len` bytes of MSGBUF (43_sha256.md R213, R216). -/
def finalWords (len : BitVec 6) (s : State) : ShaWords :=
  shaFinal s.sha.h (BitVec.ofNat 64 (lengthAfter s (8 * immValue len)))
    (Memory.msgbufBytes s.mem (immValue len))

/-- Absorb the last `len` bytes, pad, and write the digest (43_sha256.md R216). -/
def shafinResult (rd : Reg) (len : BitVec 6) (s : State) : Result :=
  requireShaRoom s (8 * immValue len)
    (.commit [.reg rd (digestWord (finalWords len s)), .shaH (finalWords len s),
      .msgbits (BitVec.ofNat 64 (lengthAfter s (8 * immValue len))), .shaOpen false])

/-- SHAFIN (43_sha256.md R216). -/
def execShafin (rd : Reg) (len : BitVec 6) (s : State) : Host.Outcome State Fault Refusal :=
  issue (.shafin rd len) (shafinResult rd len s) s

end Sys2Proof.Machine
end

