-- ==== Sys2Proof/Machine/Verify.lean ====
section
/-! DEFINITION. The verification command (44_verify.md R240 to R251). -/

namespace Sys2Proof.Machine

/-- r or s is in [1, n-1] (44_verify.md R245). -/
def scalarInRange (v : Nat) : Bool := decide (1 ≤ v) && decide (v ≤ Config.n - 1)

/-- The validation of the key and the signature: BADARG unless it holds (44_verify.md R242 to R245). -/
def verifyArgsOk (qx qy r s : Nat) : Bool :=
  validPoint qx qy && scalarInRange r && scalarInRange s

/-- `R = u1·G + u2·Q` with w = s^-1, u1 = e·w and u2 = r·w mod n, e = h mod n (44_verify.md R246 to R248). -/
def verifyPoint (qx qy r s h : Nat) : JPoint :=
  let e := h % Config.n
  let w := invMod Config.n s
  shamir (mulMod Config.n e w) (mulMod Config.n r w) ⟨qx, qy, 1⟩

/-- The outcome of a verification as a function of its five operands (44_verify.md R241, R251). -/
def verifyOutcome (qx qy r s h : Nat) : VRes :=
  if verifyArgsOk qx qy r s then
    let pt := verifyPoint qx qy r s h
    if pt.z = 0 then .invalid
    else if affineX pt % Config.n = r then .valid else .invalid
  else .badArg

/-- VERIFY writes VRES only (44_verify.md R240, R241). -/
def verifyResult (ra rb rc : Reg) (s : State) : Result :=
  .commit [.vres (verifyOutcome (s.regNat ra) (s.pairSecond ra) (s.regNat rb) (s.pairSecond rb)
    (s.regNat rc))]

/-- VERIFY (44_verify.md R241). -/
def execVerify (ra rb rc : Reg) (s : State) : Host.Outcome State Fault Refusal :=
  issue (.verify ra rb rc) (verifyResult ra rb rc s) s

end Sys2Proof.Machine
end

