-- ==== Sys2Proof/Machine/Dispatch.lean ====
section
/-! DEFINITION. The meaning of each command, one arm per constructor (30_encoding.md R106). -/

namespace Sys2Proof.Machine

/-- What the core does at the issue of a command. -/
def exec (i : Instr) (s : State) : Host.Outcome State Fault Refusal :=
  match i with
  | .nop => Sys2Proof.Machine.execNop s
  | .mov rd ra => Sys2Proof.Machine.execMov rd ra s
  | .ldc rd k => Sys2Proof.Machine.execLdc rd k s
  | .cmp ra rb => Sys2Proof.Machine.execCmp ra rb s
  | .madd m rd ra rb => Sys2Proof.Machine.execMadd m rd ra rb s
  | .msub m rd ra rb => Sys2Proof.Machine.execMsub m rd ra rb s
  | .mneg m rd ra => Sys2Proof.Machine.execMneg m rd ra s
  | .mmul m rd ra rb => Sys2Proof.Machine.execMmul m rd ra rb s
  | .msqr m rd ra => Sys2Proof.Machine.execMsqr m rd ra s
  | .minv m rd ra => Sys2Proof.Machine.execMinv m rd ra s
  | .mred m rd ra => Sys2Proof.Machine.execMred m rd ra s
  | .mont m rd ra rb => Sys2Proof.Machine.execMont m rd ra rb s
  | .tomont m rd ra => Sys2Proof.Machine.execTomont m rd ra s
  | .frommont m rd ra => Sys2Proof.Machine.execFrommont m rd ra s
  | .pdbl rd ra => Sys2Proof.Machine.execPdbl rd ra s
  | .padd rd ra rb => Sys2Proof.Machine.execPadd rd ra rb s
  | .pmul rd ra rb => Sys2Proof.Machine.execPmul rd ra rb s
  | .psham rd ra rb rc => Sys2Proof.Machine.execPsham rd ra rb rc s
  | .paff rd ra => Sys2Proof.Machine.execPaff rd ra s
  | .pchk ra => Sys2Proof.Machine.execPchk ra s
  | .shainit => Sys2Proof.Machine.execShainit s
  | .shablk => Sys2Proof.Machine.execShablk s
  | .shafin rd len => Sys2Proof.Machine.execShafin rd len s
  | .verify ra rb rc => Sys2Proof.Machine.execVerify ra rb rc s

end Sys2Proof.Machine
end

