-- ==== Sys2Proof/Machine/Bus.lean ====
section
/-! DEFINITION. The host's accesses to the register window (20_memory.md R71 to R83), and the moves of every
agent (10_state.md R30, 70_reset_and_hazards.md R290, R308). -/

namespace Sys2Proof.Machine

/-- What a read of a target returns; W and MSGBUF read 0 while BUSY = 1 (20_memory.md R71, R81). -/
def State.readTarget (s : State) : Target → Word32
  | .id => Config.idValue
  | .version => Config.versionValue
  | .ctrl => s.ctrlWord
  | .status => s.statusWord
  | .event => s.eventWord
  | .errinfo => s.errinfoWord
  | .errcmd => s.errcmd
  | .cmd => 0#32
  | .msgbitsLo => s.msgbitsLo
  | .msgbitsHi => s.msgbitsHi
  | .msgbuf k => if s.busy then 0#32 else s.msgbufWord k
  | .w i k => if s.busy then 0#32 else readWordLane (s.reg i) k

/-- A write of a command word to CMD: a legal word is executed, an illegal one issues with the result
ILLEGAL_CMD (10_state.md R38, 30_encoding.md R108). -/
def writeCmd (d : Word32) (s : State) : Host.Outcome State Fault Refusal :=
  match decode d with
  | .ok i => exec i s
  | .error _ => .next (issueWord d (.error .illegalCmd) s)

/-- What a write to a target does: the table of 20_memory.md R82. -/
def writeTarget (t : Target) (d : Word32) (s : State) : Host.Outcome State Fault Refusal :=
  match t with
  | .cmd => writeCmd d s
  | .w i k => .next (if s.busy then overrun d s else s.setRegLane i k d)
  | .msgbuf k => .next (if s.busy then overrun d s else s.setMsgbufWord k d)
  | .event => .next (s.clearEvents d)
  | .ctrl => .next (s.writeCtrl d)
  | .id | .version | .status | .errinfo | .errcmd | .msgbitsLo | .msgbitsHi => .next s

/-- Every byte strobe of a 32-bit write is set (20_memory.md R73). -/
def fullStrobes : BitVec 4 := 0xF#4

/-- A host access and its one response. An access of another width, with partial strobes, misaligned or to a
reserved offset is a bus error and writes no state of the core (20_memory.md R72 to R76). -/
def access (a : Access) (s : State) : Host.Outcome State Fault Refusal :=
  match a with
  | .read off width =>
      match acceptedTarget off width with
      | some t => .next (s.respond (.data (s.readTarget t)))
      | none => .next (s.respond .busError)
  | .write off width strobes d =>
      match acceptedTarget off width with
      | some t =>
          if strobes = fullStrobes then writeTarget t d (s.respond .okay)
          else .next (s.respond .busError)
      | none => .next (s.respond .busError)

/-- The data a response carries to the host; a bus-error read returns the fixed value 0 in the model, marked
failed by being a bus error (20_memory.md R75). -/
def Response.rdata : Response → Word32
  | .data v => v
  | .okay => 0#32
  | .busError => 0#32

/-- The core's turn: its completion step; none while the reset input is asserted (70_reset_and_hazards.md R290). -/
def coreTurn (s : State) : State := if s.inReset then s else complete s

/-- The move of an agent (10_state.md R30, 70_reset_and_hazards.md R290, R308). -/
def takeTurn (t : Turn) (s : State) : Host.Outcome State Fault Refusal :=
  match t with
  | .host a => if s.inReset then .fault .accessInReset else access a s
  | .core => .next (coreTurn s)
  | .coreWithClear d =>
      if s.inReset then .fault .accessInReset else .next (completeWithClear d (s.respond .okay))
  | .resetAssert => .next s.assertReset
  | .resetRelease => .next s.releaseReset

/-- The move at the head of the schedule; with none left, the core's, so that a pending command completes
(70_reset_and_hazards.md R308) and a state with nothing to do is an end state (R309). -/
def nextMove (s : State) : Host.Outcome State Fault Refusal :=
  match s.schedule with
  | [] => .next (coreTurn s)
  | t :: rest => takeTurn t { s with schedule := rest }

/-- A 32-bit read of a window offset (20_memory.md R72, MemRead). -/
def read32 (off : Offset) : Turn := .host (.read off .w32)

/-- A 32-bit write of a window offset (20_memory.md R72, MemWrite). -/
def write32 (off : Offset) (d : Word32) : Turn := .host (.write off .w32 fullStrobes d)

/-- The state whose next move is a write of the word to CMD that issues it (10_state.md R38). The core is
idle and out of reset, without which the write would be an overrun or no move. -/
def State.withCommand (s : State) (c : Word32) : State :=
  { s with pending := none, inReset := false, schedule := write32 0x01C#12 c :: s.schedule }

end Sys2Proof.Machine
end

