-- ==== Sys2Proof/Machine/Step.lean ====
section
/-! DEFINITION. One step of the machine: the next move of the host, of the core or of the reset input. -/

namespace Sys2Proof.Machine

/-- One step (10_state.md R30, 70_reset_and_hazards.md R308). -/
def step (s : State) : Host.Outcome State Fault Refusal := nextMove s

/-- The state with a table row's word placed where the next step takes its command from: a host write to
CMD at the head of the schedule (10_state.md R31, R38). -/
def State.withFetchWord (s : State) (nbits w : Nat) : State := s.withCommand (tableWord nbits w)

end Sys2Proof.Machine
end

