-- ==== Sys2Proof/Safety.lean ====
section
/-! DEFINITION. The terms claims are stated in: the clean-entry state, the invariant of the machine, the host's
duties, and what it means that a command issues and commits. -/

namespace Sys2Proof.Machine

/-- Clean entry (70_reset_and_hazards.md R295): it says nothing of W, MSGBUF, MSGBITS or the flags. -/
def Clean (s : State) : Prop :=
  s.busy = false ∧ s.pending = none ∧ s.done = false ∧ s.err = false ∧ s.errinfoWord = 0#32 ∧
    s.cause = .none ∧ s.errcmd = 0#32 ∧ s.sha.isOpen = false

/-- The command i, issued at s, has result r: exec answers the state that differs from s only in the latched
record of i's word and r (10_state.md R39, R49), so BUSY is 1 and nothing is committed yet. -/
def IssuesWith (i : Instr) (s : State) (r : Result) : Prop :=
  exec i s = .next { s with pending := some ⟨encode i, r⟩ }

/-- The command i, issued at s, commits to u: exec answers a next state that differs from s only in the latched
record of i's word, and the core's completion step turns that state into u (10_state.md R39). -/
def CommitsTo (i : Instr) (s u : State) : Prop :=
  ∃ r, IssuesWith i s r ∧ complete { s with pending := some ⟨encode i, r⟩ } = u

/-- The state at s after a completion that commits a register and ZR: the register rd holds v, ZR is z, DONE is
set, and everything else is as at s (41_modular.md R152). -/
def State.afterModular (s : State) (rd : Reg) (v : Word) (z : Bool) : State :=
  { s with w := s.w.set rd.val v, flags := { s.flags with zr := z }, done := true, pending := none }

/-- The state at s after a completion that commits a point and INF: the three registers from rd hold x, y and z,
INF is f, DONE is set, and everything else is as at s (42_curve.md R180). -/
def State.afterPoint (s : State) (rd : Reg) (x y z : Word) (f : Bool) : State :=
  { s with
    w := ((s.w.set rd.val x).set (rd + 1).val y).set (rd + 2).val z,
    flags := { s.flags with inf := f }, done := true, pending := none }

/-- The state at s after a completion with error of the command word c: ERR and DONE are set, the cause and the
word are recorded if ERR was 0 and kept if it was 1, and everything else is as at s
(60_exceptions.md R263). -/
def State.afterError (s : State) (c : Word32) (cause : Cause) : State :=
  { s with
    err := true, done := true, pending := none,
    cause := if s.err then s.cause else cause,
    errcmd := if s.err then s.errcmd else c }

/-- The state an accepted host access acts on: its move is off the schedule and its response is given. -/
def State.afterAccess (s : State) (rest : List Turn) (r : Response) : State :=
  { s with schedule := rest, responses := r :: s.responses }

/-- The message bytes m, a whole number of blocks, are what the open message has absorbed
(43_sha256.md R213 to R215). -/
def Absorbed (s : State) (m : List Byte) : Prop :=
  s.sha.isOpen = true ∧ m.length % 64 = 0 ∧ 8 * m.length < 2 ^ 64 ∧
    s.sha.bits = BitVec.ofNat 64 (8 * m.length) ∧
    s.sha.h = compressBlocks (m.length / 64) Config.shaIv m

/-- The pending record is what its command word would be issued with on the present state: the state at issue
equals the state at any point before completion (10_state.md R39). -/
def PendingIsCurrent (s : State) : Prop :=
  ∀ p, s.pending = some p → writeCmd p.cmd { s with pending := none } = .next s

/-- The core's own state is the reset state (10_state.md R51). -/
def CoreIsReset (s : State) : Prop :=
  { s with inReset := false, schedule := [], responses := [] } = State.reset

/-- The invariant of the machine, kept by every step. -/
structure Inv (s : State) : Prop where
  /-- The memory is in canonical form. -/
  memCanonical : s.mem.wf = true
  /-- Only MSGBUF's offsets hold bytes (20_memory.md R71). -/
  memOnlyMsgbuf : s.mem.onlyMsgbuf = true
  /-- While ERR is 0, no cause and no command word are recorded (10_state.md R41, R42). -/
  quiet : s.err = false → s.cause = .none ∧ s.errcmd = 0#32
  /-- While ERR is 1, a cause is recorded (60_exceptions.md R263, R264). -/
  recorded : s.err = true → s.cause ≠ .none
  /-- While a message is open, MSGBITS is a multiple of 512 (43_sha256.md R216). -/
  wholeBlocks : s.sha.isOpen = true → s.sha.bits.toNat % 512 = 0
  /-- The pending record is current (10_state.md R39, R49). -/
  pendingCurrent : PendingIsCurrent s
  /-- While the reset input is asserted, the core is in its reset state (log entry 5). -/
  heldInReset : s.inReset = true → CoreIsReset s

/-- The host keeps its duties at an access: while BUSY it does not touch W or MSGBUF nor write CMD, and it never
makes an access that is a bus error (70_reset_and_hazards.md R296, R303). -/
def keepsDuty (s : State) (a : Access) : Bool :=
  match a with
  | .read off width =>
      match acceptedTarget off width with
      | some (.w _ _) | some (.msgbuf _) => !s.busy
      | some _ => true
      | none => false
  | .write off width strobes _ =>
      strobes == fullStrobes &&
        match acceptedTarget off width with
        | some (.w _ _) | some (.msgbuf _) | some .cmd => !s.busy
        | some _ => true
        | none => false

end Sys2Proof.Machine
end

