-- ==== Sys2Proof/Certificates/Slice0/Obligations.lean ====
section
/-! DEFINITION. The statements for the provers. Each docstring names the rules of spec/ it rests on. -/

open Sys2Proof Sys2Proof.Machine

/-! ## Reset and the invariant -/

/-- The reset values of 10_state.md R51, and that a soft reset and the release of the hardware reset put the core
there. -/
def Obligations.ResetStateIsZeroEverywhere : Prop :=
  (∀ r : Reg, State.reset.reg r = 0#256) ∧
  (∀ j, j < 64 → Memory.msgbuf State.reset.mem j = 0#8) ∧
  State.reset.sha.h = Vector.replicate 8 0#32 ∧
  State.reset.msgbitsLo = 0#32 ∧ State.reset.msgbitsHi = 0#32 ∧
  State.reset.statusWord = 0#32 ∧ State.reset.flags.vres = .none ∧
  State.reset.eventWord = 0#32 ∧ State.reset.errinfoWord = 0#32 ∧ State.reset.errcmd = 0#32 ∧
  State.reset.ctrlWord = 0#32 ∧ State.reset.pending = none ∧ State.reset.irq = false ∧
  (∀ s : State, s.readTarget .id = 0x50323536#32 ∧ s.readTarget .version = 0x00010000#32) ∧
  (∀ (s : State) (d : Word32), d.getLsbD 0 = true → CoreIsReset (s.writeCtrl d)) ∧
  (∀ s : State, s.inReset = true → CoreIsReset s.releaseReset)

/-- The reset state is Clean, and a soft reset makes any state outside reset Clean (70_reset_and_hazards.md R294,
R295). -/
def Obligations.ResetAndSoftResetAreClean : Prop :=
  Clean State.reset ∧
  ∀ (s : State) (rest : List Turn) (d : Word32), s.inReset = false → d.getLsbD 0 = true →
    s.schedule = write32 0x008#12 d :: rest → ∃ t, step s = .next t ∧ Clean t

/-- The invariant holds at reset. The clauses on the memory's form and on reset are the model's own (log entries 5
and 7). -/
def Obligations.ResetMeetsInvariant : Prop := Inv State.reset

/-- Every step keeps the invariant: the error registers agree with ERR, MSGBITS is a multiple of 512 while a message
is open, and the pending record is what its command computes on the present state. Three clauses are the model's own
and no rule of the spec: memCanonical and memOnlyMsgbuf, the form of MSGBUF's list (log entry 7), and heldInReset, that
the core is in its reset state while the reset input is asserted (log entry 5) (10_state.md R39, R41, R42, R49;
43_sha256.md R216). -/
def Obligations.EveryStepKeepsInvariant : Prop :=
  ∀ s s' : State, Inv s → step s = .next s' → Inv s'

/-- The hardware reset: it drops the pending command without DONE or ERR, a host access while it is asserted has no
move, and release leaves the reset state. What the state is between assertion and release is the model's choice and not
the spec's (log entry 5, DESIGN CHOICE): that BUSY, DONE and ERR are 0 right after assertion, that a turn of the core
changes nothing of it, and that the fault there takes in a write to EVENT in the cycle of a completion
(70_reset_and_hazards.md R290). -/
def Obligations.HardwareResetDiscardsTheCommand : Prop :=
  ∀ (s : State) (rest : List Turn),
    (s.schedule = .resetAssert :: rest → ∃ t, step s = .next t ∧ t.inReset = true ∧ t.busy = false ∧
      t.done = false ∧ t.err = false ∧ t.schedule = rest) ∧
    (s.schedule = .core :: rest → s.inReset = true → step s = .next { s with schedule := rest }) ∧
    (∀ a, s.schedule = .host a :: rest → s.inReset = true → step s = .fault .accessInReset) ∧
    (∀ d, s.schedule = .coreWithClear d :: rest → s.inReset = true → step s = .fault .accessInReset) ∧
    (s.schedule = .resetRelease :: rest → s.inReset = true →
      step s = .next { State.reset with schedule := rest, responses := s.responses })

/-- CTRL.SRST resets the core whatever the other bits and whether or not it is busy, commits nothing, and leaves the
enables 0; without SRST only the enables are written (70_reset_and_hazards.md R291). -/
def Obligations.SoftResetAbortsWithoutCommit : Prop :=
  ∀ (s : State) (rest : List Turn) (d : Word32), s.inReset = false →
    s.schedule = write32 0x008#12 d :: rest →
    (d.getLsbD 0 = true →
      step s = .next { State.reset with schedule := rest, responses := .okay :: s.responses }) ∧
    (d.getLsbD 0 = false →
      step s = .next { s.afterAccess rest .okay with ieDone := d.getLsbD 1, ieErr := d.getLsbD 2 })

/-! ## Encoding -/

/-- Decoding an encoded command gives it back when it is well formed, and its range error when it is not, for every
command and every value of its fields (30_encoding.md R101 to R110). -/
def Obligations.DecodeOfEncodeIsTheCommand : Prop :=
  ∀ i : Instr, (i.wellFormed = true → decode (encode i) = .ok i) ∧
    (∀ why, i.rangeError = some why → decode (encode i) = .error why)

/-- A word that decodes is the encoding of the command it decodes to, which is well formed: each legal word has one
meaning and no bit of it is dropped (30_encoding.md R106, R107, R110). -/
def Obligations.DecodedWordIsItsEncoding : Prop :=
  ∀ (c : Word32) (i : Instr), decode c = .ok i → encode i = c ∧ i.wellFormed = true

/-- The worked encodings of 30_encoding.md R114, each word decoded to its command. -/
def Obligations.WorkedEncodingsDecode : Prop :=
  decode 0x00000000#32 = .ok .nop ∧
  decode 0x04338000#32 = .ok (.mov 3 7) ∧
  decode 0x08400006#32 = .ok (.ldc 4 6#6) ∧
  decode 0x0C010C00#32 = .ok (.cmp 2 3) ∧
  decode 0x20200400#32 = .ok (.madd .p 2 0 1) ∧
  decode 0x2E531C00#32 = .ok (.mmul .n 5 6 7) ∧
  decode 0x34100000#32 = .ok (.minv .p 1 0) ∧
  decode 0x64B41000#32 = .ok (.padd 11 8 4) ∧
  decode 0x6D450860#32 = .ok (.psham 20 10 2 3) ∧
  decode 0x88500003#32 = .ok (.shafin 5 3#6) ∧
  decode 0xA00531C0#32 = .ok (.verify 10 12 14)

/-- What makes a word legal, row by row, from the fields of 30_encoding.md R101, R102 and the columns of R106: the
opcode, the bits that must be zero, the lowest bits of the T fields and of the D fields. -/
def legalForms : List (Nat × Word32 × List Nat × List Nat) :=
  [(0x00, 0x03FFFFFF#32, [], []), (0x01, 0x02007FFF#32, [], []), (0x02, 0x020FFFC0#32, [], []),
   (0x03, 0x03F003FF#32, [], []), (0x08, 0x3FF#32, [], []), (0x09, 0x3FF#32, [], []),
   (0x0A, 0x7FFF#32, [], []), (0x0B, 0x3FF#32, [], []), (0x0C, 0x7FFF#32, [], []),
   (0x0D, 0x7FFF#32, [], []), (0x0E, 0x7FFF#32, [], []), (0x0F, 0x3FF#32, [], []),
   (0x10, 0x7FFF#32, [], []), (0x11, 0x7FFF#32, [], []),
   (0x18, 0x02007FFF#32, [20, 15], []), (0x19, 0x020003FF#32, [20, 15, 10], []),
   (0x1A, 0x020003FF#32, [20, 15], []), (0x1B, 0x0200001F#32, [20, 15], []),
   (0x1C, 0x02007FFF#32, [20, 15], []), (0x1D, 0x03F07FFF#32, [], [15]),
   (0x20, 0x03FFFFFF#32, [], []), (0x21, 0x03FFFFFF#32, [], []), (0x22, 0x020FFFC0#32, [], []),
   (0x28, 0x03F0001F#32, [], [15, 10])]

/-- A word is refused by the decoder exactly when its opcode is reserved, a must-be-zero field is nonzero, a T field
exceeds 29, a D field exceeds 30, or it is LDC with an index over 11; written to CMD on an idle core it then issues
with the one result ILLEGAL_CMD and no other effect, and completes with that error (30_encoding.md R108). -/
def Obligations.IllegalWordsCompleteWithIllegalCmd : Prop :=
  (∀ c : Word32, (∃ i, decode c = .ok i) ↔
    ∃ row ∈ legalForms, (c.extractLsb' 26 6).toNat = row.1 ∧ c &&& row.2.1 = 0#32 ∧
      (∀ lo ∈ row.2.2.1, (c.extractLsb' lo 5).toNat ≤ 29) ∧
      (∀ lo ∈ row.2.2.2, (c.extractLsb' lo 5).toNat ≤ 30) ∧
      (row.1 = 0x02 → (c.extractLsb' 0 6).toNat ≤ 11)) ∧
  (∀ (c : Word32) (why : Illegal) (s : State), decode c = .error why → s.pending = none →
    writeCmd c s = .next { s with pending := some ⟨c, .error .illegalCmd⟩ } ∧
    complete { s with pending := some ⟨c, .error .illegalCmd⟩ } = s.afterError c .illegalCmd)

/-! ## The step -/

/-- When the next move is a host write of a word to CMD that decodes to i, the step is exec of i on the state with
that move taken and its OKAY response given; an illegal word issues as ILLEGAL_CMD on an idle core, and a command
at a busy core is dropped as an overrun (10_state.md R38, 30_encoding.md R108). -/
def Obligations.StepRunsTheDecodedCommand : Prop :=
  ∀ (s : State) (rest : List Turn) (c : Word32), s.inReset = false →
    s.schedule = write32 0x01C#12 c :: rest →
    (∀ i, decode c = .ok i → step s = exec i (s.afterAccess rest .okay)) ∧
    (∀ why, decode c = .error why → s.pending = none →
      step s = .next { s.afterAccess rest .okay with pending := some ⟨c, .error .illegalCmd⟩ }) ∧
    (s.busy = true → step s = .next (overrun c (s.afterAccess rest .okay)))

/-- Issue latches: whatever command i is executed on an idle core, exec answers the same state but for a pending
record that holds i's word, so BUSY is 1 and no result is visible; at a busy core it is an overrun
(10_state.md R36, R38, R39). -/
def Obligations.IssueOnlyLatches : Prop :=
  ∀ (i : Instr) (s : State),
    (s.pending = none → ∃ r, exec i s = .next { s with pending := some ⟨encode i, r⟩ }) ∧
    (s.busy = true → exec i s = .next (overrun (encode i) s))

/-- BUSY is set by issue and cleared by completion, with or without error, and by a soft reset; it is never 1
without a latched command (10_state.md R36). -/
def Obligations.BusyFollowsIssueAndCompletion : Prop :=
  (∀ (c : Word32) (s : State), s.busy = false → ∃ t, writeCmd c s = .next t ∧ t.busy = true) ∧
  (∀ s : State, (complete s).busy = false) ∧
  (∀ (s : State) (d : Word32), d.getLsbD 0 = true → (s.writeCtrl d).busy = false) ∧
  (∀ s : State, s.busy = true → ∃ p, s.pending = some p) ∧
  (∀ s : State, s.statusWord.getLsbD 0 = s.busy)

/-- Every command word on every idle state leads to a completion, with results or with a recorded cause: the write to
CMD answers a next state, and the core's turn then clears BUSY and sets DONE, and sets ERR or leaves the error
registers as they were (60_exceptions.md R277, 10_state.md R39). -/
def Obligations.EveryCommandWordCompletes : Prop :=
  ∀ (c : Word32) (s : State), s.pending = none → s.inReset = false →
    ∃ t, writeCmd c s = .next t ∧ t.busy = true ∧
      ∀ rest, ∃ u, step { t with schedule := .core :: rest } = .next u ∧
        u.busy = false ∧ u.done = true ∧ u.schedule = rest ∧
        (u.err = true ∧ (s.err = false → u.cause ≠ .none ∧ u.errcmd = c) ∨
          u.err = s.err ∧ u.cause = s.cause ∧ u.errcmd = s.errcmd)

/-- The completion step is enabled exactly while a command is pending: the core's turn completes a pending command and
changes nothing of an idle core. That the step is the core's turn when the schedule is empty is the model's choice (log
entry 1, DESIGN CHOICE), by which it renders the weak fairness of the completion step (log entry 8, DEDUCED)
(70_reset_and_hazards.md R308, R309). -/
def Obligations.CompletionIsEnabledWhilePending : Prop :=
  ∀ (s : State) (rest : List Turn), s.inReset = false →
    (s.schedule = .core :: rest → step s = .next (complete { s with schedule := rest })) ∧
    (s.schedule = [] → step s = .next (complete s)) ∧
    (s.busy = true → (complete s).busy = false ∧ (complete s).done = true) ∧
    (s.busy = false → complete s = s)

/-! ## Move, constant and compare -/

/-- NOP commits nothing but DONE, and MOV copies a whole register, whatever its value, and changes nothing else
(40_move_compare.md R130, R131). -/
def Obligations.NopAndMovCommit : Prop :=
  (∀ s : State, s.pending = none → CommitsTo .nop s { s with done := true }) ∧
  (∀ (rd ra : Reg) (s : State), s.pending = none →
    CommitsTo (.mov rd ra) s { s with w := s.w.set rd.val (s.reg ra), done := true })

/-- The value of each ROM index, the Montgomery constants by their formulas (40_move_compare.md R132). -/
def romValue (k : Nat) : Nat :=
  [0, 1, Config.p, Config.n, Config.p - 3, Config.b, Config.gx, Config.gy,
   2 ^ 256 % Config.p, 2 ^ 512 % Config.p, 2 ^ 256 % Config.n, 2 ^ 512 % Config.n].getD k 0

/-- LDC loads the constant of its index, and an index over 11 is ILLEGAL_CMD and writes nothing
(40_move_compare.md R132, R133). -/
def Obligations.LdcLoadsTheConstant : Prop :=
  ∀ (rd : Reg) (k : BitVec 6) (s : State), s.pending = none →
    (k.toNat ≤ 11 →
      CommitsTo (.ldc rd k) s
        { s with w := s.w.set rd.val (BitVec.ofNat 256 (romValue k.toNat)), done := true }) ∧
    (11 < k.toNat →
      CommitsTo (.ldc rd k) s (s.afterError (encode (.ldc rd k)) .illegalCmd))

/-- CMP sets EQ and LT from the two registers as unsigned integers and writes no register and no other flag
(40_move_compare.md R134). -/
def Obligations.CmpSetsEqAndLt : Prop :=
  ∀ (ra rb : Reg) (s : State), s.pending = none →
    CommitsTo (.cmp ra rb) s
      { s with
        flags := { s.flags with
          eq := decide ((s.reg ra).toNat = (s.reg rb).toNat)
          lt := decide ((s.reg ra).toNat < (s.reg rb).toNat) }
        done := true }

/-! ## Modular arithmetic -/

/-- MADD on canonical sources: the sum, less MOD(M) once where it reaches it (41_modular.md R153). -/
def Obligations.MaddAddsModulo : Prop :=
  ∀ (m : Modulus) (rd ra rb : Reg) (s : State), s.pending = none →
    (s.reg ra).toNat < modulus m → (s.reg rb).toNat < modulus m →
    let x := (s.reg ra).toNat + (s.reg rb).toNat
    let r := if x < modulus m then x else x - modulus m
    CommitsTo (.madd m rd ra rb) s (s.afterModular rd (BitVec.ofNat 256 r) (decide (r = 0)))

/-- MSUB on canonical sources: the difference, plus MOD(M) where it is negative; MNEG is MSUB from 0
(41_modular.md R154, R155). -/
def Obligations.MsubAndMnegSubtractModulo : Prop :=
  ∀ (m : Modulus) (rd ra rb : Reg) (s : State), s.pending = none → (s.reg ra).toNat < modulus m →
    let a := (s.reg ra).toNat
    let b := (s.reg rb).toNat
    (b < modulus m →
      let r := if b ≤ a then a - b else a + modulus m - b
      CommitsTo (.msub m rd ra rb) s (s.afterModular rd (BitVec.ofNat 256 r) (decide (r = 0)))) ∧
    (let r := if a = 0 then 0 else modulus m - a
     CommitsTo (.mneg m rd ra) s (s.afterModular rd (BitVec.ofNat 256 r) (decide (r = 0))))

/-- MMUL and MSQR on canonical sources: the exact product reduced, and ZR is 1 only when a source is 0, because
MOD(M) is prime (41_modular.md R156, R157). -/
def Obligations.MmulAndMsqrMultiplyModulo : Prop :=
  ∀ (m : Modulus) (rd ra rb : Reg) (s : State), s.pending = none → (s.reg ra).toNat < modulus m →
    let a := (s.reg ra).toNat
    let b := (s.reg rb).toNat
    (b < modulus m →
      CommitsTo (.mmul m rd ra rb) s
        (s.afterModular rd (BitVec.ofNat 256 (a * b % modulus m)) (decide (a = 0 ∨ b = 0)))) ∧
    CommitsTo (.msqr m rd ra) s
      (s.afterModular rd (BitVec.ofNat 256 (a * a % modulus m)) (decide (a = 0)))

/-- MRED of any 256-bit value: the value, or the value less MOD(M) (41_modular.md R158). -/
def Obligations.MredReducesAnyValue : Prop :=
  ∀ (m : Modulus) (rd ra : Reg) (s : State), s.pending = none →
    let a := (s.reg ra).toNat
    let r := if a < modulus m then a else a - modulus m
    CommitsTo (.mred m rd ra) s (s.afterModular rd (BitVec.ofNat 256 r) (decide (r = 0)))

/-- MINV of a canonical nonzero source writes its unique inverse and ZR = 0; of 0 it is INV_ZERO and writes nothing
(41_modular.md R159). -/
def Obligations.MinvWritesTheUniqueInverse : Prop :=
  ∀ (m : Modulus) (rd ra : Reg) (s : State), s.pending = none →
    let a := (s.reg ra).toNat
    (a ≠ 0 → a < modulus m →
      ∃! y : Nat, (1 ≤ y ∧ y < modulus m ∧ a * y % modulus m = 1) ∧
        CommitsTo (.minv m rd ra) s (s.afterModular rd (BitVec.ofNat 256 y) false)) ∧
    (a = 0 → CommitsTo (.minv m rd ra) s (s.afterError (encode (.minv m rd ra)) .invZero))

/-- MONT on canonical sources writes the canonical r with r·2^256 = a·b modulo MOD(M), and TOMONT and FROMMONT
multiply by 2^256 and divide by it (41_modular.md R160 to R163). -/
def Obligations.MontgomeryCommandsMultiplyAndConvert : Prop :=
  ∀ (m : Modulus) (rd ra rb : Reg) (s : State), s.pending = none → (s.reg ra).toNat < modulus m →
    let a := (s.reg ra).toNat
    let b := (s.reg rb).toNat
    (b < modulus m →
      ∃ r, r < modulus m ∧ r * 2 ^ 256 % modulus m = a * b % modulus m ∧
        CommitsTo (.mont m rd ra rb) s (s.afterModular rd (BitVec.ofNat 256 r) (decide (r = 0)))) ∧
    (∃ r, r < modulus m ∧ r = a * 2 ^ 256 % modulus m ∧
      CommitsTo (.tomont m rd ra) s (s.afterModular rd (BitVec.ofNat 256 r) (decide (r = 0)))) ∧
    (∃ r, r < modulus m ∧ r * 2 ^ 256 % modulus m = a ∧
      CommitsTo (.frommont m rd ra) s (s.afterModular rd (BitVec.ofNat 256 r) (decide (r = 0))))

/-- The modular commands with a destination. -/
def modularDest : Instr → Option Reg
  | .madd _ rd _ _ | .msub _ rd _ _ | .mmul _ rd _ _ | .mont _ rd _ _ => some rd
  | .mneg _ rd _ | .msqr _ rd _ | .minv _ rd _ | .mred _ rd _ | .tomont _ rd _ | .frommont _ rd _ => some rd
  | .nop | .mov .. | .ldc .. | .cmp .. | .pdbl .. | .padd .. | .pmul .. | .psham .. | .paff .. | .pchk ..
  | .shainit | .shablk | .shafin .. | .verify .. => none

/-- Every modular command that completes without error sets ZR to whether the value it wrote is 0, and writes no
other flag and no other register (41_modular.md R152). -/
def Obligations.ModularCommandsSetZr : Prop :=
  ∀ (i : Instr) (rd : Reg) (s : State) (ws : List Write), modularDest i = some rd →
    s.pending = none → IssuesWith i s (.commit ws) →
    let u := complete { s with pending := some ⟨encode i, .commit ws⟩ }
    u.flags = { s.flags with zr := decide (u.reg rd = 0#256) } ∧
      ∀ r : Reg, r ≠ rd → u.reg r = s.reg r

/-- The modular commands that check their sources, with the modulus and the sources in the order of the check. -/
def checkedSources : Instr → Option (Modulus × List Reg)
  | .madd m _ ra rb | .msub m _ ra rb | .mmul m _ ra rb | .mont m _ ra rb => some (m, [ra, rb])
  | .mneg m _ ra | .msqr m _ ra | .minv m _ ra | .tomont m _ ra | .frommont m _ ra => some (m, [ra])
  | .mred .. | .nop | .mov .. | .ldc .. | .cmp .. | .pdbl .. | .padd .. | .pmul .. | .psham .. | .paff ..
  | .pchk .. | .shainit | .shablk | .shafin .. | .verify .. => none

/-- A checked command with a source that is not canonical raises NONCANON and writes nothing; with canonical sources
it never raises NONCANON; and MRED accepts any value (41_modular.md R151). -/
def Obligations.NonCanonicalSourcesRaiseNoncanon : Prop :=
  ∀ (i : Instr) (m : Modulus) (src : List Reg) (s : State), checkedSources i = some (m, src) →
    s.pending = none →
    ((∃ r ∈ src, modulus m ≤ (s.reg r).toNat) →
      CommitsTo i s (s.afterError (encode i) .noncanon)) ∧
    ((∀ r ∈ src, (s.reg r).toNat < modulus m) → ¬ IssuesWith i s (.error .noncanon)) ∧
    (∀ rd ra, ∃ ws, IssuesWith (.mred m rd ra) s (.commit ws))

/-- The laws a program may use, for canonical x and y and either modulus, on the functions the commands compute
(41_modular.md R164). -/
def Obligations.MontgomeryLaws : Prop :=
  ∀ (m : Modulus) (x y : Nat), x < modulus m → y < modulus m →
    let mont := fun u v => mulMod (modulus m) (u * v) (montInverse m)
    let tomont := fun u => mulMod (modulus m) u Config.montRadix
    let frommont := fun u => mulMod (modulus m) u (montInverse m)
    mont (tomont x) (tomont y) = tomont (mulMod (modulus m) x y) ∧
    frommont (mont (tomont x) (tomont y)) = mulMod (modulus m) x y ∧
    frommont (tomont x) = x ∧
    mont x (2 ^ 512 % modulus m) = tomont x ∧
    subMod (modulus m) x y = addMod (modulus m) x (subMod (modulus m) 0 y) ∧
    (x ≠ 0 → mulMod (modulus m) x (invMod (modulus m) x) = 1)

/-! ## Curve arithmetic -/

/-- PDBL and PADD on canonical points commit the doubled point and the sum of 42_curve.md R183, R184 to the three
registers from rd, with INF telling whether Z is 0 (42_curve.md R180, R185, R186). -/
def Obligations.PdblAndPaddCommitTheirPoint : Prop :=
  ∀ (rd ra rb : Reg) (s : State), s.pending = none → rd.val ≤ 29 → ra.val ≤ 29 →
    (s.point ra).canonical = true →
    (let q := pointDouble (s.point ra)
     q.canonical = true ∧
     CommitsTo (.pdbl rd ra) s
      (s.afterPoint rd (BitVec.ofNat 256 q.x) (BitVec.ofNat 256 q.y) (BitVec.ofNat 256 q.z)
        (decide (q.z = 0)))) ∧
    (rb.val ≤ 29 → (s.point rb).canonical = true →
     let q := pointAdd (s.point ra) (s.point rb)
     q.canonical = true ∧
     CommitsTo (.padd rd ra rb) s
      (s.afterPoint rd (BitVec.ofNat 256 q.x) (BitVec.ofNat 256 q.y) (BitVec.ofNat 256 q.z)
        (decide (q.z = 0))))

/-- PMUL and PSHAM check only their point, take any scalars, and commit the results of the loops of 42_curve.md R187,
R188. -/
def Obligations.PmulAndPshamCommitTheirPoint : Prop :=
  ∀ (rd ra rb rc : Reg) (s : State), s.pending = none → rd.val ≤ 29 → ra.val ≤ 29 →
    (s.point ra).canonical = true →
    (let q := scalarMul (s.point ra) (s.reg rb).toNat
     q.canonical = true ∧
     CommitsTo (.pmul rd ra rb) s
      (s.afterPoint rd (BitVec.ofNat 256 q.x) (BitVec.ofNat 256 q.y) (BitVec.ofNat 256 q.z)
        (decide (q.z = 0)))) ∧
    (let q := shamir (s.reg rb).toNat (s.reg rc).toNat (s.point ra)
     q.canonical = true ∧
     CommitsTo (.psham rd ra rb rc) s
      (s.afterPoint rd (BitVec.ofNat 256 q.x) (BitVec.ofNat 256 q.y) (BitVec.ofNat 256 q.z)
        (decide (q.z = 0))))

/-- PAFF on a canonical point: INF for Z = 0; otherwise the x and y with x·Z² = X and y·Z³ = Y mod p, and Z = 1
(42_curve.md R189). -/
def Obligations.PaffNormalisesThePoint : Prop :=
  ∀ (rd ra : Reg) (s : State), s.pending = none → rd.val ≤ 29 → ra.val ≤ 29 →
    (s.point ra).canonical = true →
    let q := s.point ra
    (q.z = 0 → CommitsTo (.paff rd ra) s (s.afterPoint rd 1#256 1#256 0#256 true)) ∧
    (q.z ≠ 0 → ∃ x y, x < Config.p ∧ y < Config.p ∧
      x * q.z ^ 2 % Config.p = q.x ∧ y * q.z ^ 3 % Config.p = q.y ∧
      CommitsTo (.paff rd ra) s
        (s.afterPoint rd (BitVec.ofNat 256 x) (BitVec.ofNat 256 y) 1#256 false))

/-- PCHK sets PV exactly when both coordinates are below p and y² = x³ + a·x + b mod p; it raises no error of its own
and writes nothing else (42_curve.md R190). -/
def Obligations.PchkTestsRangeAndCurve : Prop :=
  ∀ (ra : Reg) (s : State), s.pending = none → ra.val ≤ 30 →
    let x := (s.reg ra).toNat
    let y := (s.reg (ra + 1)).toNat
    CommitsTo (.pchk ra) s
      { s with
        flags := { s.flags with
          pv := decide (x < Config.p ∧ y < Config.p ∧
            y ^ 2 % Config.p = (x ^ 3 + (Config.p - 3) * x + Config.b) % Config.p) }
        done := true }

/-- The point commands with their point sources, in the order of the check. -/
def pointSources : Instr → Option (List Reg)
  | .pdbl _ ra | .pmul _ ra _ | .psham _ ra _ _ | .paff _ ra => some [ra]
  | .padd _ ra rb => some [ra, rb]
  | .nop | .mov .. | .ldc .. | .cmp .. | .madd .. | .msub .. | .mneg .. | .mmul .. | .msqr .. | .minv ..
  | .mred .. | .mont .. | .tomont .. | .frommont .. | .pchk .. | .shainit | .shablk | .shafin ..
  | .verify .. => none

/-- A point command with a coordinate of a source that is not below p raises NONCANON and writes nothing, whatever
its scalars; with canonical points it commits, on or off the curve; and one with a base over 29 is ILLEGAL_CMD
before any other error (42_curve.md R181, 30_encoding.md R104, 60_exceptions.md R265). -/
def Obligations.PointSourcesAreChecked : Prop :=
  ∀ (i : Instr) (src : List Reg) (s : State), pointSources i = some src → s.pending = none →
    (i.wellFormed = true →
      ((∃ f ∈ src, Config.p ≤ (s.reg f).toNat ∨ Config.p ≤ (s.reg (f + 1)).toNat ∨
          Config.p ≤ (s.reg (f + 2)).toNat) →
        CommitsTo i s (s.afterError (encode i) .noncanon)) ∧
      ((∀ f ∈ src, (s.reg f).toNat < Config.p ∧ (s.reg (f + 1)).toNat < Config.p ∧
          (s.reg (f + 2)).toNat < Config.p) → ∃ ws, IssuesWith i s (.commit ws))) ∧
    (i.wellFormed = false → CommitsTo i s (s.afterError (encode i) .illegalCmd))

/-- The register a point command writes X to. -/
def pointDest : Instr → Option Reg
  | .pdbl rd _ | .pmul rd _ _ | .psham rd _ _ _ | .paff rd _ | .padd rd _ _ => some rd
  | .nop | .mov .. | .ldc .. | .cmp .. | .madd .. | .msub .. | .mneg .. | .mmul .. | .msqr .. | .minv ..
  | .mred .. | .mont .. | .tomont .. | .frommont .. | .pchk .. | .shainit | .shablk | .shafin ..
  | .verify .. => none

/-- Every point a point command writes with Z = 0 is exactly INF = (1, 1, 0), its coordinates are canonical, and INF
tells whether Z is 0 (42_curve.md R180, R182). -/
def Obligations.WrittenInfinityIsCanonical : Prop :=
  ∀ (i : Instr) (rd : Reg) (s : State) (ws : List Write), pointDest i = some rd → s.pending = none →
    IssuesWith i s (.commit ws) →
    let u := complete { s with pending := some ⟨encode i, .commit ws⟩ }
    (u.point rd).canonical = true ∧ u.flags.inf = decide ((u.point rd).z = 0) ∧
      ((u.point rd).z = 0 → u.point rd = ⟨1, 1, 0⟩)

/-- The curve of 00_scope.md R9 over the integers mod p. -/
def curveP256 : WeierstrassCurve.Affine (ZMod Config.p) :=
  { a₁ := 0, a₂ := 0, a₃ := 0, a₄ := -3, a₆ := (Config.b : ZMod Config.p) }

/-- A Jacobian triple stands for a point of the curve: infinity for Z = 0, and otherwise the affine point
(X/Z², Y/Z³) (42_curve.md R180). -/
def Represents [Fact (Nat.Prime Config.p)] (q : JPoint) (pt : curveP256.Point) : Prop :=
  q.canonical = true ∧
    ((q.z = 0 ∧ pt = 0) ∨
      (q.z ≠ 0 ∧ ∃ h, pt = .some ((q.x : ZMod Config.p) / (q.z : ZMod Config.p) ^ 2)
        ((q.y : ZMod Config.p) / (q.z : ZMod Config.p) ^ 3) h))

/-- On points of the curve, the doubling and addition formulas compute the group law, and the loops of PMUL and PSHAM
compute k·P and u1·G + u2·Q (42_curve.md R191). -/
def Obligations.PointFunctionsComputeTheGroupLaw : Prop :=
  ∀ [Fact (Nat.Prime Config.p)] (q1 q2 : JPoint) (p1 p2 g : curveP256.Point) (k u1 u2 : Nat),
    Represents q1 p1 → Represents q2 p2 → Represents generator g →
    k < 2 ^ 256 → u1 < 2 ^ 256 → u2 < 2 ^ 256 →
    Represents (pointDouble q1) (p1 + p1) ∧
    Represents (pointAdd q1 q2) (p1 + p2) ∧
    Represents (scalarMul q1 k) (k • p1) ∧
    Represents (shamir u1 u2 q1) (u1 • g + u2 • p1)

/-! ## SHA-256 -/

/-- SHAINIT opens a message and abandons any open one: the chaining value is the IV, MSGBITS is 0, SHA_OPEN is 1, and
MSGBUF, the flags and the registers stay (43_sha256.md R214). -/
def Obligations.ShainitOpensAMessage : Prop :=
  ∀ s : State, s.pending = none →
    CommitsTo .shainit s { s with sha := ⟨Config.shaIv, 0#64, true⟩, done := true }

/-- SHABLK absorbs the 64 bytes of MSGBUF when a message is open and the length fits; with none open it is
SHA_NOT_OPEN, and one block too many is SHA_LENGTH (43_sha256.md R215). -/
def Obligations.ShablkAbsorbsOneBlock : Prop :=
  ∀ s : State, s.pending = none →
    (s.sha.isOpen = true → s.sha.bits.toNat + 512 ≤ 2 ^ 64 - 1 →
      CommitsTo .shablk s
        { s with
          sha := { s.sha with
            h := compress s.sha.h (Memory.msgbufBytes s.mem 64)
            bits := s.sha.bits + 512#64 }
          done := true }) ∧
    (s.sha.isOpen = true → 2 ^ 64 - 1 < s.sha.bits.toNat + 512 →
      CommitsTo .shablk s (s.afterError (encode .shablk) .shaLength)) ∧
    (s.sha.isOpen = false → CommitsTo .shablk s (s.afterError (encode .shablk) .shaNotOpen))

/-- SHAFIN of an open message absorbs the first `len` bytes of MSGBUF and nothing else of it, writes the digest as a
register value, keeps the length in MSGBITS and closes the message; with none open it is SHA_NOT_OPEN, before
SHA_LENGTH (43_sha256.md R213, R216; 60_exceptions.md R265). -/
def Obligations.ShafinWritesTheDigest : Prop :=
  ∀ (rd : Reg) (len : BitVec 6) (s : State), s.pending = none →
    (s.sha.isOpen = true → s.sha.bits.toNat + 8 * len.toNat ≤ 2 ^ 64 - 1 →
      let bits := s.sha.bits + BitVec.ofNat 64 (8 * len.toNat)
      let h := shaFinal s.sha.h bits ((List.range len.toNat).map (Memory.msgbuf s.mem))
      CommitsTo (.shafin rd len) s
        { s with w := s.w.set rd.val (digestWord h), sha := ⟨h, bits, false⟩, done := true }) ∧
    (s.sha.isOpen = true → 2 ^ 64 - 1 < s.sha.bits.toNat + 8 * len.toNat →
      CommitsTo (.shafin rd len) s (s.afterError (encode (.shafin rd len)) .shaLength)) ∧
    (s.sha.isOpen = false →
      CommitsTo (.shafin rd len) s (s.afterError (encode (.shafin rd len)) .shaNotOpen))

/-- In every state that meets the invariant, the SHA_LENGTH test of SHAFIN never fires (43_sha256.md R216). -/
def Obligations.ShafinLengthTestNeverFires : Prop :=
  ∀ (rd : Reg) (len : BitVec 6) (s : State), Inv s → s.pending = none → s.sha.isOpen = true →
    s.sha.bits.toNat + 8 * len.toNat ≤ 2 ^ 64 - 8 ∧ ¬ IssuesWith (.shafin rd len) s (.error .shaLength)

/-- Hashing block by block gives SHA-256 of the whole message: SHAINIT has absorbed nothing, SHABLK appends the 64
bytes of MSGBUF to what was absorbed, and SHAFIN then writes the digest of what was absorbed followed by its tail
(43_sha256.md R213, R218). -/
def Obligations.ShaCommandsHashTheMessage : Prop :=
  ∀ (s : State) (m : List Byte) (rd : Reg) (len : BitVec 6), s.pending = none →
    (∃ u, CommitsTo .shainit s u ∧ Absorbed u []) ∧
    (Absorbed s m → 8 * (m.length + 64) < 2 ^ 64 →
      ∃ u, CommitsTo .shablk s u ∧ Absorbed u (m ++ Memory.msgbufBytes s.mem 64)) ∧
    (Absorbed s m →
      ∃ u, CommitsTo (.shafin rd len) s u ∧
        u.reg rd = be256 (sha256 (m ++ Memory.msgbufBytes s.mem len.toNat)) ∧
        u.sha.bits = BitVec.ofNat 64 (8 * (m.length + len.toNat)) ∧ u.sha.isOpen = false)

/-- SHA_OPEN is set by SHAINIT, cleared by a successful SHAFIN and by reset and soft reset, and required by SHABLK and
SHAFIN (10_state.md R37). -/
def Obligations.ShaOpenFollowsItsCommands : Prop :=
  (∀ s : State, s.pending = none → ∃ u, CommitsTo .shainit s u ∧ u.sha.isOpen = true) ∧
  (∀ (rd : Reg) (len : BitVec 6) (s : State) (ws : List Write), s.pending = none →
    IssuesWith (.shafin rd len) s (.commit ws) →
    (complete { s with pending := some ⟨encode (.shafin rd len), .commit ws⟩ }).sha.isOpen = false) ∧
  State.reset.sha.isOpen = false ∧
  (∀ s : State, s.inReset = true → s.releaseReset.sha.isOpen = false) ∧
  (∀ (s : State) (d : Word32), d.getLsbD 0 = true → (s.writeCtrl d).sha.isOpen = false) ∧
  (∀ (rd : Reg) (len : BitVec 6) (s : State), s.pending = none → s.sha.isOpen = false →
    IssuesWith .shablk s (.error .shaNotOpen) ∧ IssuesWith (.shafin rd len) s (.error .shaNotOpen))

/-! ## Verification -/

/-- VERIFY writes VRES only, with VALID, INVALID or BADARG as a function of its five operands, and never raises an
error when it is well formed (44_verify.md R241, R251). -/
def Obligations.VerifyIsAPureFunctionOfItsOperands : Prop :=
  ∃ f : Word → Word → Word → Word → Word → VRes,
    (∀ qx qy r sg h, f qx qy r sg h ≠ .none) ∧
    ∀ (ra rb rc : Reg) (s : State), s.pending = none → ra.val ≤ 30 → rb.val ≤ 30 →
      CommitsTo (.verify ra rb rc) s
        { s with
          flags := { s.flags with
            vres := f (s.reg ra) (s.reg (ra + 1)) (s.reg rb) (s.reg (rb + 1)) (s.reg rc) }
          done := true }

/-- The state after a VERIFY with outcome v. -/
def afterVerify (s : State) (v : VRes) : State :=
  { s with flags := { s.flags with vres := v }, done := true }

/-- The result is BADARG if a key coordinate is out of range, the key is off the curve, it is the encoded infinity
(which the curve equation refuses already), or r or s is 0 or at least n; and in no other case
(44_verify.md R241, R242, R243, R244, R245). -/
def Obligations.VerifyBadArgExactlyOnMalformedInput : Prop :=
  ∀ (ra rb rc : Reg) (s : State), s.pending = none → ra.val ≤ 30 → rb.val ≤ 30 →
    let qx := (s.reg ra).toNat
    let qy := (s.reg (ra + 1)).toNat
    let r := (s.reg rb).toNat
    let sg := (s.reg (rb + 1)).toNat
    (CommitsTo (.verify ra rb rc) s (afterVerify s .badArg) ↔
      Config.p ≤ qx ∨ Config.p ≤ qy ∨
      qy ^ 2 % Config.p ≠ (qx ^ 3 + (Config.p - 3) * qx + Config.b) % Config.p ∨
      r = 0 ∨ Config.n ≤ r ∨ sg = 0 ∨ Config.n ≤ sg) ∧
    (qx = 0 → qy = 0 → qy ^ 2 % Config.p ≠ (qx ^ 3 + (Config.p - 3) * qx + Config.b) % Config.p)

/-- On well-formed input, with w the inverse of s, e = h mod n, u1 = e·w and u2 = r·w mod n and R = u1·G + u2·Q as PSHAM
computes it: the result is INVALID if R is infinity, and otherwise VALID exactly if its affine x, reduced mod n, is r
(44_verify.md R246 to R250). -/
def Obligations.VerifyComparesTheAffineX : Prop :=
  ∀ (ra rb rc : Reg) (s : State) (w x : Nat), s.pending = none → ra.val ≤ 30 → rb.val ≤ 30 →
    let qx := (s.reg ra).toNat
    let qy := (s.reg (ra + 1)).toNat
    let r := (s.reg rb).toNat
    let sg := (s.reg (rb + 1)).toNat
    let h := (s.reg rc).toNat
    qx < Config.p → qy < Config.p →
    qy ^ 2 % Config.p = (qx ^ 3 + (Config.p - 3) * qx + Config.b) % Config.p →
    1 ≤ r → r < Config.n → 1 ≤ sg → sg < Config.n →
    1 ≤ w → w < Config.n → sg * w % Config.n = 1 →
    let e := if h < Config.n then h else h - Config.n
    let pt := shamir (e * w % Config.n) (r * w % Config.n) ⟨qx, qy, 1⟩
    (pt.z = 0 → CommitsTo (.verify ra rb rc) s (afterVerify s .invalid)) ∧
    (pt.z ≠ 0 → x < Config.p → x * pt.z ^ 2 % Config.p = pt.x →
      CommitsTo (.verify ra rb rc) s
        (afterVerify s (if x % Config.n = r then .valid else .invalid)))

/-- A correct ECDSA signature is accepted: if the key is d·G, the nonce point k·G has affine x equal to r modulo n, and
s·k = h + r·d modulo n, with r and s in [1, n-1], VERIFY gives VALID, and also with s replaced by n - s
(44_verify.md R252). The curve is Mathlib's, so the claim is about the group and not about the model's own points. -/
def Obligations.VerifyAcceptsCorrectSignatures : Prop :=
  ∀ [Fact (Nat.Prime Config.p)] (ra rb rc : Reg) (s : State) (g : curveP256.Point) (d k : Nat)
    (xr yr : ZMod Config.p) (hk : curveP256.Nonsingular xr yr),
    s.pending = none → ra.val ≤ 30 → rb.val ≤ 30 →
    Represents generator g →
    Represents ⟨(s.reg ra).toNat, (s.reg (ra + 1)).toNat, 1⟩ (d • g) →
    k • g = .some xr yr hk →
    let r := (s.reg rb).toNat
    let sg := (s.reg (rb + 1)).toNat
    let h := (s.reg rc).toNat
    xr.val % Config.n = r → 1 ≤ r → 1 ≤ sg → sg < Config.n →
    (sg * k % Config.n = (h + r * d) % Config.n ∨
      (Config.n - sg) * k % Config.n = (h + r * d) % Config.n) →
    CommitsTo (.verify ra rb rc) s (afterVerify s .valid)

/-- VERIFY with a pair base over 30 is ILLEGAL_CMD and leaves VRES, and PCHK with one is ILLEGAL_CMD and leaves PV
(44_verify.md R241, 30_encoding.md R104). -/
def Obligations.PairOutOfRangeIsIllegal : Prop :=
  ∀ (ra rb rc : Reg) (s : State), s.pending = none →
    ((30 < ra.val ∨ 30 < rb.val) →
      CommitsTo (.verify ra rb rc) s (s.afterError (encode (.verify ra rb rc)) .illegalCmd)) ∧
    (30 < ra.val → CommitsTo (.pchk ra) s (s.afterError (encode (.pchk ra)) .illegalCmd))

/-! ## Errors, events and the interrupt -/

/-- A completion with error sets ERR and DONE and clears BUSY; the cause and the word are recorded if ERR was 0 and kept
if it was 1; nothing else changes (60_exceptions.md R263). -/
def Obligations.FirstErrorIsKept : Prop :=
  ∀ (s : State) (c : Word32) (cause : Cause), s.pending = some ⟨c, .error cause⟩ →
    complete s = s.afterError c cause ∧
    (s.err = false → (complete s).cause = cause ∧ (complete s).errcmd = c) ∧
    (s.err = true → (complete s).cause = s.cause ∧ (complete s).errcmd = s.errcmd) ∧
    (complete s).err = true ∧ (complete s).done = true ∧ (complete s).busy = false

/-- A host write to CMD, to the W window or to MSGBUF while BUSY is dropped: ERR is set, and OVERRUN and the written
data are recorded if ERR was 0; DONE, the pending command and everything else stay. The command then completes with
the results it would have had, and an error of its own is not recorded (60_exceptions.md R264). -/
def Obligations.WritesWhileBusyAreOverruns : Prop :=
  ∀ (s : State) (rest : List Turn) (off : Offset) (d : Word32), s.inReset = false → s.busy = true →
    s.schedule = write32 off d :: rest → off.toNat % 4 = 0 →
    (off = 0x01C#12 ∨ (0x040 ≤ off.toNat ∧ off.toNat < 0x080) ∨
      (0x100 ≤ off.toNat ∧ off.toNat < 0x500)) →
    let u := { s.afterAccess rest .okay with
      err := true
      cause := if s.err then s.cause else .overrun
      errcmd := if s.err then s.errcmd else d }
    step s = .next u ∧
      (complete u).w = (complete s).w ∧ (complete u).flags = (complete s).flags ∧
      (complete u).sha = (complete s).sha ∧ (complete u).done = true ∧ (complete u).busy = false ∧
      (complete u).cause = u.cause ∧ (complete u).errcmd = u.errcmd

/-- A host write to EVENT clears the bits written 1 and leaves the others; clearing ERR clears ERRINFO and ERRCMD in the
same write; nothing else changes, busy or not. When the write falls in the cycle of a completion, the completion comes
first and the bits it sets survive: without an error DONE ends 1 and ERR follows the write; with an error the end state
is that of the completion alone, so an earlier error keeps its cause and its word; and on an idle core it is the write
alone. That the two make one move of the schedule is the model's form (log entry 13)
(10_state.md R40 to R42, 60_exceptions.md R267). -/
def Obligations.EventIsWriteOneToClear : Prop :=
  ∀ (s : State) (rest : List Turn) (d : Word32), s.inReset = false →
    let u := s.afterAccess rest .okay
    let cleared := { u with
      done := s.done && !d.getLsbD 0
      err := s.err && !d.getLsbD 1
      cause := if d.getLsbD 1 then .none else s.cause
      errcmd := if d.getLsbD 1 then 0#32 else s.errcmd }
    (s.schedule = write32 0x010#12 d :: rest → step s = .next cleared) ∧
    (s.schedule = .coreWithClear d :: rest →
      (∀ c ws, s.pending = some ⟨c, .commit ws⟩ →
        step s = .next { complete u with
          done := true, err := cleared.err, cause := cleared.cause, errcmd := cleared.errcmd }) ∧
      (∀ c cause, s.pending = some ⟨c, .error cause⟩ →
        step s = .next (u.afterError c cause) ∧
        (s.err = true →
          step s = .next { u with pending := none, done := true, err := true })) ∧
      (s.pending = none → step s = .next cleared))

/-- irq is the level (IE_DONE and DONE) or (IE_ERR and ERR), off at reset, and falls with the enables or the events
(10_state.md R50, 60_exceptions.md R266). -/
def Obligations.IrqFollowsEnabledEvents : Prop :=
  State.reset.irq = false ∧
  ∀ s : State,
    (s.irq = true ↔ (s.ieDone = true ∧ s.done = true) ∨ (s.ieErr = true ∧ s.err = true)) ∧
    (s.clearEvents 0x3#32).irq = false ∧ (s.writeCtrl 0x0#32).irq = false ∧
    ((complete s).irq = true ↔
      (s.ieDone = true ∧ (s.busy = true ∨ s.done = true)) ∨ (s.ieErr = true ∧ (complete s).err = true))

/-- Errors are precise: a command that raises an error leaves W, the flags, the SHA-256 state, MSGBUF and CTRL exactly
as they were at issue (60_exceptions.md R262, R263; 10_state.md R35). -/
def Obligations.FailedCommandsWriteNothing : Prop :=
  ∀ (i : Instr) (s : State) (cause : Cause), s.pending = none → IssuesWith i s (.error cause) →
    let u := complete { s with pending := some ⟨encode i, .error cause⟩ }
    u.w = s.w ∧ u.flags = s.flags ∧ u.sha = s.sha ∧ u.mem = s.mem ∧ u.ieDone = s.ieDone ∧
      u.ieErr = s.ieErr ∧ u.pending = none ∧ u.done = true ∧ u.err = true ∧
      cause ≠ .none ∧ cause ≠ .overrun

/-! ## Frames over all commands -/

/-- The registers a command may write (10_state.md R33). -/
def destRegs : Instr → List Reg
  | .mov rd _ | .ldc rd _ | .madd _ rd _ _ | .msub _ rd _ _ | .mneg _ rd _ | .mmul _ rd _ _ | .msqr _ rd _
  | .minv _ rd _ | .mred _ rd _ | .mont _ rd _ _ | .tomont _ rd _ | .frommont _ rd _ | .shafin rd _ => [rd]
  | .pdbl rd _ | .padd rd _ _ | .pmul rd _ _ | .psham rd _ _ _ | .paff rd _ => [rd, rd + 1, rd + 2]
  | .cmp .. | .pchk .. | .verify .. | .nop | .shainit | .shablk => []

/-- No command writes a register outside its destinations, MSGBUF, CTRL, the reset input, the moves to come or the
responses, neither at issue nor at completion (10_state.md R33, R46). -/
def Obligations.CommandsWriteOnlyTheirDestinations : Prop :=
  ∀ (i : Instr) (s t : State), s.pending = none → exec i s = .next t →
    let u := complete t
    (∀ r : Reg, t.reg r = s.reg r) ∧ (∀ r : Reg, r ∉ destRegs i → u.reg r = s.reg r) ∧
    (∀ a, Memory.read u.mem a = Memory.read s.mem a) ∧ u.mem = s.mem ∧
    u.ieDone = s.ieDone ∧ u.ieErr = s.ieErr ∧ u.inReset = s.inReset ∧ u.schedule = s.schedule ∧
    u.responses = s.responses

/-- The ten modular commands. -/
def isModular (i : Instr) : Bool := (modularDest i).isSome

/-- The five commands that write a point. -/
def isPoint (i : Instr) : Bool := (pointDest i).isSome

/-- A flag changes only at the completion of a command that writes it: EQ and LT by CMP, ZR by the modular commands, INF
by the point commands, PV by PCHK, VRES by VERIFY; and the SHA-256 state only by the SHA commands
(10_state.md R35, R37, R45, R47). -/
def Obligations.FlagsChangeOnlyByTheirWriters : Prop :=
  ∀ (i : Instr) (s t : State), s.pending = none → exec i s = .next t →
    let u := complete t
    t.flags = s.flags ∧ t.sha = s.sha ∧
    ((∀ ra rb, i ≠ .cmp ra rb) → u.flags.eq = s.flags.eq ∧ u.flags.lt = s.flags.lt) ∧
    (isModular i = false → u.flags.zr = s.flags.zr) ∧
    (isPoint i = false → u.flags.inf = s.flags.inf) ∧
    ((∀ ra, i ≠ .pchk ra) → u.flags.pv = s.flags.pv) ∧
    ((∀ ra rb rc, i ≠ .verify ra rb rc) → u.flags.vres = s.flags.vres) ∧
    (i ≠ .shainit → i ≠ .shablk → (∀ rd len, i ≠ .shafin rd len) → u.sha = s.sha)

/-! ## The window -/

/-- A read has no side effect: it changes nothing of the core and gives one response; while BUSY a read of W or MSGBUF
returns 0 (20_memory.md R81). -/
def Obligations.ReadsHaveNoSideEffect : Prop :=
  ∀ (s : State) (rest : List Turn) (off : Offset) (width : BusWidth), s.inReset = false →
    s.schedule = .host (.read off width) :: rest →
    (∃ r, step s = .next (s.afterAccess rest r)) ∧
    (s.busy = true → width = .w32 → off.toNat % 4 = 0 →
      ((0x040 ≤ off.toNat ∧ off.toNat < 0x080) ∨ (0x100 ≤ off.toNat ∧ off.toNat < 0x500)) →
      step s = .next (s.afterAccess rest (.data 0#32)))

/-- The host reads the control registers at any time: STATUS, EVENT, ERRINFO, ERRCMD, CTRL and MSGBITS bit by bit, ID
and VERSION, and 0 from CMD (10_state.md R34, R38, R40 to R45; 20_memory.md R71, R81). -/
def Obligations.ControlRegistersReadTheirFields : Prop :=
  ∀ (s : State) (rest : List Turn) (off : Offset) (v : Word32), s.inReset = false →
    s.schedule = read32 off :: rest →
    (off = 0x000#12 ∧ v = 0x50323536#32) ∨ (off = 0x004#12 ∧ v = 0x00010000#32) ∨
    (off = 0x008#12 ∧ v = BitVec.ofNat 32 (s.ieDone.toNat * 2 + s.ieErr.toNat * 4)) ∨
    (off = 0x00C#12 ∧ v = BitVec.ofNat 32 (s.busy.toNat + s.sha.isOpen.toNat * 2 + s.flags.eq.toNat * 256 +
      s.flags.lt.toNat * 512 + s.flags.zr.toNat * 1024 + s.flags.inf.toNat * 2048 +
      s.flags.pv.toNat * 4096 + s.flags.vres.bits.toNat * 8192)) ∨
    (off = 0x010#12 ∧ v = BitVec.ofNat 32 (s.done.toNat + s.err.toNat * 2)) ∨
    (off = 0x014#12 ∧ v = BitVec.ofNat 32 (if s.err then s.cause.code.toNat else 0)) ∨
    (off = 0x018#12 ∧ v = s.errcmd) ∨ (off = 0x01C#12 ∧ v = 0#32) ∨
    (off = 0x020#12 ∧ v = BitVec.ofNat 32 (s.sha.bits.toNat % 2 ^ 32)) ∨
    (off = 0x024#12 ∧ v = BitVec.ofNat 32 (s.sha.bits.toNat / 2 ^ 32)) →
    step s = .next (s.afterAccess rest (.data v))

/-- An access of another width, misaligned, or a write with partial strobes gets a bus error and changes nothing of the
core. That a write with no strobe at all counts as partial is the model's reading (log entry 4, DEDUCED)
(20_memory.md R73, R74). -/
def Obligations.WrongWidthOrAlignmentIsABusError : Prop :=
  ∀ (s : State) (rest : List Turn) (off : Offset) (width : BusWidth) (strobes : BitVec 4) (d : Word32),
    s.inReset = false →
    (width ≠ .w32 ∨ off.toNat % 4 ≠ 0 →
      (s.schedule = .host (.read off width) :: rest → step s = .next (s.afterAccess rest .busError)) ∧
      (s.schedule = .host (.write off width strobes d) :: rest →
        step s = .next (s.afterAccess rest .busError))) ∧
    (strobes ≠ 0xF#4 → s.schedule = .host (.write off width strobes d) :: rest →
      step s = .next (s.afterAccess rest .busError))

/-- An access to a reserved offset gets a bus error: no state of the core is written, no EVENT bit set, no cause
recorded; a failed read returns 0 in the model (20_memory.md R75, R76; the value 0 is log entry 3). -/
def Obligations.ReservedOffsetsAreBusErrors : Prop :=
  ∀ (s : State) (rest : List Turn) (off : Offset) (d : Word32), s.inReset = false →
    ((0x028 ≤ off.toNat ∧ off.toNat < 0x040) ∨ (0x080 ≤ off.toNat ∧ off.toNat < 0x100) ∨
      0x500 ≤ off.toNat) →
    (s.schedule = read32 off :: rest → step s = .next (s.afterAccess rest .busError)) ∧
    (s.schedule = write32 off d :: rest → step s = .next (s.afterAccess rest .busError)) ∧
    Response.busError.rdata = 0#32

/-- A write to a read-only register is ignored with an OKAY response, busy or not (20_memory.md R71, R82; 10_state.md
R34, R44, R45). -/
def Obligations.ReadOnlyRegistersIgnoreWrites : Prop :=
  ∀ (s : State) (rest : List Turn) (off : Offset) (d : Word32), s.inReset = false →
    s.schedule = write32 off d :: rest →
    off ∈ [0x000#12, 0x004#12, 0x00C#12, 0x014#12, 0x018#12, 0x020#12, 0x024#12] →
    step s = .next (s.afterAccess rest .okay)

/-- A write of the k-th word of W[i] on an idle core replaces its window bytes 4k to 4k+3, byte m of the bus word from
data bits 8m+7 to 8m, keeps the other 28 bytes and every other register, and changes nothing else
(20_memory.md R77, R78, R80). -/
def Obligations.RegisterWindowIsBigEndian : Prop :=
  ∀ (s : State) (rest : List Turn) (i : Reg) (k : Fin 8) (off : Offset) (d : Word32),
    s.inReset = false → s.busy = false → off.toNat = 0x100 + 32 * i.val + 4 * k.val →
    s.schedule = write32 off d :: rest →
    ∃ v : Word, step s = .next { s.afterAccess rest .okay with w := s.w.set i.val v } ∧
      ∀ j, j < 32 →
        (v.toNat / 2 ^ (248 - 8 * j)) % 256 =
          if 4 * k.val ≤ j ∧ j < 4 * k.val + 4 then (d.toNat / 2 ^ (8 * (j - 4 * k.val))) % 256
          else ((s.reg i).toNat / 2 ^ (248 - 8 * j)) % 256

/-- A read of the k-th word of W[i] on an idle core returns its window bytes 4k to 4k+3, the byte at the lowest offset in
data bits 7:0 (20_memory.md R77, R78). -/
def Obligations.RegisterWindowReads : Prop :=
  ∀ (s : State) (rest : List Turn) (i : Reg) (k : Fin 8) (off : Offset),
    s.inReset = false → s.busy = false → off.toNat = 0x100 + 32 * i.val + 4 * k.val →
    s.schedule = read32 off :: rest →
    ∃ v : Word32, step s = .next (s.afterAccess rest (.data v)) ∧
      ∀ m, m < 4 → (v.toNat / 2 ^ (8 * m)) % 256 =
        ((s.reg i).toNat / 2 ^ (248 - 8 * (4 * k.val + m))) % 256

/-- MSGBUF lies in message order: a write at its word k on an idle core sets MSGBUF[4k] to MSGBUF[4k+3] from the bus
word's bytes 0 to 3, keeps every other byte, and changes nothing else; a read returns them
(20_memory.md R77, R79). The memory is in its canonical form, which is the model's own (log entry 7) and which every
step keeps (EveryStepKeepsInvariant). -/
def Obligations.MsgbufIsInMessageOrder : Prop :=
  ∀ (s : State) (rest : List Turn) (k : Fin 16) (off : Offset) (d : Word32),
    s.inReset = false → s.busy = false → s.mem.wf = true → off.toNat = 0x040 + 4 * k.val →
    (s.schedule = write32 off d :: rest →
      ∃ mem, step s = .next { s.afterAccess rest .okay with mem := mem } ∧
        ∀ a, Memory.read mem a =
          if 0x040 + 4 * k.val ≤ a ∧ a < 0x040 + 4 * k.val + 4 then
            d.extractLsb' (8 * (a - (0x040 + 4 * k.val))) 8
          else Memory.read s.mem a) ∧
    (s.schedule = read32 off :: rest →
      ∃ v : Word32, step s = .next (s.afterAccess rest (.data v)) ∧
        ∀ m, m < 4 → v.extractLsb' (8 * m) 8 = Memory.msgbuf s.mem (4 * k.val + m))
end

