-- ==== Sys2Proof/Laws/Bytes.lean ====
section
/-! SUPPORT. What the byte views of registers and bus words give back (20_memory.md R77, R78). -/

namespace Sys2Proof.Machine

/-- A register byte just replaced reads back, and the others stay (20_memory.md R80). -/
theorem wordByte_setWordByte (v : Word) (j k : Nat) (b : Byte) (hj : j < 32) (hk : k < 32) :
    wordByte (setWordByte v j b) k = if k = j then b else wordByte v k := by
  split
  · rename_i h
    subst h
    apply BitVec.eq_of_getLsbD_eq
    intro i hi
    simp only [wordByte, setWordByte, BitVec.getLsbD_extractLsb', BitVec.getLsbD_or, BitVec.getLsbD_and,
      BitVec.getLsbD_not, BitVec.getLsbD_shiftLeft, BitVec.getLsbD_setWidth]
    have h1 : 248 - 8 * k + i < 256 := by omega
    have h2 : ¬ 248 - 8 * k + i < 248 - 8 * k := by omega
    have h3 : 248 - 8 * k + i - (248 - 8 * k) = i := by omega
    simp only [hi, h1, h2, h3]
    have h4 : (0xFF#256).getLsbD i = true := by
      have : ∀ i : Fin 8, (0xFF#256).getLsbD i.val = true := by decide
      exact this ⟨i, hi⟩
    have h5 : i < 256 := by omega
    simp [h4, h5]
  · rename_i h
    apply BitVec.eq_of_getLsbD_eq
    intro i hi
    simp only [wordByte, setWordByte, BitVec.getLsbD_extractLsb', BitVec.getLsbD_or, BitVec.getLsbD_and,
      BitVec.getLsbD_not, BitVec.getLsbD_shiftLeft, BitVec.getLsbD_setWidth]
    have h1 : 248 - 8 * k + i < 256 := by omega
    by_cases h2 : 248 - 8 * k + i < 248 - 8 * j
    · simp [hi, h1, h2]
    · have h3 : 8 ≤ 248 - 8 * k + i - (248 - 8 * j) := by omega
      have h4 : b.getLsbD (248 - 8 * k + i - (248 - 8 * j)) = false := BitVec.getLsbD_of_ge _ _ h3
      have h5 : (0xFF#256).getLsbD (248 - 8 * k + i - (248 - 8 * j)) = false := by
        have hn : (0xFF#256) = (0xFF#8).setWidth 256 := rfl
        rw [hn, BitVec.getLsbD_setWidth, BitVec.getLsbD_of_ge _ _ h3, Bool.and_false]
      simp [hi, h1, h2, h4, h5]

/-- A bus word's bytes are the ones it is made of (20_memory.md R77). -/
theorem busByte_busWord (b0 b1 b2 b3 : Byte) :
    busByte (busWord b0 b1 b2 b3) 0 = b0 ∧ busByte (busWord b0 b1 b2 b3) 1 = b1 ∧
      busByte (busWord b0 b1 b2 b3) 2 = b2 ∧ busByte (busWord b0 b1 b2 b3) 3 = b3 := by
  have key : ∀ k, busByte (busWord b0 b1 b2 b3) k =
      ((b3 ++ b2 ++ b1 ++ b0 : BitVec (8 + 8 + 8 + 8)).extractLsb' (8 * k) 8) := fun _ => rfl
  refine ⟨?_, ?_, ?_, ?_⟩ <;>
  · rw [key]
    apply BitVec.eq_of_getLsbD_eq
    intro i hi
    simp only [BitVec.getLsbD_extractLsb', BitVec.getLsbD_append, hi, decide_true, Bool.true_and]
    repeat' split
    all_goals first | omega | (congr 1; omega)

/-- A register byte as a number (20_memory.md R78). -/
theorem wordByte_toNat (v : Word) (j : Nat) : (wordByte v j).toNat = v.toNat / 2 ^ (248 - 8 * j) % 256 := by
  rw [wordByte, BitVec.extractLsb'_toNat, Nat.shiftRight_eq_div_pow]

/-- A bus byte as a number (20_memory.md R77). -/
theorem busByte_toNat (v : Word32) (k : Nat) : (busByte v k).toNat = v.toNat / 2 ^ (8 * k) % 256 := by
  rw [busByte, BitVec.extractLsb'_toNat, Nat.shiftRight_eq_div_pow]

end Sys2Proof.Machine
end

