-- ==== Sys2Proof/Laws/Memory.lean ====
section
/-! SUPPORT. The laws of the byte memory: a read after a write, and the canonical form that every write keeps. -/

namespace Sys2Proof.Machine

/-- A list whose offsets start above `lo` starts above anything lower. -/
theorem Memory.risesFrom_mono (m : Memory) (lo lo' : Nat) (h : Memory.risesFrom m lo = true) (hle : lo' ≤ lo) :
    Memory.risesFrom m lo' = true := by
  cases m with
  | nil => rfl
  | cons cell m =>
    simp only [Memory.risesFrom, Bool.and_eq_true, decide_eq_true_eq] at h ⊢
    exact ⟨⟨by omega, h.1.2⟩, h.2⟩

/-- A byte below every listed offset reads as unlisted. -/
theorem Memory.read_below (m : Memory) (lo a : Nat) (h : Memory.risesFrom m lo = true) (ha : a < lo) :
    Memory.read m a = unlistedByte := by
  induction m generalizing lo with
  | nil => rfl
  | cons cell m ih =>
    simp only [Memory.risesFrom, Bool.and_eq_true, decide_eq_true_eq] at h
    rw [Memory.read, if_neg (by omega)]
    exact ih (cell.1 + 1) h.2 (by omega)

/-- A write of an offset at or above `lo` keeps the canonical form. -/
theorem Memory.risesFrom_write (m : Memory) (lo a : Nat) (v : Byte) (h : Memory.risesFrom m lo = true)
    (ha : lo ≤ a) : Memory.risesFrom (Memory.write m a v) lo = true := by
  induction m generalizing lo with
  | nil =>
    rw [Memory.write]
    split
    · rfl
    · simp_all [Memory.risesFrom]
  | cons cell m ih =>
    have hc := h
    simp only [Memory.risesFrom, Bool.and_eq_true, decide_eq_true_eq] at hc
    rw [Memory.write]
    split
    · split
      · exact h
      · rename_i h1 h2
        simp only [Memory.risesFrom, Bool.and_eq_true, decide_eq_true_eq]
        exact ⟨⟨ha, h2⟩, ⟨by omega, hc.1.2⟩, hc.2⟩
    · split
      · split
        · exact Memory.risesFrom_mono m _ _ hc.2 (by omega)
        · rename_i h1 h2 h3
          simp only [Memory.risesFrom, Bool.and_eq_true, decide_eq_true_eq]
          exact ⟨⟨ha, h3⟩, by rw [h2]; exact hc.2⟩
      · simp only [Memory.risesFrom, Bool.and_eq_true, decide_eq_true_eq]
        exact ⟨hc.1, ih _ hc.2 (by omega)⟩

/-- Every write keeps the canonical form. -/
theorem Memory.write_wf (m : Memory) (a : Nat) (v : Byte) (h : m.wf = true) : (Memory.write m a v).wf = true :=
  Memory.risesFrom_write m 0 a v h (Nat.zero_le a)

/-- A write in MSGBUF keeps the list within MSGBUF's offsets. -/
theorem Memory.write_onlyMsgbuf (m : Memory) (a : Nat) (v : Byte) (h : m.onlyMsgbuf = true)
    (ha : msgbufBase ≤ a ∧ a < msgbufBase + msgbufSize) : (Memory.write m a v).onlyMsgbuf = true := by
  have hv : (decide (msgbufBase ≤ a) && decide (a < msgbufBase + msgbufSize)) = true := by simpa using ha
  induction m with
  | nil =>
    rw [Memory.write]
    split
    · rfl
    · simpa [Memory.onlyMsgbuf] using ha
  | cons cell m ih =>
    rw [Memory.onlyMsgbuf, List.all_cons, Bool.and_eq_true] at h
    rw [Memory.write]
    split
    · split
      · exact Bool.and_eq_true_iff.2 h
      · exact Bool.and_eq_true_iff.2 ⟨hv, Bool.and_eq_true_iff.2 h⟩
    · split
      · split
        · exact h.2
        · exact Bool.and_eq_true_iff.2 ⟨hv, h.2⟩
      · exact Bool.and_eq_true_iff.2 ⟨h.1, ih h.2⟩

/-- A read after a write gives the written byte at its offset and the old byte at every other. -/
theorem Memory.read_risesFrom_write (m : Memory) (lo a b : Nat) (v : Byte) (h : Memory.risesFrom m lo = true) :
    Memory.read (Memory.write m a v) b = if b = a then v else Memory.read m b := by
  induction m generalizing lo with
  | nil =>
    rw [Memory.write]
    split <;> simp_all [Memory.read]
  | cons cell m ih =>
    simp only [Memory.risesFrom, Bool.and_eq_true, decide_eq_true_eq] at h
    rw [Memory.write]
    split
    · split
      · rename_i h1 h2
        split
        · rename_i h3
          rw [h3, h2, Memory.read, if_neg (by omega)]
          exact Memory.read_below m (cell.1 + 1) a h.2 (by omega)
        · rfl
      · simp only [Memory.read]
    · split
      · rename_i h1 h2
        split
        · rename_i h3
          split
          · rename_i h4
            rw [h4, h3]
            exact Memory.read_below m (cell.1 + 1) a h.2 (by omega)
          · rw [Memory.read, if_neg (by omega)]
        · simp only [Memory.read, h2]
          split <;> rfl
      · rename_i h1 h2
        simp only [Memory.read]
        split
        · rw [if_neg (by omega)]
        · exact ih _ h.2

/-- A read after a write, in a memory in canonical form. -/
theorem Memory.read_write (m : Memory) (a b : Nat) (v : Byte) (h : m.wf = true) :
    Memory.read (Memory.write m a v) b = if b = a then v else Memory.read m b :=
  Memory.read_risesFrom_write m 0 a b v h

end Sys2Proof.Machine
end

