-- ==== Sys2Proof/Laws/State.lean ====
section
/-! SUPPORT. One small lemma per field per update of State, so that no proof unfolds a record update. -/

namespace Sys2Proof.Machine

@[simp] theorem State.setReg_w (s : State) (r : Reg) (v : Word) : (s.setReg r v).w = s.w.set r.val v := rfl

@[simp] theorem State.setReg_mem (s : State) (r : Reg) (v : Word) : (s.setReg r v).mem = s.mem := rfl

@[simp] theorem State.setReg_sha (s : State) (r : Reg) (v : Word) : (s.setReg r v).sha = s.sha := rfl

@[simp] theorem State.setReg_flags (s : State) (r : Reg) (v : Word) : (s.setReg r v).flags = s.flags := rfl

@[simp] theorem State.setReg_done (s : State) (r : Reg) (v : Word) : (s.setReg r v).done = s.done := rfl

@[simp] theorem State.setReg_err (s : State) (r : Reg) (v : Word) : (s.setReg r v).err = s.err := rfl

@[simp] theorem State.setReg_cause (s : State) (r : Reg) (v : Word) : (s.setReg r v).cause = s.cause := rfl

@[simp] theorem State.setReg_errcmd (s : State) (r : Reg) (v : Word) : (s.setReg r v).errcmd = s.errcmd := rfl

@[simp] theorem State.setReg_ieDone (s : State) (r : Reg) (v : Word) : (s.setReg r v).ieDone = s.ieDone := rfl

@[simp] theorem State.setReg_ieErr (s : State) (r : Reg) (v : Word) : (s.setReg r v).ieErr = s.ieErr := rfl

@[simp] theorem State.setReg_pending (s : State) (r : Reg) (v : Word) : (s.setReg r v).pending = s.pending := rfl

@[simp] theorem State.setReg_inReset (s : State) (r : Reg) (v : Word) : (s.setReg r v).inReset = s.inReset := rfl

@[simp] theorem State.setReg_schedule (s : State) (r : Reg) (v : Word) : (s.setReg r v).schedule = s.schedule := rfl

@[simp] theorem State.setReg_responses (s : State) (r : Reg) (v : Word) : (s.setReg r v).responses = s.responses := rfl

@[simp] theorem State.setMsgbuf_w (s : State) (j : Nat) (b : Byte) : (s.setMsgbuf j b).w = s.w := rfl

@[simp] theorem State.setMsgbuf_mem (s : State) (j : Nat) (b : Byte) : (s.setMsgbuf j b).mem = Memory.write s.mem (msgbufBase + j) b := rfl

@[simp] theorem State.setMsgbuf_sha (s : State) (j : Nat) (b : Byte) : (s.setMsgbuf j b).sha = s.sha := rfl

@[simp] theorem State.setMsgbuf_flags (s : State) (j : Nat) (b : Byte) : (s.setMsgbuf j b).flags = s.flags := rfl

@[simp] theorem State.setMsgbuf_done (s : State) (j : Nat) (b : Byte) : (s.setMsgbuf j b).done = s.done := rfl

@[simp] theorem State.setMsgbuf_err (s : State) (j : Nat) (b : Byte) : (s.setMsgbuf j b).err = s.err := rfl

@[simp] theorem State.setMsgbuf_cause (s : State) (j : Nat) (b : Byte) : (s.setMsgbuf j b).cause = s.cause := rfl

@[simp] theorem State.setMsgbuf_errcmd (s : State) (j : Nat) (b : Byte) : (s.setMsgbuf j b).errcmd = s.errcmd := rfl

@[simp] theorem State.setMsgbuf_ieDone (s : State) (j : Nat) (b : Byte) : (s.setMsgbuf j b).ieDone = s.ieDone := rfl

@[simp] theorem State.setMsgbuf_ieErr (s : State) (j : Nat) (b : Byte) : (s.setMsgbuf j b).ieErr = s.ieErr := rfl

@[simp] theorem State.setMsgbuf_pending (s : State) (j : Nat) (b : Byte) : (s.setMsgbuf j b).pending = s.pending := rfl

@[simp] theorem State.setMsgbuf_inReset (s : State) (j : Nat) (b : Byte) : (s.setMsgbuf j b).inReset = s.inReset := rfl

@[simp] theorem State.setMsgbuf_schedule (s : State) (j : Nat) (b : Byte) : (s.setMsgbuf j b).schedule = s.schedule := rfl

@[simp] theorem State.setMsgbuf_responses (s : State) (j : Nat) (b : Byte) : (s.setMsgbuf j b).responses = s.responses := rfl

@[simp] theorem State.setMsgbufWord_w (s : State) (k : Nat) (d : Word32) : (s.setMsgbufWord k d).w = s.w := rfl

@[simp] theorem State.setMsgbufWord_sha (s : State) (k : Nat) (d : Word32) : (s.setMsgbufWord k d).sha = s.sha := rfl

@[simp] theorem State.setMsgbufWord_flags (s : State) (k : Nat) (d : Word32) : (s.setMsgbufWord k d).flags = s.flags := rfl

@[simp] theorem State.setMsgbufWord_done (s : State) (k : Nat) (d : Word32) : (s.setMsgbufWord k d).done = s.done := rfl

@[simp] theorem State.setMsgbufWord_err (s : State) (k : Nat) (d : Word32) : (s.setMsgbufWord k d).err = s.err := rfl

@[simp] theorem State.setMsgbufWord_cause (s : State) (k : Nat) (d : Word32) : (s.setMsgbufWord k d).cause = s.cause := rfl

@[simp] theorem State.setMsgbufWord_errcmd (s : State) (k : Nat) (d : Word32) : (s.setMsgbufWord k d).errcmd = s.errcmd := rfl

@[simp] theorem State.setMsgbufWord_ieDone (s : State) (k : Nat) (d : Word32) : (s.setMsgbufWord k d).ieDone = s.ieDone := rfl

@[simp] theorem State.setMsgbufWord_ieErr (s : State) (k : Nat) (d : Word32) : (s.setMsgbufWord k d).ieErr = s.ieErr := rfl

@[simp] theorem State.setMsgbufWord_pending (s : State) (k : Nat) (d : Word32) : (s.setMsgbufWord k d).pending = s.pending := rfl

@[simp] theorem State.setMsgbufWord_inReset (s : State) (k : Nat) (d : Word32) : (s.setMsgbufWord k d).inReset = s.inReset := rfl

@[simp] theorem State.setMsgbufWord_schedule (s : State) (k : Nat) (d : Word32) : (s.setMsgbufWord k d).schedule = s.schedule := rfl

@[simp] theorem State.setMsgbufWord_responses (s : State) (k : Nat) (d : Word32) : (s.setMsgbufWord k d).responses = s.responses := rfl

@[simp] theorem State.setRegLane_w (s : State) (i : Reg) (k : Nat) (d : Word32) : (s.setRegLane i k d).w = s.w.set i.val (writeWordLane (s.reg i) k d) := rfl

@[simp] theorem State.setRegLane_mem (s : State) (i : Reg) (k : Nat) (d : Word32) : (s.setRegLane i k d).mem = s.mem := rfl

@[simp] theorem State.setRegLane_sha (s : State) (i : Reg) (k : Nat) (d : Word32) : (s.setRegLane i k d).sha = s.sha := rfl

@[simp] theorem State.setRegLane_flags (s : State) (i : Reg) (k : Nat) (d : Word32) : (s.setRegLane i k d).flags = s.flags := rfl

@[simp] theorem State.setRegLane_done (s : State) (i : Reg) (k : Nat) (d : Word32) : (s.setRegLane i k d).done = s.done := rfl

@[simp] theorem State.setRegLane_err (s : State) (i : Reg) (k : Nat) (d : Word32) : (s.setRegLane i k d).err = s.err := rfl

@[simp] theorem State.setRegLane_cause (s : State) (i : Reg) (k : Nat) (d : Word32) : (s.setRegLane i k d).cause = s.cause := rfl

@[simp] theorem State.setRegLane_errcmd (s : State) (i : Reg) (k : Nat) (d : Word32) : (s.setRegLane i k d).errcmd = s.errcmd := rfl

@[simp] theorem State.setRegLane_ieDone (s : State) (i : Reg) (k : Nat) (d : Word32) : (s.setRegLane i k d).ieDone = s.ieDone := rfl

@[simp] theorem State.setRegLane_ieErr (s : State) (i : Reg) (k : Nat) (d : Word32) : (s.setRegLane i k d).ieErr = s.ieErr := rfl

@[simp] theorem State.setRegLane_pending (s : State) (i : Reg) (k : Nat) (d : Word32) : (s.setRegLane i k d).pending = s.pending := rfl

@[simp] theorem State.setRegLane_inReset (s : State) (i : Reg) (k : Nat) (d : Word32) : (s.setRegLane i k d).inReset = s.inReset := rfl

@[simp] theorem State.setRegLane_schedule (s : State) (i : Reg) (k : Nat) (d : Word32) : (s.setRegLane i k d).schedule = s.schedule := rfl

@[simp] theorem State.setRegLane_responses (s : State) (i : Reg) (k : Nat) (d : Word32) : (s.setRegLane i k d).responses = s.responses := rfl

@[simp] theorem State.respond_w (s : State) (r : Response) : (s.respond r).w = s.w := rfl

@[simp] theorem State.respond_mem (s : State) (r : Response) : (s.respond r).mem = s.mem := rfl

@[simp] theorem State.respond_sha (s : State) (r : Response) : (s.respond r).sha = s.sha := rfl

@[simp] theorem State.respond_flags (s : State) (r : Response) : (s.respond r).flags = s.flags := rfl

@[simp] theorem State.respond_done (s : State) (r : Response) : (s.respond r).done = s.done := rfl

@[simp] theorem State.respond_err (s : State) (r : Response) : (s.respond r).err = s.err := rfl

@[simp] theorem State.respond_cause (s : State) (r : Response) : (s.respond r).cause = s.cause := rfl

@[simp] theorem State.respond_errcmd (s : State) (r : Response) : (s.respond r).errcmd = s.errcmd := rfl

@[simp] theorem State.respond_ieDone (s : State) (r : Response) : (s.respond r).ieDone = s.ieDone := rfl

@[simp] theorem State.respond_ieErr (s : State) (r : Response) : (s.respond r).ieErr = s.ieErr := rfl

@[simp] theorem State.respond_pending (s : State) (r : Response) : (s.respond r).pending = s.pending := rfl

@[simp] theorem State.respond_inReset (s : State) (r : Response) : (s.respond r).inReset = s.inReset := rfl

@[simp] theorem State.respond_schedule (s : State) (r : Response) : (s.respond r).schedule = s.schedule := rfl

@[simp] theorem State.respond_responses (s : State) (r : Response) : (s.respond r).responses = r :: s.responses := rfl

@[simp] theorem State.latch_w (s : State) (c : Word32) (r : Result) : (s.latch c r).w = s.w := rfl

@[simp] theorem State.latch_mem (s : State) (c : Word32) (r : Result) : (s.latch c r).mem = s.mem := rfl

@[simp] theorem State.latch_sha (s : State) (c : Word32) (r : Result) : (s.latch c r).sha = s.sha := rfl

@[simp] theorem State.latch_flags (s : State) (c : Word32) (r : Result) : (s.latch c r).flags = s.flags := rfl

@[simp] theorem State.latch_done (s : State) (c : Word32) (r : Result) : (s.latch c r).done = s.done := rfl

@[simp] theorem State.latch_err (s : State) (c : Word32) (r : Result) : (s.latch c r).err = s.err := rfl

@[simp] theorem State.latch_cause (s : State) (c : Word32) (r : Result) : (s.latch c r).cause = s.cause := rfl

@[simp] theorem State.latch_errcmd (s : State) (c : Word32) (r : Result) : (s.latch c r).errcmd = s.errcmd := rfl

@[simp] theorem State.latch_ieDone (s : State) (c : Word32) (r : Result) : (s.latch c r).ieDone = s.ieDone := rfl

@[simp] theorem State.latch_ieErr (s : State) (c : Word32) (r : Result) : (s.latch c r).ieErr = s.ieErr := rfl

@[simp] theorem State.latch_pending (s : State) (c : Word32) (r : Result) : (s.latch c r).pending = some ⟨c, r⟩ := rfl

@[simp] theorem State.latch_inReset (s : State) (c : Word32) (r : Result) : (s.latch c r).inReset = s.inReset := rfl

@[simp] theorem State.latch_schedule (s : State) (c : Word32) (r : Result) : (s.latch c r).schedule = s.schedule := rfl

@[simp] theorem State.latch_responses (s : State) (c : Word32) (r : Result) : (s.latch c r).responses = s.responses := rfl

@[simp] theorem State.afterAccess_w (s : State) (rest : List Turn) (r : Response) : (s.afterAccess rest r).w = s.w := rfl

@[simp] theorem State.afterAccess_mem (s : State) (rest : List Turn) (r : Response) : (s.afterAccess rest r).mem = s.mem := rfl

@[simp] theorem State.afterAccess_sha (s : State) (rest : List Turn) (r : Response) : (s.afterAccess rest r).sha = s.sha := rfl

@[simp] theorem State.afterAccess_flags (s : State) (rest : List Turn) (r : Response) : (s.afterAccess rest r).flags = s.flags := rfl

@[simp] theorem State.afterAccess_done (s : State) (rest : List Turn) (r : Response) : (s.afterAccess rest r).done = s.done := rfl

@[simp] theorem State.afterAccess_err (s : State) (rest : List Turn) (r : Response) : (s.afterAccess rest r).err = s.err := rfl

@[simp] theorem State.afterAccess_cause (s : State) (rest : List Turn) (r : Response) : (s.afterAccess rest r).cause = s.cause := rfl

@[simp] theorem State.afterAccess_errcmd (s : State) (rest : List Turn) (r : Response) : (s.afterAccess rest r).errcmd = s.errcmd := rfl

@[simp] theorem State.afterAccess_ieDone (s : State) (rest : List Turn) (r : Response) : (s.afterAccess rest r).ieDone = s.ieDone := rfl

@[simp] theorem State.afterAccess_ieErr (s : State) (rest : List Turn) (r : Response) : (s.afterAccess rest r).ieErr = s.ieErr := rfl

@[simp] theorem State.afterAccess_pending (s : State) (rest : List Turn) (r : Response) : (s.afterAccess rest r).pending = s.pending := rfl

@[simp] theorem State.afterAccess_inReset (s : State) (rest : List Turn) (r : Response) : (s.afterAccess rest r).inReset = s.inReset := rfl

@[simp] theorem State.afterAccess_schedule (s : State) (rest : List Turn) (r : Response) : (s.afterAccess rest r).schedule = rest := rfl

@[simp] theorem State.afterAccess_responses (s : State) (rest : List Turn) (r : Response) : (s.afterAccess rest r).responses = r :: s.responses := rfl

@[simp] theorem State.recordError_w (s : State) (cause : Cause) (c : Word32) : (s.recordError cause c).w = s.w := by
  unfold State.recordError; split <;> rfl

@[simp] theorem State.recordError_mem (s : State) (cause : Cause) (c : Word32) : (s.recordError cause c).mem = s.mem := by
  unfold State.recordError; split <;> rfl

@[simp] theorem State.recordError_sha (s : State) (cause : Cause) (c : Word32) : (s.recordError cause c).sha = s.sha := by
  unfold State.recordError; split <;> rfl

@[simp] theorem State.recordError_flags (s : State) (cause : Cause) (c : Word32) : (s.recordError cause c).flags = s.flags := by
  unfold State.recordError; split <;> rfl

@[simp] theorem State.recordError_done (s : State) (cause : Cause) (c : Word32) : (s.recordError cause c).done = s.done := by
  unfold State.recordError; split <;> rfl

@[simp] theorem State.recordError_ieDone (s : State) (cause : Cause) (c : Word32) : (s.recordError cause c).ieDone = s.ieDone := by
  unfold State.recordError; split <;> rfl

@[simp] theorem State.recordError_ieErr (s : State) (cause : Cause) (c : Word32) : (s.recordError cause c).ieErr = s.ieErr := by
  unfold State.recordError; split <;> rfl

@[simp] theorem State.recordError_pending (s : State) (cause : Cause) (c : Word32) : (s.recordError cause c).pending = s.pending := by
  unfold State.recordError; split <;> rfl

@[simp] theorem State.recordError_inReset (s : State) (cause : Cause) (c : Word32) : (s.recordError cause c).inReset = s.inReset := by
  unfold State.recordError; split <;> rfl

@[simp] theorem State.recordError_schedule (s : State) (cause : Cause) (c : Word32) : (s.recordError cause c).schedule = s.schedule := by
  unfold State.recordError; split <;> rfl

@[simp] theorem State.recordError_responses (s : State) (cause : Cause) (c : Word32) : (s.recordError cause c).responses = s.responses := by
  unfold State.recordError; split <;> rfl

@[simp] theorem overrun_w (s : State) (d : Word32) : (overrun d s).w = s.w := by
  unfold overrun State.recordError; split <;> rfl

@[simp] theorem overrun_mem (s : State) (d : Word32) : (overrun d s).mem = s.mem := by
  unfold overrun State.recordError; split <;> rfl

@[simp] theorem overrun_sha (s : State) (d : Word32) : (overrun d s).sha = s.sha := by
  unfold overrun State.recordError; split <;> rfl

@[simp] theorem overrun_flags (s : State) (d : Word32) : (overrun d s).flags = s.flags := by
  unfold overrun State.recordError; split <;> rfl

@[simp] theorem overrun_done (s : State) (d : Word32) : (overrun d s).done = s.done := by
  unfold overrun State.recordError; split <;> rfl

@[simp] theorem overrun_ieDone (s : State) (d : Word32) : (overrun d s).ieDone = s.ieDone := by
  unfold overrun State.recordError; split <;> rfl

@[simp] theorem overrun_ieErr (s : State) (d : Word32) : (overrun d s).ieErr = s.ieErr := by
  unfold overrun State.recordError; split <;> rfl

@[simp] theorem overrun_pending (s : State) (d : Word32) : (overrun d s).pending = s.pending := by
  unfold overrun State.recordError; split <;> rfl

@[simp] theorem overrun_inReset (s : State) (d : Word32) : (overrun d s).inReset = s.inReset := by
  unfold overrun State.recordError; split <;> rfl

@[simp] theorem overrun_schedule (s : State) (d : Word32) : (overrun d s).schedule = s.schedule := by
  unfold overrun State.recordError; split <;> rfl

@[simp] theorem overrun_responses (s : State) (d : Word32) : (overrun d s).responses = s.responses := by
  unfold overrun State.recordError; split <;> rfl

@[simp] theorem State.clearEvents_w (s : State) (d : Word32) : (s.clearEvents d).w = s.w := by
  simp only [State.clearEvents]; split <;> split <;> rfl

@[simp] theorem State.clearEvents_mem (s : State) (d : Word32) : (s.clearEvents d).mem = s.mem := by
  simp only [State.clearEvents]; split <;> split <;> rfl

@[simp] theorem State.clearEvents_sha (s : State) (d : Word32) : (s.clearEvents d).sha = s.sha := by
  simp only [State.clearEvents]; split <;> split <;> rfl

@[simp] theorem State.clearEvents_flags (s : State) (d : Word32) : (s.clearEvents d).flags = s.flags := by
  simp only [State.clearEvents]; split <;> split <;> rfl

@[simp] theorem State.clearEvents_ieDone (s : State) (d : Word32) : (s.clearEvents d).ieDone = s.ieDone := by
  simp only [State.clearEvents]; split <;> split <;> rfl

@[simp] theorem State.clearEvents_ieErr (s : State) (d : Word32) : (s.clearEvents d).ieErr = s.ieErr := by
  simp only [State.clearEvents]; split <;> split <;> rfl

@[simp] theorem State.clearEvents_pending (s : State) (d : Word32) : (s.clearEvents d).pending = s.pending := by
  simp only [State.clearEvents]; split <;> split <;> rfl

@[simp] theorem State.clearEvents_inReset (s : State) (d : Word32) : (s.clearEvents d).inReset = s.inReset := by
  simp only [State.clearEvents]; split <;> split <;> rfl

@[simp] theorem State.clearEvents_schedule (s : State) (d : Word32) : (s.clearEvents d).schedule = s.schedule := by
  simp only [State.clearEvents]; split <;> split <;> rfl

@[simp] theorem State.clearEvents_responses (s : State) (d : Word32) : (s.clearEvents d).responses = s.responses := by
  simp only [State.clearEvents]; split <;> split <;> rfl

@[simp] theorem completeWithError_w (s : State) (c : Word32) (cause : Cause) : (completeWithError c cause s).w = s.w := by
  unfold completeWithError State.recordError; split <;> rfl

@[simp] theorem completeWithError_mem (s : State) (c : Word32) (cause : Cause) : (completeWithError c cause s).mem = s.mem := by
  unfold completeWithError State.recordError; split <;> rfl

@[simp] theorem completeWithError_sha (s : State) (c : Word32) (cause : Cause) : (completeWithError c cause s).sha = s.sha := by
  unfold completeWithError State.recordError; split <;> rfl

@[simp] theorem completeWithError_flags (s : State) (c : Word32) (cause : Cause) : (completeWithError c cause s).flags = s.flags := by
  unfold completeWithError State.recordError; split <;> rfl

@[simp] theorem completeWithError_ieDone (s : State) (c : Word32) (cause : Cause) : (completeWithError c cause s).ieDone = s.ieDone := by
  unfold completeWithError State.recordError; split <;> rfl

@[simp] theorem completeWithError_ieErr (s : State) (c : Word32) (cause : Cause) : (completeWithError c cause s).ieErr = s.ieErr := by
  unfold completeWithError State.recordError; split <;> rfl

@[simp] theorem completeWithError_inReset (s : State) (c : Word32) (cause : Cause) : (completeWithError c cause s).inReset = s.inReset := by
  unfold completeWithError State.recordError; split <;> rfl

@[simp] theorem completeWithError_schedule (s : State) (c : Word32) (cause : Cause) : (completeWithError c cause s).schedule = s.schedule := by
  unfold completeWithError State.recordError; split <;> rfl

@[simp] theorem completeWithError_responses (s : State) (c : Word32) (cause : Cause) : (completeWithError c cause s).responses = s.responses := by
  unfold completeWithError State.recordError; split <;> rfl

@[simp] theorem State.recordError_err (s : State) (cause : Cause) (c : Word32) :
    (s.recordError cause c).err = true := by
  unfold State.recordError; split <;> simp_all

@[simp] theorem State.recordError_cause (s : State) (cause : Cause) (c : Word32) :
    (s.recordError cause c).cause = if s.err then s.cause else cause := by
  unfold State.recordError; split <;> rfl

@[simp] theorem State.recordError_errcmd (s : State) (cause : Cause) (c : Word32) :
    (s.recordError cause c).errcmd = if s.err then s.errcmd else c := by
  unfold State.recordError; split <;> rfl

@[simp] theorem State.clearEvents_done (s : State) (d : Word32) :
    (s.clearEvents d).done = (s.done && !d.getLsbD 0) := by
  simp only [State.clearEvents]; split <;> split <;> simp_all

@[simp] theorem State.clearEvents_err (s : State) (d : Word32) :
    (s.clearEvents d).err = (s.err && !d.getLsbD 1) := by
  simp only [State.clearEvents]; split <;> split <;> simp_all

@[simp] theorem State.clearEvents_cause (s : State) (d : Word32) :
    (s.clearEvents d).cause = if d.getLsbD 1 then .none else s.cause := by
  simp only [State.clearEvents]; split <;> split <;> rfl

@[simp] theorem State.clearEvents_errcmd (s : State) (d : Word32) :
    (s.clearEvents d).errcmd = if d.getLsbD 1 then 0#32 else s.errcmd := by
  simp only [State.clearEvents]; split <;> split <;> rfl

/-- Two states are equal when all their fields are. -/
theorem State.ext_fields {s t : State} (hw : s.w = t.w) (hm : s.mem = t.mem) (hs : s.sha = t.sha)
    (hf : s.flags = t.flags) (hd : s.done = t.done) (he : s.err = t.err) (hc : s.cause = t.cause)
    (hec : s.errcmd = t.errcmd) (hid : s.ieDone = t.ieDone) (hie : s.ieErr = t.ieErr)
    (hp : s.pending = t.pending) (hr : s.inReset = t.inReset) (hsc : s.schedule = t.schedule)
    (hre : s.responses = t.responses) : s = t := by
  cases s; cases t; simp_all

/-- The register just written holds the value written. -/
theorem State.reg_setReg_same (s : State) (r : Reg) (v : Word) : (s.setReg r v).reg r = v := by
  simp [State.reg]

/-- Every other register stays. -/
theorem State.reg_setReg_other (s : State) (r q : Reg) (v : Word) (h : q ≠ r) :
    (s.setReg r v).reg q = s.reg q := by
  have : r.val ≠ q.val := fun e => h (Fin.ext e.symm)
  simp [State.reg, this]

theorem State.busy_eq_false (s : State) : s.busy = false ↔ s.pending = none := by
  simp [State.busy]

theorem State.busy_eq_true (s : State) : s.busy = true ↔ ∃ p, s.pending = some p := by
  simp [State.busy, Option.isSome_iff_exists]

end Sys2Proof.Machine
end

