-- ==== Sys2Proof/Laws/Ops.lean ====
section
/-! SUPPORT. One specification lemma per shared operation: what recording an error, issuing, committing, completing,
acknowledging, resetting and the operand checks can do. Later proofs cite these and unfold none of them. -/

namespace Sys2Proof.Machine

/-! ## Recording an error -/

/-- Recording sets ERR and keeps the first error (60_exceptions.md R263, R264). -/
theorem State.recordError_eq (s : State) (cause : Cause) (word : Word32) :
    s.recordError cause word =
      { s with
        err := true
        cause := if s.err then s.cause else cause
        errcmd := if s.err then s.errcmd else word } := by
  unfold State.recordError
  cases h : s.err
  · rfl
  · cases s; simp_all

/-- A dropped write records OVERRUN with its data (60_exceptions.md R264). -/
theorem overrun_eq (d : Word32) (s : State) :
    overrun d s =
      { s with
        err := true
        cause := if s.err then s.cause else .overrun
        errcmd := if s.err then s.errcmd else d } := s.recordError_eq .overrun d

/-- A completion with error is `afterError` (60_exceptions.md R263). -/
theorem completeWithError_eq (c : Word32) (cause : Cause) (s : State) :
    completeWithError c cause s = s.afterError c cause := by
  rw [completeWithError, State.recordError_eq]; rfl

/-! ## Issue -/

/-- On an idle core a word latches with its result (10_state.md R39). -/
theorem issueWord_idle (c : Word32) (r : Result) (s : State) (h : s.pending = none) :
    issueWord c r s = { s with pending := some ⟨c, r⟩ } := by
  rw [issueWord, (State.busy_eq_false s).2 h]; rfl

/-- At a busy core a word is an overrun (10_state.md R38). -/
theorem issueWord_busy (c : Word32) (r : Result) (s : State) (h : s.busy = true) :
    issueWord c r s = overrun c s := by
  rw [issueWord, h]; rfl

/-- What issue latches: the function's result, or ILLEGAL_CMD for a command that is not well formed. -/
theorem issue_idle (i : Instr) (r : Result) (s : State) (h : s.pending = none) :
    issue i r s =
      .next { s with pending := some ⟨encode i, if i.wellFormed then r else .error .illegalCmd⟩ } := by
  rw [issue, issueWord_idle _ _ _ h]

/-- At a busy core issue is an overrun. -/
theorem issue_busy (i : Instr) (r : Result) (s : State) (h : s.busy = true) :
    issue i r s = .next (overrun (encode i) s) := by
  rw [issue, issueWord_busy _ _ _ h]

/-! ## Commit -/

/-- What one effect leaves alone: everything but W, the flags and the SHA-256 state. -/
theorem Write.apply_frame (x : Write) (s : State) :
    x.apply s = { s with w := (x.apply s).w, flags := (x.apply s).flags, sha := (x.apply s).sha } := by
  cases x <;> rfl

/-- What a commit leaves alone: everything but W, the flags and the SHA-256 state (00_scope.md R12, R13). -/
theorem applyWrites_frame (ws : List Write) (s : State) :
    applyWrites ws s =
      { s with w := (applyWrites ws s).w, flags := (applyWrites ws s).flags, sha := (applyWrites ws s).sha } := by
  induction ws generalizing s with
  | nil => rfl
  | cons x xs ih =>
    have hx := x.apply_frame s
    have hi := ih (x.apply s)
    rw [applyWrites, hi]
    generalize applyWrites xs (x.apply s) = t at *
    rw [hx]

@[simp] theorem applyWrites_mem (ws : List Write) (s : State) : (applyWrites ws s).mem = s.mem := by
  rw [applyWrites_frame]

@[simp] theorem applyWrites_done (ws : List Write) (s : State) : (applyWrites ws s).done = s.done := by
  rw [applyWrites_frame]

@[simp] theorem applyWrites_err (ws : List Write) (s : State) : (applyWrites ws s).err = s.err := by
  rw [applyWrites_frame]

@[simp] theorem applyWrites_cause (ws : List Write) (s : State) : (applyWrites ws s).cause = s.cause := by
  rw [applyWrites_frame]

@[simp] theorem applyWrites_errcmd (ws : List Write) (s : State) : (applyWrites ws s).errcmd = s.errcmd := by
  rw [applyWrites_frame]

@[simp] theorem applyWrites_ieDone (ws : List Write) (s : State) : (applyWrites ws s).ieDone = s.ieDone := by
  rw [applyWrites_frame]

@[simp] theorem applyWrites_ieErr (ws : List Write) (s : State) : (applyWrites ws s).ieErr = s.ieErr := by
  rw [applyWrites_frame]

@[simp] theorem applyWrites_pending (ws : List Write) (s : State) : (applyWrites ws s).pending = s.pending := by
  rw [applyWrites_frame]

@[simp] theorem applyWrites_inReset (ws : List Write) (s : State) : (applyWrites ws s).inReset = s.inReset := by
  rw [applyWrites_frame]

@[simp] theorem applyWrites_schedule (ws : List Write) (s : State) :
    (applyWrites ws s).schedule = s.schedule := by
  rw [applyWrites_frame]

@[simp] theorem applyWrites_responses (ws : List Write) (s : State) :
    (applyWrites ws s).responses = s.responses := by
  rw [applyWrites_frame]

/-- What a commit writes depends only on what it writes to: W, the flags and the SHA-256 state. -/
theorem applyWrites_congr (ws : List Write) (s t : State) (hw : s.w = t.w) (hf : s.flags = t.flags)
    (hs : s.sha = t.sha) :
    (applyWrites ws s).w = (applyWrites ws t).w ∧ (applyWrites ws s).flags = (applyWrites ws t).flags ∧
      (applyWrites ws s).sha = (applyWrites ws t).sha := by
  induction ws generalizing s t with
  | nil => exact ⟨hw, hf, hs⟩
  | cons x xs ih => apply ih <;> cases x <;> simp [Write.apply, *]

/-- A register no effect of the list writes stays. -/
theorem applyWrites_reg (ws : List Write) (s : State) (q : Reg) (h : ∀ v, Write.reg q v ∉ ws) :
    (applyWrites ws s).reg q = s.reg q := by
  induction ws generalizing s with
  | nil => rfl
  | cons x xs ih =>
    rw [applyWrites, ih _ fun v hv => h v (List.mem_cons_of_mem _ hv)]
    cases x with
    | reg r v =>
      refine State.reg_setReg_other s r q v fun e => h v ?_
      rw [e]
      exact List.mem_cons_self
    | _ => rfl

/-! ## Completion -/

/-- An idle core has nothing to complete. -/
theorem complete_idle (s : State) (h : s.pending = none) : complete s = s := by
  rw [complete, h]

/-- Completion without error commits every effect together and sets DONE (10_state.md R39). -/
theorem complete_commit (s : State) (c : Word32) (ws : List Write) (h : s.pending = some ⟨c, .commit ws⟩) :
    complete s = { applyWrites ws s with done := true, pending := none } := by
  rw [complete, h]

/-- Completion with error records it and sets DONE (60_exceptions.md R263). -/
theorem complete_error (s : State) (c : Word32) (cause : Cause) (h : s.pending = some ⟨c, .error cause⟩) :
    complete s = s.afterError c cause := by
  rw [complete, h]
  exact completeWithError_eq c cause s

/-- Completion leaves no pending record. -/
@[simp] theorem complete_pending (s : State) : (complete s).pending = none := by
  unfold complete
  split
  · assumption
  · rfl
  · rfl

/-- Completion leaves MSGBUF as it was (10_state.md R46). -/
@[simp] theorem complete_mem (s : State) : (complete s).mem = s.mem := by
  unfold complete
  split <;> simp

@[simp] theorem complete_ieDone (s : State) : (complete s).ieDone = s.ieDone := by
  unfold complete
  split <;> simp

@[simp] theorem complete_ieErr (s : State) : (complete s).ieErr = s.ieErr := by
  unfold complete
  split <;> simp

@[simp] theorem complete_inReset (s : State) : (complete s).inReset = s.inReset := by
  unfold complete
  split <;> simp

@[simp] theorem complete_schedule (s : State) : (complete s).schedule = s.schedule := by
  unfold complete
  split <;> simp

@[simp] theorem complete_responses (s : State) : (complete s).responses = s.responses := by
  unfold complete
  split <;> simp

/-! ## Acknowledgement and reset -/

/-- A write of no bit to EVENT changes nothing (10_state.md R40). -/
theorem State.clearEvents_nothing (s : State) (d : Word32) (h0 : d.getLsbD 0 = false) (h1 : d.getLsbD 1 = false) :
    s.clearEvents d = s := by
  simp only [State.clearEvents, h0, h1]; rfl

/-- A host write to EVENT clears the bits written 1, and the error registers with ERR (10_state.md R40 to R42). -/
theorem State.clearEvents_eq (s : State) (d : Word32) :
    s.clearEvents d =
      { s with
        done := s.done && !d.getLsbD 0
        err := s.err && !d.getLsbD 1
        cause := if d.getLsbD 1 then .none else s.cause
        errcmd := if d.getLsbD 1 then 0#32 else s.errcmd } := by
  apply State.ext_fields <;> simp

/-! ## Completion and a clear in the same cycle (60_exceptions.md R267) -/

/-- Without an error DONE ends set whatever was written, and ERR and the error registers follow the write. -/
theorem completeWithClear_commit (s : State) (d c : Word32) (ws : List Write)
    (h : s.pending = some ⟨c, .commit ws⟩) :
    completeWithClear d s =
      { complete s with
        done := true
        err := s.err && !d.getLsbD 1
        cause := if d.getLsbD 1 then .none else s.cause
        errcmd := if d.getLsbD 1 then 0#32 else s.errcmd } := by
  have he : s.completionEvents = 0x1#32 := by rw [State.completionEvents, h]
  have h0 : (d &&& ~~~0x1#32).getLsbD 0 = false := by rw [BitVec.getLsbD_and]; exact Bool.and_false _
  have h1 : (d &&& ~~~0x1#32).getLsbD 1 = d.getLsbD 1 := by rw [BitVec.getLsbD_and]; exact Bool.and_true _
  rw [completeWithClear, he, State.clearEvents_eq, complete_commit s c ws h, h0, h1]
  simp

/-- With an error both bits survive, so the write has no effect and the first error is kept. -/
theorem completeWithClear_error (s : State) (d c : Word32) (cause : Cause)
    (h : s.pending = some ⟨c, .error cause⟩) : completeWithClear d s = s.afterError c cause := by
  have he : s.completionEvents = 0x3#32 := by rw [State.completionEvents, h]
  rw [completeWithClear, he, complete_error s c cause h]
  refine State.clearEvents_nothing _ _ ?_ ?_ <;> rw [BitVec.getLsbD_and] <;> exact Bool.and_false _

/-- On an idle core it is the write alone. -/
theorem completeWithClear_idle (s : State) (d : Word32) (h : s.pending = none) :
    completeWithClear d s = s.clearEvents d := by
  have he : s.completionEvents = 0x0#32 := by rw [State.completionEvents, h]
  rw [completeWithClear, he, complete_idle s h]
  congr 1
  rw [show (~~~0x0#32 : Word32) = BitVec.allOnes 32 from rfl, BitVec.and_allOnes]

/-- A completion with a clear changes EVENT and the error registers as a clear does, and all else as the completion
does. -/
theorem completeWithClear_eq (s : State) (d : Word32) :
    ∃ d', completeWithClear d s = (complete s).clearEvents d' := ⟨_, rfl⟩

/-- A soft reset resets the core; otherwise only the enables are written (10_state.md R43). -/
theorem State.writeCtrl_eq (s : State) (d : Word32) :
    s.writeCtrl d =
      if d.getLsbD 0 then s.toReset else { s with ieDone := d.getLsbD 1, ieErr := d.getLsbD 2 } := rfl

/-- A reset puts the core in its reset state (10_state.md R51). -/
theorem State.toReset_core (s : State) : CoreIsReset { s.toReset with inReset := false } := rfl

/-! ## Operand checks -/

/-- A check passes exactly below the modulus (41_modular.md R151). -/
theorem requireCanon_eq (m : Modulus) (v : Nat) (r : Result) :
    requireCanon m v r = if v < modulus m then r else .error .noncanon := rfl

theorem requireCanon_ok (m : Modulus) (v : Nat) (r : Result) (h : v < modulus m) : requireCanon m v r = r := if_pos h

theorem requireCanon_bad (m : Modulus) (v : Nat) (r : Result) (h : modulus m ≤ v) :
    requireCanon m v r = .error .noncanon := if_neg (by omega)

/-- A point passes exactly when its three coordinates are below p (42_curve.md R181). -/
theorem requirePoint_ok (q : JPoint) (r : Result) (h : q.canonical = true) : requirePoint q r = r := if_pos h

theorem requirePoint_bad (q : JPoint) (r : Result) (h : q.canonical = false) :
    requirePoint q r = .error .noncanon := if_neg (by simp [h])

theorem JPoint.canonical_iff (q : JPoint) :
    q.canonical = true ↔ q.x < Config.p ∧ q.y < Config.p ∧ q.z < Config.p := by
  simp [JPoint.canonical, and_assoc]

/-- What a SHA command's checks answer (43_sha256.md R215, R216). -/
theorem requireShaRoom_open (s : State) (extra : Nat) (r : Result) (h : s.sha.isOpen = true)
    (hl : s.sha.bits.toNat + extra ≤ 2 ^ 64 - 1) : requireShaRoom s extra r = r := by
  rw [requireShaRoom, if_pos h, if_neg (by rw [lengthAfter]; omega)]

theorem requireShaRoom_long (s : State) (extra : Nat) (r : Result) (h : s.sha.isOpen = true)
    (hl : 2 ^ 64 - 1 < s.sha.bits.toNat + extra) : requireShaRoom s extra r = .error .shaLength := by
  rw [requireShaRoom, if_pos h, if_pos (by rw [lengthAfter]; omega)]

theorem requireShaRoom_closed (s : State) (extra : Nat) (r : Result) (h : s.sha.isOpen = false) :
    requireShaRoom s extra r = .error .shaNotOpen := by
  rw [requireShaRoom, if_neg (by simp [h])]

/-! ## MSGBUF -/

/-- A bus write of MSGBUF keeps the memory's canonical form. -/
theorem State.setMsgbufWord_wf (s : State) (k : Nat) (d : Word32) (h : s.mem.wf = true) :
    (s.setMsgbufWord k d).mem.wf = true := by
  simp only [State.setMsgbufWord, State.setMsgbuf_mem]
  exact Memory.write_wf _ _ _ (Memory.write_wf _ _ _ (Memory.write_wf _ _ _ (Memory.write_wf _ _ _ h)))

/-- A bus write of MSGBUF lists only MSGBUF's offsets. -/
theorem State.setMsgbufWord_onlyMsgbuf (s : State) (k : Nat) (d : Word32) (hk : k < 16)
    (h : s.mem.onlyMsgbuf = true) : (s.setMsgbufWord k d).mem.onlyMsgbuf = true := by
  simp only [State.setMsgbufWord, State.setMsgbuf_mem]
  have hb : ∀ j, j < 64 → msgbufBase ≤ msgbufBase + j ∧ msgbufBase + j < msgbufBase + msgbufSize := by
    intro j hj; simp [msgbufSize, hj]
  exact Memory.write_onlyMsgbuf _ _ _ (Memory.write_onlyMsgbuf _ _ _ (Memory.write_onlyMsgbuf _ _ _
    (Memory.write_onlyMsgbuf _ _ _ h (hb _ (by omega))) (hb _ (by omega))) (hb _ (by omega))) (hb _ (by omega))

/-- The reset memory is in canonical form. -/
theorem reset_mem_wf : State.reset.mem.wf = true := rfl

end Sys2Proof.Machine
end

