-- ==== Sys2Proof/Laws/Commands.lean ====
section
/-! SUPPORT. Every command is the issue of one function of the state: what exec can answer, said once for all commands,
and the errors each function can give. -/

namespace Sys2Proof.Machine

/-- The function of each command on the state at issue (00_scope.md R13). -/
def resultOf (i : Instr) (s : State) : Result :=
  match i with
  | .nop => nopResult s
  | .mov rd ra => movResult rd ra s
  | .ldc rd k => ldcResult rd k s
  | .cmp ra rb => cmpResult ra rb s
  | .madd m rd ra rb => maddResult m rd ra rb s
  | .msub m rd ra rb => msubResult m rd ra rb s
  | .mneg m rd ra => mnegResult m rd ra s
  | .mmul m rd ra rb => mmulResult m rd ra rb s
  | .msqr m rd ra => msqrResult m rd ra s
  | .minv m rd ra => minvResult m rd ra s
  | .mred m rd ra => mredResult m rd ra s
  | .mont m rd ra rb => montResult m rd ra rb s
  | .tomont m rd ra => tomontResult m rd ra s
  | .frommont m rd ra => frommontResult m rd ra s
  | .pdbl rd ra => pdblResult rd ra s
  | .padd rd ra rb => paddResult rd ra rb s
  | .pmul rd ra rb => pmulResult rd ra rb s
  | .psham rd ra rb rc => pshamResult rd ra rb rc s
  | .paff rd ra => paffResult rd ra s
  | .pchk ra => pchkResult ra s
  | .shainit => shainitResult s
  | .shablk => shablkResult s
  | .shafin rd len => shafinResult rd len s
  | .verify ra rb rc => verifyResult ra rb rc s

/-- Every command is issued with its function's result. -/
theorem exec_eq_issue (i : Instr) (s : State) : exec i s = issue i (resultOf i s) s := by
  cases i <;> rfl

/-- The result a command is latched with. -/
def issuedResult (i : Instr) (s : State) : Result :=
  if i.wellFormed then resultOf i s else .error .illegalCmd

theorem issuedResult_wellFormed (i : Instr) (s : State) (h : i.wellFormed = true) :
    issuedResult i s = resultOf i s := if_pos h

theorem issuedResult_illFormed (i : Instr) (s : State) (h : i.wellFormed = false) :
    issuedResult i s = .error .illegalCmd := if_neg (by simp [h])

/-- On an idle core exec only latches the command's word and result (10_state.md R39). -/
theorem exec_idle (i : Instr) (s : State) (h : s.pending = none) :
    exec i s = .next { s with pending := some ⟨encode i, issuedResult i s⟩ } := by
  rw [exec_eq_issue, issue_idle i _ s h]; rfl

/-- At a busy core exec is an overrun (10_state.md R38). -/
theorem exec_busy (i : Instr) (s : State) (h : s.busy = true) : exec i s = .next (overrun (encode i) s) := by
  rw [exec_eq_issue, issue_busy i _ s h]

/-- On an idle core a command issues with exactly one result. -/
theorem issuesWith_iff (i : Instr) (s : State) (r : Result) (h : s.pending = none) :
    IssuesWith i s r ↔ r = issuedResult i s := by
  rw [IssuesWith, exec_idle i s h]
  constructor
  · intro e
    injection e with e
    have := congrArg State.pending e
    simpa using this.symm
  · rintro rfl; rfl

/-- A command whose result is known commits to the completion of that result. -/
theorem commitsTo_iff (i : Instr) (s u : State) (h : s.pending = none) :
    CommitsTo i s u ↔ complete { s with pending := some ⟨encode i, issuedResult i s⟩ } = u := by
  constructor
  · rintro ⟨r, hr, hu⟩
    rw [(issuesWith_iff i s r h).1 hr] at hu
    exact hu
  · intro hu
    exact ⟨_, (issuesWith_iff i s _ h).2 rfl, hu⟩

/-- Applying effects under a pending record is applying them without it. -/
theorem applyWrites_withPending (ws : List Write) (s : State) (p : Option Pending) :
    applyWrites ws { s with pending := p } = { applyWrites ws s with pending := p } := by
  induction ws generalizing s with
  | nil => rfl
  | cons x xs ih =>
    rw [applyWrites, applyWrites, ← ih]
    cases x <;> rfl

/-- A well-formed command whose function gives effects commits them and sets DONE (10_state.md R39). -/
theorem commitsTo_of_commit (i : Instr) (s : State) (ws : List Write) (h : s.pending = none)
    (hw : i.wellFormed = true) (hr : resultOf i s = .commit ws) :
    CommitsTo i s { applyWrites ws s with done := true, pending := none } := by
  rw [commitsTo_iff i s _ h, issuedResult_wellFormed i s hw, hr, complete_commit _ _ _ rfl,
    applyWrites_withPending]

/-- A command whose result is an error commits nothing and records it (60_exceptions.md R263). -/
theorem commitsTo_of_error (i : Instr) (s : State) (cause : Cause) (h : s.pending = none)
    (hr : issuedResult i s = .error cause) : CommitsTo i s (s.afterError (encode i) cause) := by
  rw [commitsTo_iff i s _ h, hr, complete_error _ _ _ rfl]
  rfl

/-! ## The errors a command can have -/

theorem requireCanon_error (m : Modulus) (v : Nat) (r : Result) (cause : Cause)
    (h : requireCanon m v r = .error cause) : cause = .noncanon ∨ r = .error cause := by
  rw [requireCanon_eq] at h
  split at h
  · exact .inr h
  · injection h with h; exact .inl h.symm

theorem requirePoint_error (q : JPoint) (r : Result) (cause : Cause)
    (h : requirePoint q r = .error cause) : cause = .noncanon ∨ r = .error cause := by
  unfold requirePoint at h
  split at h
  · exact .inr h
  · injection h with h; exact .inl h.symm

theorem requireShaRoom_error (s : State) (extra : Nat) (r : Result) (cause : Cause)
    (h : requireShaRoom s extra r = .error cause) :
    cause = .shaNotOpen ∨ cause = .shaLength ∨ r = .error cause := by
  unfold requireShaRoom at h
  split at h
  · split at h
    · injection h with h; exact .inr (.inl h.symm)
    · exact .inr (.inr h)
  · injection h with h; exact .inl h.symm

/-- A command's function never gives NONE or OVERRUN (60_exceptions.md R261). -/
theorem resultOf_error (i : Instr) (s : State) (cause : Cause) (h : resultOf i s = .error cause) :
    cause ≠ .none ∧ cause ≠ .overrun := by
  have canon2 : ∀ (m : Modulus) (v w : Nat) (rd : Reg) (r : Nat),
      requireCanon m v (requireCanon m w (modularResult rd r)) = .error cause → cause = .noncanon := by
    intro m v w rd r h
    obtain h | h := requireCanon_error _ _ _ _ h
    · exact h
    · obtain h | h := requireCanon_error _ _ _ _ h
      · exact h
      · nomatch h
  have canon1 : ∀ (m : Modulus) (v : Nat) (rd : Reg) (r : Nat),
      requireCanon m v (modularResult rd r) = .error cause → cause = .noncanon := by
    intro m v rd r h
    obtain h | h := requireCanon_error _ _ _ _ h
    · exact h
    · nomatch h
  have point1 : ∀ (q : JPoint) (rd : Reg) (t : JPoint),
      requirePoint q (pointResult rd t) = .error cause → cause = .noncanon := by
    intro q rd t h
    obtain h | h := requirePoint_error _ _ _ h
    · exact h
    · nomatch h
  have main : cause = .noncanon ∨ cause = .illegalCmd ∨ cause = .invZero ∨ cause = .shaNotOpen ∨
      cause = .shaLength := by
    cases i with
    | nop | mov | cmp | mred | pchk | shainit | verify => nomatch h
    | ldc rd k =>
      simp only [resultOf, ldcResult] at h
      split at h
      · nomatch h
      · injection h with h; exact .inr (.inl h.symm)
    | madd | msub | mmul | mont => exact .inl (canon2 _ _ _ _ _ h)
    | mneg | msqr | tomont | frommont => exact .inl (canon1 _ _ _ _ h)
    | minv m rd ra =>
      obtain h | h := requireCanon_error _ _ _ _ h
      · exact .inl h
      · split at h
        · injection h with h; exact .inr (.inr (.inl h.symm))
        · nomatch h
    | pdbl | pmul | psham | paff => exact .inl (point1 _ _ _ h)
    | padd rd ra rb =>
      obtain h | h := requirePoint_error _ _ _ h
      · exact .inl h
      · exact .inl (point1 _ _ _ h)
    | shablk | shafin =>
      obtain h | h | h := requireShaRoom_error _ _ _ _ h
      · exact .inr (.inr (.inr (.inl h)))
      · exact .inr (.inr (.inr (.inr h)))
      · nomatch h
  obtain rfl | rfl | rfl | rfl | rfl := main <;> exact ⟨nofun, nofun⟩

/-- Nor does issue. -/
theorem issuedResult_error (i : Instr) (s : State) (cause : Cause) (h : issuedResult i s = .error cause) :
    cause ≠ .none ∧ cause ≠ .overrun := by
  unfold issuedResult at h
  split at h
  · exact resultOf_error i s cause h
  · injection h with h; subst h; exact ⟨nofun, nofun⟩

/-! ## The effects a command can have -/

theorem requireCanon_commit (m : Modulus) (v : Nat) (r : Result) (ws : List Write)
    (h : requireCanon m v r = .commit ws) : v < modulus m ∧ r = .commit ws := by
  by_cases hv : v < modulus m
  · rw [requireCanon_ok m v r hv] at h; exact ⟨hv, h⟩
  · rw [requireCanon_bad m v r (by omega)] at h; nomatch h

theorem requirePoint_commit (q : JPoint) (r : Result) (ws : List Write)
    (h : requirePoint q r = .commit ws) : q.canonical = true ∧ r = .commit ws := by
  cases hq : q.canonical
  · rw [requirePoint_bad q r hq] at h; nomatch h
  · rw [requirePoint_ok q r hq] at h; exact ⟨rfl, h⟩

theorem requireShaRoom_commit (s : State) (extra : Nat) (r : Result) (ws : List Write)
    (h : requireShaRoom s extra r = .commit ws) :
    s.sha.isOpen = true ∧ s.sha.bits.toNat + extra ≤ 2 ^ 64 - 1 ∧ r = .commit ws := by
  cases ho : s.sha.isOpen
  · rw [requireShaRoom_closed s extra r ho] at h; nomatch h
  · by_cases hl : s.sha.bits.toNat + extra ≤ 2 ^ 64 - 1
    · rw [requireShaRoom_open s extra r ho hl] at h; exact ⟨rfl, hl, h⟩
    · rw [requireShaRoom_long s extra r ho (by omega)] at h; nomatch h

/-- The effects each command may commit, whatever their values: its destinations, its flags and the SHA-256 state it
writes (10_state.md R33, R35). -/
def CommitForm (i : Instr) (ws : List Write) : Prop :=
  match i with
  | .nop => ws = []
  | .mov rd _ | .ldc rd _ => ∃ v, ws = [.reg rd v]
  | .cmp _ _ => ∃ e l, ws = [.eq e, .lt l]
  | .madd m rd _ _ | .msub m rd _ _ | .mmul m rd _ _ | .mont m rd _ _ | .mneg m rd _ | .msqr m rd _
  | .minv m rd _ | .mred m rd _ | .tomont m rd _ | .frommont m rd _ =>
      ∃ r, (0 < modulus m → r < modulus m) ∧ ws = [.reg rd (BitVec.ofNat 256 r), .zr (zrFlag r)]
  | .pdbl rd _ | .padd rd _ _ | .pmul rd _ _ | .psham rd _ _ _ | .paff rd _ =>
      ∃ q : JPoint, ws = [.reg rd (BitVec.ofNat 256 q.x), .reg (rd + 1) (BitVec.ofNat 256 q.y),
        .reg (rd + 2) (BitVec.ofNat 256 q.z), .inf (infFlag q)]
  | .pchk _ => ∃ b, ws = [.pv b]
  | .shainit => ws = [.shaH Config.shaIv, .msgbits 0#64, .shaOpen true]
  | .shablk => ∃ h n, ws = [.shaH h, .msgbits n]
  | .shafin rd _ => ∃ v h n, ws = [.reg rd v, .shaH h, .msgbits n, .shaOpen false]
  | .verify _ _ _ => ∃ v, ws = [.vres v]

theorem modularResult_commit (rd : Reg) (r : Nat) (ws : List Write) (h : modularResult rd r = .commit ws) :
    ws = [.reg rd (BitVec.ofNat 256 r), .zr (zrFlag r)] := by
  injection h with h; exact h.symm

theorem pointResult_commit (rd : Reg) (q : JPoint) (ws : List Write) (h : pointResult rd q = .commit ws) :
    ws = [.reg rd (BitVec.ofNat 256 q.x), .reg (rd + 1) (BitVec.ofNat 256 q.y),
      .reg (rd + 2) (BitVec.ofNat 256 q.z), .inf (infFlag q)] := by
  injection h with h; exact h.symm

theorem subMod_lt (m x y : Nat) (hm : 0 < m) : subMod m x y < m := by
  have h1 := Int.emod_lt_of_pos ((x : Int) - y) (b := m) (by omega)
  have h2 := Int.emod_nonneg ((x : Int) - y) (b := m) (by omega)
  unfold subMod
  omega

theorem powMod_lt (m x e : Nat) (hm : 0 < m) : powMod m x e < m := by
  have loop : ∀ bit acc, acc < m → powModLoop m x e bit acc < m := by
    intro bit
    induction bit with
    | zero => intro acc h; exact h
    | succ k ih =>
      intro acc _
      rw [powModLoop]
      split <;> exact ih _ (Nat.mod_lt _ hm)
  exact loop 256 _ (Nat.mod_lt _ hm)

/-- Every effect list a command issues with has its command's form. -/
theorem commitForm_of_result (i : Instr) (s : State) (ws : List Write) (h : resultOf i s = .commit ws) :
    CommitForm i ws := by
  cases i with
  | nop | shainit => injection h with h; exact h.symm
  | mov => injection h with h; exact ⟨_, h.symm⟩
  | ldc rd k =>
    simp only [resultOf, ldcResult] at h
    split at h
    · injection h with h; exact ⟨_, h.symm⟩
    · nomatch h
  | cmp => injection h with h; exact ⟨_, _, h.symm⟩
  | madd m | mmul m | mont m =>
    have h := (requireCanon_commit _ _ _ _ (requireCanon_commit _ _ _ _ h).2).2
    exact ⟨_, fun hm => Nat.mod_lt _ hm, modularResult_commit _ _ _ h⟩
  | msub m =>
    have h := (requireCanon_commit _ _ _ _ (requireCanon_commit _ _ _ _ h).2).2
    exact ⟨_, fun hm => subMod_lt _ _ _ hm, modularResult_commit _ _ _ h⟩
  | mneg m =>
    have h := (requireCanon_commit _ _ _ _ h).2
    exact ⟨_, fun hm => subMod_lt _ _ _ hm, modularResult_commit _ _ _ h⟩
  | msqr m | tomont m | frommont m =>
    have h := (requireCanon_commit _ _ _ _ h).2
    exact ⟨_, fun hm => Nat.mod_lt _ hm, modularResult_commit _ _ _ h⟩
  | mred m => exact ⟨_, fun hm => Nat.mod_lt _ hm, modularResult_commit _ _ _ h⟩
  | minv m rd ra =>
    have h := (requireCanon_commit _ _ _ _ h).2
    by_cases hz : s.regNat ra = 0
    · rw [if_pos hz] at h; nomatch h
    · rw [if_neg hz] at h
      exact ⟨_, fun hm => powMod_lt _ _ _ hm, modularResult_commit _ _ _ h⟩
  | pdbl | pmul | psham | paff =>
    exact ⟨_, pointResult_commit _ _ _ (requirePoint_commit _ _ _ h).2⟩
  | padd =>
    exact ⟨_, pointResult_commit _ _ _ (requirePoint_commit _ _ _ (requirePoint_commit _ _ _ h).2).2⟩
  | pchk => injection h with h; exact ⟨_, h.symm⟩
  | shablk =>
    have h := (requireShaRoom_commit _ _ _ _ h).2.2
    injection h with h; exact ⟨_, _, h.symm⟩
  | shafin =>
    have h := (requireShaRoom_commit _ _ _ _ h).2.2
    injection h with h; exact ⟨_, _, _, h.symm⟩
  | verify => injection h with h; exact ⟨_, h.symm⟩

theorem commitForm_of_issued (i : Instr) (s : State) (ws : List Write) (h : issuedResult i s = .commit ws) :
    CommitForm i ws := by
  unfold issuedResult at h
  split at h
  · exact commitForm_of_result i s ws h
  · nomatch h

/-- The function of a command reads only W, MSGBUF and the SHA-256 state (10_state.md R39). -/
theorem resultOf_congr (i : Instr) (s t : State) (hw : s.w = t.w) (hm : s.mem = t.mem) (hs : s.sha = t.sha) :
    resultOf i s = resultOf i t := by
  have hr : ∀ r, s.reg r = t.reg r := fun r => by rw [State.reg, State.reg, hw]
  have hn : ∀ r, s.regNat r = t.regNat r := fun r => by rw [State.regNat, State.regNat, hr]
  have hp : ∀ r, s.point r = t.point r := fun r => by simp only [State.point, hn]
  have hq : ∀ r, s.pairSecond r = t.pairSecond r := fun r => hn _
  have hl : ∀ k, lengthAfter s k = lengthAfter t k := fun k => by rw [lengthAfter, lengthAfter, hs]
  have hsr : ∀ k r, requireShaRoom s k r = requireShaRoom t k r := fun k r => by
    rw [requireShaRoom, requireShaRoom, hs, hl]
  cases i <;>
    simp only [resultOf, nopResult, movResult, ldcResult, cmpResult, maddResult, msubResult, mnegResult, mmulResult,
      msqrResult, minvResult, mredResult, montResult, tomontResult, frommontResult, pdblResult, paddResult,
      pmulResult, pshamResult, paffResult, pchkResult, shainitResult, shablkResult, shafinResult, finalWords,
      verifyResult, hr, hn, hp, hq, hsr, hl, hm, hs]

end Sys2Proof.Machine
end

