-- ==== Sys2Proof/Laws/Primes.lean ====
section
/-! SUPPORT. `powMod` is exponentiation; p and n are prime (00_scope.md R8, 41_modular.md R150); so `invMod` is
the unique inverse that 41_modular.md R159 asks for. -/

namespace Sys2Proof.Machine

/-- The loop invariant of square-and-multiply. -/
theorem powModLoop_eq (m x e bit acc : Nat) :
    powModLoop m x e bit acc % m = acc ^ 2 ^ bit * x ^ (e % 2 ^ bit) % m := by
  induction bit generalizing acc with
  | zero => simp [powModLoop, Nat.mod_one]
  | succ k ih =>
    rw [powModLoop, ih]
    have he : e % 2 ^ (k + 1) = 2 ^ k * (e.testBit k).toNat + e % 2 ^ k := by
        rw [Nat.mod_pow_succ, Nat.toNat_testBit, Nat.add_comm]
    have sq : ∀ z, mulMod m acc acc ^ 2 ^ k * z % m = acc ^ 2 ^ (k + 1) * z % m := by
      intro z
      rw [Nat.mul_mod, mulMod, ← Nat.pow_mod, ← Nat.mul_mod, ← pow_two, ← pow_mul, pow_succ' 2 k]
    cases hb : e.testBit k with
    | false =>
      simp only [hb, Bool.false_eq_true, if_false, Bool.toNat_false, Nat.mul_zero, Nat.zero_add] at he ⊢
      rw [sq, he]
    | true =>
      simp only [hb, if_true, Bool.toNat_true, Nat.mul_one] at he ⊢
      have hm : mulMod m (mulMod m acc acc) x ^ 2 ^ k * x ^ (e % 2 ^ k) % m
          = (mulMod m acc acc * x) ^ 2 ^ k * x ^ (e % 2 ^ k) % m := by
        rw [Nat.mul_mod, mulMod, ← Nat.pow_mod, ← Nat.mul_mod]
      rw [hm, mul_pow, mul_assoc, sq, ← pow_add, he]

theorem powModLoop_lt (m x e bit acc : Nat) (ha : acc < m) : powModLoop m x e bit acc < m := by
  induction bit generalizing acc with
  | zero => exact ha
  | succ k ih =>
    rw [powModLoop]
    apply ih
    split <;> exact Nat.mod_lt _ (by omega)

/-- The loop over enough bits, started at 1. -/
theorem powModLoop_one (m x e bit : Nat) (hm : 0 < m) (he : e < 2 ^ bit) :
    powModLoop m x e bit (1 % m) = x ^ e % m := by
  have h := powModLoop_eq m x e bit (1 % m)
  rw [Nat.mod_eq_of_lt (powModLoop_lt m x e bit (1 % m) (Nat.mod_lt _ hm)), Nat.mod_eq_of_lt he,
    Nat.mul_mod, ← Nat.pow_mod, one_pow, ← Nat.mul_mod, one_mul] at h
  exact h

/-- `powMod` computes `x^e mod m` for every exponent of at most 256 bits. -/
theorem powMod_eq (m x e : Nat) (hm : 0 < m) (he : e < 2 ^ 256) : powMod m x e = x ^ e % m :=
  powModLoop_one m x e 256 hm he

/-- Lucas's test with every factor of q - 1 listed and prime. -/
theorem prime_of_lucas (q a : Nat) (fs : List Nat) (hq : 1 < q) (hb : q < 2 ^ 256)
    (hprod : fs.prod = q - 1) (hfs : ∀ f ∈ fs, f.Prime) (hone : powMod q a (q - 1) = 1)
    (hne : fs.all (fun f => powMod q a ((q - 1) / f) != 1) = true) : q.Prime := by
  have cast : ∀ e, e < 2 ^ 256 → ((a : ZMod q) ^ e = 1 ↔ powMod q a e = 1) := by
    intro e he
    rw [powMod_eq q a e (by omega) he]
    have : ((a : ZMod q) ^ e = 1) ↔ ((a ^ e : Nat) : ZMod q) = ((1 : Nat) : ZMod q) := by
      push_cast; rfl
    rw [this, ZMod.natCast_eq_natCast_iff, Nat.ModEq, Nat.mod_eq_of_lt hq]
  refine lucas_primality q (a : ZMod q) ((cast _ (by omega)).2 hone) ?_
  intro r hr hdvd
  have hmem : r ∈ fs := by
    rw [← hprod] at hdvd
    obtain ⟨f, hf, hrf⟩ := (Prime.dvd_prod_iff hr.prime).1 hdvd
    rwa [(Nat.prime_dvd_prime_iff_eq hr (hfs f hf)).1 hrf]
  have := List.all_eq_true.1 hne r hmem
  rw [Ne, cast _ (lt_of_le_of_lt (Nat.div_le_self _ _) (by omega))]
  simpa using this

theorem prime_204061199 : Nat.Prime 204061199 := by
  refine prime_of_lucas _ 11 [2, 11, 23, 107, 3769] (by norm_num) (by norm_num) (by norm_num) ?_ (by decide +kernel)
    (by decide +kernel)
  simp only [List.forall_mem_cons, List.not_mem_nil, false_imp_iff, implies_true, and_true]
  exact ⟨by norm_num, by norm_num, by norm_num, by norm_num, by norm_num⟩

theorem prime_34282281433 : Nat.Prime 34282281433 := by
  refine prime_of_lucas _ 17 [2, 2, 2, 3, 7, 204061199] (by norm_num) (by norm_num) (by norm_num) ?_ (by decide +kernel)
    (by decide +kernel)
  simp only [List.forall_mem_cons, List.not_mem_nil, false_imp_iff, implies_true, and_true]
  exact ⟨by norm_num, by norm_num, by norm_num, by norm_num, by norm_num, prime_204061199⟩

theorem prime_66417393611 : Nat.Prime 66417393611 := by
  refine prime_of_lucas _ 6 [2, 5, 53, 173, 197, 3677] (by norm_num) (by norm_num) (by norm_num) ?_ (by decide +kernel)
    (by decide +kernel)
  simp only [List.forall_mem_cons, List.not_mem_nil, false_imp_iff, implies_true, and_true]
  exact ⟨by norm_num, by norm_num, by norm_num, by norm_num, by norm_num, by norm_num⟩

theorem prime_11290956913871 : Nat.Prime 11290956913871 := by
  refine prime_of_lucas _ 13 [2, 5, 17, 66417393611] (by norm_num) (by norm_num) (by norm_num) ?_ (by decide +kernel)
    (by decide +kernel)
  simp only [List.forall_mem_cons, List.not_mem_nil, false_imp_iff, implies_true, and_true]
  exact ⟨by norm_num, by norm_num, by norm_num, prime_66417393611⟩

theorem prime_46076956964474543 : Nat.Prime 46076956964474543 := by
  refine prime_of_lucas _ 5 [2, 23, 18169, 78283, 704251] (by norm_num) (by norm_num) (by norm_num) ?_ (by decide +kernel)
    (by decide +kernel)
  simp only [List.forall_mem_cons, List.not_mem_nil, false_imp_iff, implies_true, and_true]
  exact ⟨by norm_num, by norm_num, by norm_num, by norm_num, by norm_num⟩

theorem prime_774023187263532362759620327192479577272145303 : Nat.Prime 774023187263532362759620327192479577272145303 := by
  refine prime_of_lucas _ 3 [2, 3, 3, 2411, 34282281433, 11290956913871, 46076956964474543] (by norm_num) (by norm_num) (by norm_num) ?_ (by decide +kernel)
    (by decide +kernel)
  simp only [List.forall_mem_cons, List.not_mem_nil, false_imp_iff, implies_true, and_true]
  exact ⟨by norm_num, by norm_num, by norm_num, by norm_num, prime_34282281433, prime_11290956913871, prime_46076956964474543⟩

theorem prime_835945042244614951780389953367877943453916927241 : Nat.Prime 835945042244614951780389953367877943453916927241 := by
  refine prime_of_lucas _ 11 [2, 2, 2, 3, 3, 3, 5, 774023187263532362759620327192479577272145303] (by norm_num) (by norm_num) (by norm_num) ?_ (by decide +kernel)
    (by decide +kernel)
  simp only [List.forall_mem_cons, List.not_mem_nil, false_imp_iff, implies_true, and_true]
  exact ⟨by norm_num, by norm_num, by norm_num, by norm_num, by norm_num, by norm_num, by norm_num, prime_774023187263532362759620327192479577272145303⟩

theorem prime_115792089210356248762697446949407573530086143415290314195533631308867097853951 : Nat.Prime 115792089210356248762697446949407573530086143415290314195533631308867097853951 := by
  refine prime_of_lucas _ 6 [2, 3, 5, 5, 17, 257, 641, 1531, 65537, 490463, 6700417, 835945042244614951780389953367877943453916927241] (by norm_num) (by norm_num) (by norm_num) ?_ (by decide +kernel)
    (by decide +kernel)
  simp only [List.forall_mem_cons, List.not_mem_nil, false_imp_iff, implies_true, and_true]
  exact ⟨by norm_num, by norm_num, by norm_num, by norm_num, by norm_num, by norm_num, by norm_num, by norm_num, by norm_num, by norm_num, by norm_num, prime_835945042244614951780389953367877943453916927241⟩

theorem prime_187019741 : Nat.Prime 187019741 := by
  refine prime_of_lucas _ 2 [2, 2, 5, 9350987] (by norm_num) (by norm_num) (by norm_num) ?_ (by decide +kernel)
    (by decide +kernel)
  simp only [List.forall_mem_cons, List.not_mem_nil, false_imp_iff, implies_true, and_true]
  exact ⟨by norm_num, by norm_num, by norm_num, by norm_num⟩

theorem prime_311245691 : Nat.Prime 311245691 := by
  refine prime_of_lucas _ 2 [2, 5, 7, 17, 29, 29, 311] (by norm_num) (by norm_num) (by norm_num) ?_ (by decide +kernel)
    (by decide +kernel)
  simp only [List.forall_mem_cons, List.not_mem_nil, false_imp_iff, implies_true, and_true]
  exact ⟨by norm_num, by norm_num, by norm_num, by norm_num, by norm_num, by norm_num, by norm_num⟩

theorem prime_622491383 : Nat.Prime 622491383 := by
  refine prime_of_lucas _ 5 [2, 311245691] (by norm_num) (by norm_num) (by norm_num) ?_ (by decide +kernel)
    (by decide +kernel)
  simp only [List.forall_mem_cons, List.not_mem_nil, false_imp_iff, implies_true, and_true]
  exact ⟨by norm_num, prime_311245691⟩

theorem prime_1002328039319 : Nat.Prime 1002328039319 := by
  refine prime_of_lucas _ 19 [2, 126241, 3969899] (by norm_num) (by norm_num) (by norm_num) ?_ (by decide +kernel)
    (by decide +kernel)
  simp only [List.forall_mem_cons, List.not_mem_nil, false_imp_iff, implies_true, and_true]
  exact ⟨by norm_num, by norm_num, by norm_num⟩

theorem prime_191039911 : Nat.Prime 191039911 := by
  refine prime_of_lucas _ 3 [2, 3, 5, 41, 155317] (by norm_num) (by norm_num) (by norm_num) ?_ (by decide +kernel)
    (by decide +kernel)
  simp only [List.forall_mem_cons, List.not_mem_nil, false_imp_iff, implies_true, and_true]
  exact ⟨by norm_num, by norm_num, by norm_num, by norm_num, by norm_num⟩

theorem prime_208150935158385979 : Nat.Prime 208150935158385979 := by
  refine prime_of_lucas _ 2 [2, 3, 11, 43, 127, 3023, 191039911] (by norm_num) (by norm_num) (by norm_num) ?_ (by decide +kernel)
    (by decide +kernel)
  simp only [List.forall_mem_cons, List.not_mem_nil, false_imp_iff, implies_true, and_true]
  exact ⟨by norm_num, by norm_num, by norm_num, by norm_num, by norm_num, by norm_num, prime_191039911⟩

theorem prime_2624747550333869278416773953 : Nat.Prime 2624747550333869278416773953 := by
  refine prime_of_lucas _ 7 [2, 2, 2, 2, 2, 2, 3, 3, 1297, 16879, 208150935158385979] (by norm_num) (by norm_num) (by norm_num) ?_ (by decide +kernel)
    (by decide +kernel)
  simp only [List.forall_mem_cons, List.not_mem_nil, false_imp_iff, implies_true, and_true]
  exact ⟨by norm_num, by norm_num, by norm_num, by norm_num, by norm_num, by norm_num, by norm_num, by norm_num, by norm_num, by norm_num, prime_208150935158385979⟩

theorem prime_115792089210356248762697446949407573529996955224135760342422259061068512044369 : Nat.Prime 115792089210356248762697446949407573529996955224135760342422259061068512044369 := by
  refine prime_of_lucas _ 7 [2, 2, 2, 2, 3, 71, 131, 373, 3407, 17449, 38189, 187019741, 622491383, 1002328039319, 2624747550333869278416773953] (by norm_num) (by norm_num) (by norm_num) ?_ (by decide +kernel)
    (by decide +kernel)
  simp only [List.forall_mem_cons, List.not_mem_nil, false_imp_iff, implies_true, and_true]
  exact ⟨by norm_num, by norm_num, by norm_num, by norm_num, by norm_num, by norm_num, by norm_num, by norm_num, by norm_num, by norm_num, by norm_num, prime_187019741, prime_622491383, prime_1002328039319, prime_2624747550333869278416773953⟩


theorem p_eq : Config.p = 115792089210356248762697446949407573530086143415290314195533631308867097853951 := by decide +kernel

/-- p is prime (41_modular.md R150). -/
theorem p_prime : Config.p.Prime := by rw [p_eq]; exact prime_115792089210356248762697446949407573530086143415290314195533631308867097853951

/-- n is prime (41_modular.md R150). -/
theorem n_prime : Config.n.Prime := prime_115792089210356248762697446949407573529996955224135760342422259061068512044369

/-- Both moduli are prime. -/
theorem modulus_prime (m : Modulus) : (modulus m).Prime := by
  cases m
  · exact p_prime
  · exact n_prime

/-- Both moduli are at least 3 and fit 256 bits. -/
theorem modulus_bounds (m : Modulus) : 3 ≤ modulus m ∧ modulus m < 2 ^ 256 := by
  cases m <;> decide +kernel

theorem invMod_lt (m : Modulus) (x : Nat) : invMod (modulus m) x < modulus m :=
  powModLoop_lt _ _ _ _ _ (Nat.mod_lt _ (modulus_prime m).pos)

/-- `invMod` is an inverse modulo p and modulo n (41_modular.md R159). -/
theorem mul_invMod (m : Modulus) (x : Nat) (h0 : x ≠ 0) (hx : x < modulus m) :
    x * invMod (modulus m) x % modulus m = 1 := by
  have hb := modulus_bounds m
  rw [invMod, powMod_eq _ _ _ (by omega) (by omega)]
  have : Fact (modulus m).Prime := ⟨modulus_prime m⟩
  have hf := ZMod.pow_card_sub_one_eq_one (p := modulus m)
    (a := (x : ZMod (modulus m))) (by
      rw [Ne, ZMod.natCast_eq_zero_iff]
      exact fun hd => absurd (Nat.le_of_dvd (by omega) hd) (by omega))
  have : ((x ^ (modulus m - 1) : Nat) : ZMod (modulus m)) = ((1 : Nat) : ZMod (modulus m)) := by
    push_cast; exact hf
  rw [ZMod.natCast_eq_natCast_iff, Nat.ModEq, Nat.mod_eq_of_lt (show 1 < modulus m by omega)] at this
  rwa [Nat.mul_mod, Nat.mod_mod, ← Nat.mul_mod, ← pow_succ',
    show modulus m - 2 + 1 = modulus m - 1 by omega]

/-- The inverse is unique: any canonical y with x·y = 1 is `invMod` (41_modular.md R159). -/
theorem invMod_unique (m : Modulus) (x y : Nat) (hx : x < modulus m) (hy : y < modulus m)
    (h : x * y % modulus m = 1) : y = invMod (modulus m) x := by
  have h0 : x ≠ 0 := by rintro rfl; simp at h
  have hi := mul_invMod m x h0 hx
  have hl := invMod_lt m x
  have e1 : invMod (modulus m) x * (x * y) % modulus m = invMod (modulus m) x := by
    rw [Nat.mul_mod, h, Nat.mul_one, Nat.mod_mod, Nat.mod_eq_of_lt hl]
  have e2 : x * invMod (modulus m) x * y % modulus m = y := by
    rw [Nat.mul_mod, hi, Nat.one_mul, Nat.mod_mod, Nat.mod_eq_of_lt hy]
  calc y = x * invMod (modulus m) x * y % modulus m := e2.symm
    _ = invMod (modulus m) x * (x * y) % modulus m := by rw [Nat.mul_comm x, Nat.mul_assoc]
    _ = invMod (modulus m) x := e1

theorem invMod_ne_zero (m : Modulus) (x : Nat) (h0 : x ≠ 0) (hx : x < modulus m) :
    invMod (modulus m) x ≠ 0 := by
  intro h
  have := mul_invMod m x h0 hx
  rw [h] at this
  simp at this

end Sys2Proof.Machine
end

