-- ==== Sys2Proof/Laws/Curve.lean ====
section
/-! SUPPORT. What the point functions keep: canonical coordinates, and INF as the only written infinity
(42_curve.md R181, R182). -/

namespace Sys2Proof.Machine

/-- A point a function may write: its coordinates are canonical, and with Z = 0 it is INF. -/
def JPoint.tidy (q : JPoint) : Prop := q.canonical = true ∧ (q.z = 0 → q = infinity)

theorem infinity_tidy : infinity.tidy := ⟨by decide, fun _ => rfl⟩

theorem generator_tidy : generator.tidy := ⟨by decide, by decide⟩

theorem p_pos : 0 < Config.p := by decide

/-- A product of nonzero canonical elements is nonzero, because p is prime. -/
theorem fmul_ne_zero (x y : Nat) (hx : x < Config.p) (hy : y < Config.p) (hx0 : x ≠ 0) (hy0 : y ≠ 0) :
    fmul x y ≠ 0 := by
  intro h
  rw [fmul, mulMod, ← Nat.dvd_iff_mod_eq_zero, p_prime.dvd_mul] at h
  obtain h | h := h
  · exact hx0 (Nat.eq_zero_of_dvd_of_lt h hx)
  · exact hy0 (Nat.eq_zero_of_dvd_of_lt h hy)

theorem fmul_lt (x y : Nat) : fmul x y < Config.p := Nat.mod_lt _ p_pos

theorem fsub_lt (x y : Nat) : fsub x y < Config.p := subMod_lt _ _ _ p_pos

/-- Doubling writes a tidy point, whatever it doubles. -/
theorem pointDouble_tidy (q : JPoint) : (pointDouble q).tidy := by
  unfold pointDouble
  split
  · exact infinity_tidy
  · dsimp only
    split
    · exact infinity_tidy
    · exact ⟨(JPoint.canonical_iff _).2 ⟨fsub_lt _ _, fsub_lt _ _, fmul_lt _ _⟩, fun h => absurd h ‹_›⟩

/-- Addition of canonical points writes a tidy point. -/
theorem pointAdd_tidy (q r : JPoint) (hq : q.canonical = true) (hr : r.canonical = true) : (pointAdd q r).tidy := by
  have hq' := (JPoint.canonical_iff q).1 hq
  have hr' := (JPoint.canonical_iff r).1 hr
  unfold pointAdd
  split
  · split
    · exact infinity_tidy
    · exact ⟨hr, fun h => absurd h ‹_›⟩
  · split
    · exact ⟨hq, fun h => absurd h ‹_›⟩
    · dsimp only
      split
      · split
        · exact pointDouble_tidy q
        · exact infinity_tidy
      · rename_i h1 h2 h3
        refine ⟨(JPoint.canonical_iff _).2 ⟨fsub_lt _ _, fsub_lt _ _, fmul_lt _ _⟩, fun h => absurd h ?_⟩
        exact fmul_ne_zero _ _ (fsub_lt _ _) (fmul_lt _ _) h3 (fmul_ne_zero _ _ hq'.2.2 hr'.2.2 h1 h2)

/-- The loop of PMUL keeps its point tidy. -/
theorem scalarMulLoop_tidy (pt : JPoint) (k bit : Nat) (r : JPoint) (hp : pt.canonical = true) (hr : r.tidy) :
    (scalarMulLoop pt k bit r).tidy := by
  induction bit generalizing r with
  | zero => exact hr
  | succ bit ih =>
    rw [scalarMulLoop]
    refine ih _ ?_
    split
    · exact pointAdd_tidy _ _ (pointDouble_tidy r).1 hp
    · exact pointDouble_tidy r

theorem scalarMul_tidy (pt : JPoint) (k : Nat) (hp : pt.canonical = true) : (scalarMul pt k).tidy :=
  scalarMulLoop_tidy pt k 256 infinity hp infinity_tidy

/-- The loop of PSHAM keeps its point tidy. -/
theorem shamirLoop_tidy (t1 t2 t3 : JPoint) (u1 u2 bit : Nat) (r : JPoint) (h1 : t1.canonical = true)
    (h2 : t2.canonical = true) (h3 : t3.canonical = true) (hr : r.tidy) :
    (shamirLoop t1 t2 t3 u1 u2 bit r).tidy := by
  induction bit generalizing r with
  | zero => exact hr
  | succ bit ih =>
    rw [shamirLoop]
    refine ih _ ?_
    cases u1.testBit bit <;> cases u2.testBit bit
    · exact pointDouble_tidy r
    · exact pointAdd_tidy _ _ (pointDouble_tidy r).1 h2
    · exact pointAdd_tidy _ _ (pointDouble_tidy r).1 h1
    · exact pointAdd_tidy _ _ (pointDouble_tidy r).1 h3

theorem shamir_tidy (u1 u2 : Nat) (q : JPoint) (hq : q.canonical = true) : (shamir u1 u2 q).tidy :=
  shamirLoop_tidy _ _ _ _ _ 256 _ generator_tidy.1 hq (pointAdd_tidy _ _ generator_tidy.1 hq).1 infinity_tidy

theorem toAffine_tidy (q : JPoint) : (toAffine q).tidy := by
  unfold toAffine
  split
  · exact infinity_tidy
  · exact ⟨(JPoint.canonical_iff _).2 ⟨fmul_lt _ _, fmul_lt _ _, (by decide : 1 < Config.p)⟩, fun h => by nomatch h⟩

/-- The affine x of a point is the one whose product with Z² is X (42_curve.md R189). -/
theorem affineX_spec (q : JPoint) (hq : q.canonical = true) (hz : q.z ≠ 0) :
    affineX q * q.z ^ 2 % Config.p = q.x := by
  have hc := (JPoint.canonical_iff q).1 hq
  have hi : q.z * invMod Config.p q.z ≡ 1 [MOD Config.p] := by
    rw [Nat.ModEq]
    exact (mul_invMod .p q.z hz hc.2.2).trans (by decide)
  have mm : ∀ a, a % Config.p ≡ a [MOD Config.p] := fun a => Nat.mod_modEq _ _
  have key : affineX q * q.z ^ 2 ≡ q.x [MOD Config.p] := by
    simp only [affineX, fmul, fsq, finv, mulMod]
    calc _ ≡ q.x * (invMod Config.p q.z * invMod Config.p q.z) * q.z ^ 2 [MOD Config.p] :=
          ((mm _).trans ((mm _).mul_left _)).mul_right _
      _ = q.x * (q.z * invMod Config.p q.z) * (q.z * invMod Config.p q.z) := by ring
      _ ≡ q.x * 1 * 1 [MOD Config.p] := (hi.mul_left _).mul hi
      _ = q.x := by ring
  exact (Nat.mod_eq_of_modEq key hc.1)

/-- The affine y of a point is the one whose product with Z³ is Y (42_curve.md R189). -/
theorem affineY_spec (q : JPoint) (hq : q.canonical = true) (hz : q.z ≠ 0) :
    affineY q * q.z ^ 3 % Config.p = q.y := by
  have hc := (JPoint.canonical_iff q).1 hq
  have hi : q.z * invMod Config.p q.z ≡ 1 [MOD Config.p] := by
    rw [Nat.ModEq]
    exact (mul_invMod .p q.z hz hc.2.2).trans (by decide)
  have mm : ∀ a, a % Config.p ≡ a [MOD Config.p] := fun a => Nat.mod_modEq _ _
  have key : affineY q * q.z ^ 3 ≡ q.y [MOD Config.p] := by
    simp only [affineY, fmul, fsq, finv, mulMod]
    calc _ ≡ q.y * (invMod Config.p q.z * (invMod Config.p q.z * invMod Config.p q.z)) * q.z ^ 3 [MOD Config.p] :=
          ((mm _).trans (((mm _).trans ((mm _).mul_left _)).mul_left _)).mul_right _
      _ = q.y * (q.z * invMod Config.p q.z) * (q.z * invMod Config.p q.z) * (q.z * invMod Config.p q.z) := by ring
      _ ≡ q.y * 1 * 1 * 1 [MOD Config.p] := ((hi.mul_left _).mul hi).mul hi
      _ = q.y := by ring
  exact (Nat.mod_eq_of_modEq key hc.2.1)

end Sys2Proof.Machine
end

