-- ==== Sys2Proof/Laws/PerInstr.lean ====
section
/-! SUPPORT. For each command, that its encoding has its own row of the opcode map (30_encoding.md R106). -/

namespace Sys2Proof

/-! ## Fields of the two formats (30_encoding.md R101, R102) -/

/-- Masking a format R word masks its fields. -/
theorem formatR_and (o o' : BitVec 6) (m m' : BitVec 1) (d d' a a' b b' c c' z : BitVec 5) :
    ((o ++ m ++ d ++ a ++ b ++ c ++ 0#5 : Word32) &&& (o' ++ m' ++ d' ++ a' ++ b' ++ c' ++ z : Word32)) =
      ((o &&& o') ++ (m &&& m') ++ (d &&& d') ++ (a &&& a') ++ (b &&& b') ++ (c &&& c') ++ 0#5 : Word32) := by
  have h := BitVec.and_append (x₁ := o ++ m ++ d ++ a ++ b ++ c) (y₁ := 0#5)
    (x₂ := o' ++ m' ++ d' ++ a' ++ b' ++ c') (y₂ := z)
  refine h.trans ?_
  rw [BitVec.and_append, BitVec.and_append, BitVec.and_append, BitVec.and_append, BitVec.and_append,
    BitVec.zero_and]

/-- Masking a format I word masks its fields. -/
theorem formatI_and (o o' : BitVec 6) (m m' : BitVec 1) (d d' : BitVec 5) (z z' : BitVec 14) (k k' : BitVec 6) :
    ((o ++ m ++ d ++ z ++ k : Word32) &&& (o' ++ m' ++ d' ++ z' ++ k' : Word32)) =
      ((o &&& o') ++ (m &&& m') ++ (d &&& d') ++ (z &&& z') ++ (k &&& k') : Word32) := by
  have h := BitVec.and_append (x₁ := o ++ m ++ d ++ z) (y₁ := k) (x₂ := o' ++ m' ++ d' ++ z') (y₂ := k')
  refine h.trans ?_
  rw [BitVec.and_append, BitVec.and_append, BitVec.and_append]

/-- The fields of a format R word. -/
theorem formatR_fields (o : BitVec 6) (m : BitVec 1) (d a b c z : BitVec 5) :
    let w : Word32 := o ++ m ++ d ++ a ++ b ++ c ++ z
    w.extractLsb' 26 6 = o ∧ w.extractLsb' 25 1 = m ∧ w.extractLsb' 20 5 = d ∧ w.extractLsb' 15 5 = a ∧
      w.extractLsb' 10 5 = b ∧ w.extractLsb' 5 5 = c := by
  have key : ∀ k n, (o ++ m ++ d ++ a ++ b ++ c ++ z : Word32).extractLsb' k n =
      ((o ++ m ++ d ++ a ++ b ++ c ++ z : BitVec (6 + 1 + 5 + 5 + 5 + 5 + 5)).extractLsb' k n) := fun _ _ => rfl
  refine ⟨?_, ?_, ?_, ?_, ?_, ?_⟩ <;>
  · rw [key]
    apply BitVec.eq_of_getLsbD_eq
    intro i hi
    simp only [BitVec.getLsbD_extractLsb', BitVec.getLsbD_append, hi, decide_true, Bool.true_and]
    repeat' split
    all_goals first | omega | (congr 1; omega)

/-- The fields of a format I word. -/
theorem formatI_fields (o : BitVec 6) (m : BitVec 1) (d : BitVec 5) (z : BitVec 14) (k : BitVec 6) :
    let w : Word32 := o ++ m ++ d ++ z ++ k
    w.extractLsb' 26 6 = o ∧ w.extractLsb' 20 5 = d ∧ w.extractLsb' 0 6 = k := by
  have key : ∀ j n, (o ++ m ++ d ++ z ++ k : Word32).extractLsb' j n =
      ((o ++ m ++ d ++ z ++ k : BitVec (6 + 1 + 5 + 14 + 6)).extractLsb' j n) := fun _ _ => rfl
  refine ⟨?_, ?_, ?_⟩ <;>
  · rw [key]
    apply BitVec.eq_of_getLsbD_eq
    intro i hi
    simp only [BitVec.getLsbD_extractLsb', BitVec.getLsbD_append, hi, decide_true, Bool.true_and]
    repeat' split
    all_goals first | omega | (congr 1; omega)

theorem opcField_formatR (o : BitVec 6) (m : BitVec 1) (d a b c : Reg) : opcField (formatR o m d a b c) = o :=
  (formatR_fields o m _ _ _ _ _).1

theorem rdField_formatR (o : BitVec 6) (m : BitVec 1) (d a b c : Reg) : rdField (formatR o m d a b c) = d :=
  congrArg BitVec.toFin (formatR_fields o m (regBits d) _ _ _ _).2.2.1

theorem raField_formatR (o : BitVec 6) (m : BitVec 1) (d a b c : Reg) : raField (formatR o m d a b c) = a :=
  congrArg BitVec.toFin (formatR_fields o m _ (regBits a) _ _ _).2.2.2.1

theorem rbField_formatR (o : BitVec 6) (m : BitVec 1) (d a b c : Reg) : rbField (formatR o m d a b c) = b :=
  congrArg BitVec.toFin (formatR_fields o m _ _ (regBits b) _ _).2.2.2.2.1

theorem rcField_formatR (o : BitVec 6) (m : BitVec 1) (d a b c : Reg) : rcField (formatR o m d a b c) = c :=
  congrArg BitVec.toFin (formatR_fields o m _ _ _ (regBits c) _).2.2.2.2.2

theorem opcField_formatI (o : BitVec 6) (d : Reg) (k : BitVec 6) : opcField (formatI o d k) = o :=
  (formatI_fields o _ _ _ _).1

theorem rdField_formatI (o : BitVec 6) (d : Reg) (k : BitVec 6) : rdField (formatI o d k) = d :=
  congrArg BitVec.toFin (formatI_fields o _ (regBits d) _ _).2.1

theorem imm6Field_formatI (o : BitVec 6) (d : Reg) (k : BitVec 6) : imm6Field (formatI o d k) = k :=
  (formatI_fields o _ _ _ k).2.2

theorem mField_formatR (o : BitVec 6) (m : Modulus) (d a b c : Reg) : mField (formatR o m.bit d a b c) = m := by
  have h := (formatR_fields o m.bit (regBits d) (regBits a) (regBits b) (regBits c) 0#5).2.1
  have hb : ∀ c : Word32, c.getLsbD 25 = (c.extractLsb' 25 1).getLsbD 0 := fun c => by simp
  rw [mField, hb, formatR, h]
  cases m <;> rfl

end Sys2Proof

namespace Sys2Proof.Laws

/-- The row number k of the opcode map holds the command's encoding and builds the command from it. -/
def RowEncoding.Statement (i : Instr) : Prop :=
  ∃ (k : Nat) (row : Row), opcodeMap[k]? = some row ∧ row.fits (encode i) = true ∧ row.build (encode i) = i

theorem RowEncoding.nop : RowEncoding.Statement (.nop) := by
  exact ⟨0, _, rfl, by decide, rfl⟩

theorem RowEncoding.mov (rd ra : Reg) : RowEncoding.Statement (.mov rd ra) := by
  refine ⟨1, _, rfl, beq_iff_eq.2 ((formatR_and 0x01#6 63#6 0#1 1#1 (regBits rd) 0#5 (regBits ra) 0#5 0#5 31#5 0#5 31#5 31#5).trans ?_), ?_⟩
  · simp
  · change Instr.mov (rdField (encode (.mov rd ra))) (raField (encode (.mov rd ra))) = _
    simp only [encode, rdField_formatR, raField_formatR]

theorem RowEncoding.ldc (rd : Reg) (k : BitVec 6) : RowEncoding.Statement (.ldc rd k) := by
  refine ⟨2, _, rfl, beq_iff_eq.2 ((formatI_and 0x02#6 63#6 0#1 1#1 (regBits rd) 0#5 0#14 0x3FFF#14 k 0#6).trans ?_), ?_⟩
  · simp
  · change Instr.ldc (rdField (encode (.ldc rd k))) (imm6Field (encode (.ldc rd k))) = _
    simp only [encode, rdField_formatI, imm6Field_formatI]

theorem RowEncoding.cmp (ra rb : Reg) : RowEncoding.Statement (.cmp ra rb) := by
  refine ⟨3, _, rfl, beq_iff_eq.2 ((formatR_and 0x03#6 63#6 0#1 1#1 0#5 31#5 (regBits ra) 0#5 (regBits rb) 0#5 0#5 31#5 31#5).trans ?_), ?_⟩
  · simp
  · change Instr.cmp (raField (encode (.cmp ra rb))) (rbField (encode (.cmp ra rb))) = _
    simp only [encode, raField_formatR, rbField_formatR]

theorem RowEncoding.madd (m : Modulus) (rd ra rb : Reg) : RowEncoding.Statement (.madd m rd ra rb) := by
  refine ⟨4, _, rfl, beq_iff_eq.2 ((formatR_and 0x08#6 63#6 m.bit 0#1 (regBits rd) 0#5 (regBits ra) 0#5 (regBits rb) 0#5 0#5 31#5 31#5).trans ?_), ?_⟩
  · simp
  · change Instr.madd (mField (encode (.madd m rd ra rb))) (rdField (encode (.madd m rd ra rb))) (raField (encode (.madd m rd ra rb))) (rbField (encode (.madd m rd ra rb))) = _
    simp only [encode, rdField_formatR, raField_formatR, rbField_formatR, mField_formatR]

theorem RowEncoding.msub (m : Modulus) (rd ra rb : Reg) : RowEncoding.Statement (.msub m rd ra rb) := by
  refine ⟨5, _, rfl, beq_iff_eq.2 ((formatR_and 0x09#6 63#6 m.bit 0#1 (regBits rd) 0#5 (regBits ra) 0#5 (regBits rb) 0#5 0#5 31#5 31#5).trans ?_), ?_⟩
  · simp
  · change Instr.msub (mField (encode (.msub m rd ra rb))) (rdField (encode (.msub m rd ra rb))) (raField (encode (.msub m rd ra rb))) (rbField (encode (.msub m rd ra rb))) = _
    simp only [encode, rdField_formatR, raField_formatR, rbField_formatR, mField_formatR]

theorem RowEncoding.mneg (m : Modulus) (rd ra : Reg) : RowEncoding.Statement (.mneg m rd ra) := by
  refine ⟨6, _, rfl, beq_iff_eq.2 ((formatR_and 0x0A#6 63#6 m.bit 0#1 (regBits rd) 0#5 (regBits ra) 0#5 0#5 31#5 0#5 31#5 31#5).trans ?_), ?_⟩
  · simp
  · change Instr.mneg (mField (encode (.mneg m rd ra))) (rdField (encode (.mneg m rd ra))) (raField (encode (.mneg m rd ra))) = _
    simp only [encode, rdField_formatR, raField_formatR, mField_formatR]

theorem RowEncoding.mmul (m : Modulus) (rd ra rb : Reg) : RowEncoding.Statement (.mmul m rd ra rb) := by
  refine ⟨7, _, rfl, beq_iff_eq.2 ((formatR_and 0x0B#6 63#6 m.bit 0#1 (regBits rd) 0#5 (regBits ra) 0#5 (regBits rb) 0#5 0#5 31#5 31#5).trans ?_), ?_⟩
  · simp
  · change Instr.mmul (mField (encode (.mmul m rd ra rb))) (rdField (encode (.mmul m rd ra rb))) (raField (encode (.mmul m rd ra rb))) (rbField (encode (.mmul m rd ra rb))) = _
    simp only [encode, rdField_formatR, raField_formatR, rbField_formatR, mField_formatR]

theorem RowEncoding.msqr (m : Modulus) (rd ra : Reg) : RowEncoding.Statement (.msqr m rd ra) := by
  refine ⟨8, _, rfl, beq_iff_eq.2 ((formatR_and 0x0C#6 63#6 m.bit 0#1 (regBits rd) 0#5 (regBits ra) 0#5 0#5 31#5 0#5 31#5 31#5).trans ?_), ?_⟩
  · simp
  · change Instr.msqr (mField (encode (.msqr m rd ra))) (rdField (encode (.msqr m rd ra))) (raField (encode (.msqr m rd ra))) = _
    simp only [encode, rdField_formatR, raField_formatR, mField_formatR]

theorem RowEncoding.minv (m : Modulus) (rd ra : Reg) : RowEncoding.Statement (.minv m rd ra) := by
  refine ⟨9, _, rfl, beq_iff_eq.2 ((formatR_and 0x0D#6 63#6 m.bit 0#1 (regBits rd) 0#5 (regBits ra) 0#5 0#5 31#5 0#5 31#5 31#5).trans ?_), ?_⟩
  · simp
  · change Instr.minv (mField (encode (.minv m rd ra))) (rdField (encode (.minv m rd ra))) (raField (encode (.minv m rd ra))) = _
    simp only [encode, rdField_formatR, raField_formatR, mField_formatR]

theorem RowEncoding.mred (m : Modulus) (rd ra : Reg) : RowEncoding.Statement (.mred m rd ra) := by
  refine ⟨10, _, rfl, beq_iff_eq.2 ((formatR_and 0x0E#6 63#6 m.bit 0#1 (regBits rd) 0#5 (regBits ra) 0#5 0#5 31#5 0#5 31#5 31#5).trans ?_), ?_⟩
  · simp
  · change Instr.mred (mField (encode (.mred m rd ra))) (rdField (encode (.mred m rd ra))) (raField (encode (.mred m rd ra))) = _
    simp only [encode, rdField_formatR, raField_formatR, mField_formatR]

theorem RowEncoding.mont (m : Modulus) (rd ra rb : Reg) : RowEncoding.Statement (.mont m rd ra rb) := by
  refine ⟨11, _, rfl, beq_iff_eq.2 ((formatR_and 0x0F#6 63#6 m.bit 0#1 (regBits rd) 0#5 (regBits ra) 0#5 (regBits rb) 0#5 0#5 31#5 31#5).trans ?_), ?_⟩
  · simp
  · change Instr.mont (mField (encode (.mont m rd ra rb))) (rdField (encode (.mont m rd ra rb))) (raField (encode (.mont m rd ra rb))) (rbField (encode (.mont m rd ra rb))) = _
    simp only [encode, rdField_formatR, raField_formatR, rbField_formatR, mField_formatR]

theorem RowEncoding.tomont (m : Modulus) (rd ra : Reg) : RowEncoding.Statement (.tomont m rd ra) := by
  refine ⟨12, _, rfl, beq_iff_eq.2 ((formatR_and 0x10#6 63#6 m.bit 0#1 (regBits rd) 0#5 (regBits ra) 0#5 0#5 31#5 0#5 31#5 31#5).trans ?_), ?_⟩
  · simp
  · change Instr.tomont (mField (encode (.tomont m rd ra))) (rdField (encode (.tomont m rd ra))) (raField (encode (.tomont m rd ra))) = _
    simp only [encode, rdField_formatR, raField_formatR, mField_formatR]

theorem RowEncoding.frommont (m : Modulus) (rd ra : Reg) : RowEncoding.Statement (.frommont m rd ra) := by
  refine ⟨13, _, rfl, beq_iff_eq.2 ((formatR_and 0x11#6 63#6 m.bit 0#1 (regBits rd) 0#5 (regBits ra) 0#5 0#5 31#5 0#5 31#5 31#5).trans ?_), ?_⟩
  · simp
  · change Instr.frommont (mField (encode (.frommont m rd ra))) (rdField (encode (.frommont m rd ra))) (raField (encode (.frommont m rd ra))) = _
    simp only [encode, rdField_formatR, raField_formatR, mField_formatR]

theorem RowEncoding.pdbl (rd ra : Reg) : RowEncoding.Statement (.pdbl rd ra) := by
  refine ⟨14, _, rfl, beq_iff_eq.2 ((formatR_and 0x18#6 63#6 0#1 1#1 (regBits rd) 0#5 (regBits ra) 0#5 0#5 31#5 0#5 31#5 31#5).trans ?_), ?_⟩
  · simp
  · change Instr.pdbl (rdField (encode (.pdbl rd ra))) (raField (encode (.pdbl rd ra))) = _
    simp only [encode, rdField_formatR, raField_formatR]

theorem RowEncoding.padd (rd ra rb : Reg) : RowEncoding.Statement (.padd rd ra rb) := by
  refine ⟨15, _, rfl, beq_iff_eq.2 ((formatR_and 0x19#6 63#6 0#1 1#1 (regBits rd) 0#5 (regBits ra) 0#5 (regBits rb) 0#5 0#5 31#5 31#5).trans ?_), ?_⟩
  · simp
  · change Instr.padd (rdField (encode (.padd rd ra rb))) (raField (encode (.padd rd ra rb))) (rbField (encode (.padd rd ra rb))) = _
    simp only [encode, rdField_formatR, raField_formatR, rbField_formatR]

theorem RowEncoding.pmul (rd ra rb : Reg) : RowEncoding.Statement (.pmul rd ra rb) := by
  refine ⟨16, _, rfl, beq_iff_eq.2 ((formatR_and 0x1A#6 63#6 0#1 1#1 (regBits rd) 0#5 (regBits ra) 0#5 (regBits rb) 0#5 0#5 31#5 31#5).trans ?_), ?_⟩
  · simp
  · change Instr.pmul (rdField (encode (.pmul rd ra rb))) (raField (encode (.pmul rd ra rb))) (rbField (encode (.pmul rd ra rb))) = _
    simp only [encode, rdField_formatR, raField_formatR, rbField_formatR]

theorem RowEncoding.psham (rd ra rb rc : Reg) : RowEncoding.Statement (.psham rd ra rb rc) := by
  refine ⟨17, _, rfl, beq_iff_eq.2 ((formatR_and 0x1B#6 63#6 0#1 1#1 (regBits rd) 0#5 (regBits ra) 0#5 (regBits rb) 0#5 (regBits rc) 0#5 31#5).trans ?_), ?_⟩
  · simp
  · change Instr.psham (rdField (encode (.psham rd ra rb rc))) (raField (encode (.psham rd ra rb rc))) (rbField (encode (.psham rd ra rb rc))) (rcField (encode (.psham rd ra rb rc))) = _
    simp only [encode, rdField_formatR, raField_formatR, rbField_formatR, rcField_formatR]

theorem RowEncoding.paff (rd ra : Reg) : RowEncoding.Statement (.paff rd ra) := by
  refine ⟨18, _, rfl, beq_iff_eq.2 ((formatR_and 0x1C#6 63#6 0#1 1#1 (regBits rd) 0#5 (regBits ra) 0#5 0#5 31#5 0#5 31#5 31#5).trans ?_), ?_⟩
  · simp
  · change Instr.paff (rdField (encode (.paff rd ra))) (raField (encode (.paff rd ra))) = _
    simp only [encode, rdField_formatR, raField_formatR]

theorem RowEncoding.pchk (ra : Reg) : RowEncoding.Statement (.pchk ra) := by
  refine ⟨19, _, rfl, beq_iff_eq.2 ((formatR_and 0x1D#6 63#6 0#1 1#1 0#5 31#5 (regBits ra) 0#5 0#5 31#5 0#5 31#5 31#5).trans ?_), ?_⟩
  · simp
  · change Instr.pchk (raField (encode (.pchk ra))) = _
    simp only [encode, raField_formatR]

theorem RowEncoding.shainit : RowEncoding.Statement (.shainit) := by
  exact ⟨20, _, rfl, by decide, rfl⟩

theorem RowEncoding.shablk : RowEncoding.Statement (.shablk) := by
  exact ⟨21, _, rfl, by decide, rfl⟩

theorem RowEncoding.shafin (rd : Reg) (len : BitVec 6) : RowEncoding.Statement (.shafin rd len) := by
  refine ⟨22, _, rfl, beq_iff_eq.2 ((formatI_and 0x22#6 63#6 0#1 1#1 (regBits rd) 0#5 0#14 0x3FFF#14 len 0#6).trans ?_), ?_⟩
  · simp
  · change Instr.shafin (rdField (encode (.shafin rd len))) (imm6Field (encode (.shafin rd len))) = _
    simp only [encode, rdField_formatI, imm6Field_formatI]

theorem RowEncoding.verify (ra rb rc : Reg) : RowEncoding.Statement (.verify ra rb rc) := by
  refine ⟨23, _, rfl, beq_iff_eq.2 ((formatR_and 0x28#6 63#6 0#1 1#1 0#5 31#5 (regBits ra) 0#5 (regBits rb) 0#5 (regBits rc) 0#5 31#5).trans ?_), ?_⟩
  · simp
  · change Instr.verify (raField (encode (.verify ra rb rc))) (rbField (encode (.verify ra rb rc))) (rcField (encode (.verify ra rb rc))) = _
    simp only [encode, raField_formatR, rbField_formatR, rcField_formatR]

end Sys2Proof.Laws
end

