-- ==== Sys2Proof/Laws/Step.lean ====
section
/-! SUPPORT. What a step can do, said once: which move it takes, what a host access can answer, and what each accepted
target does. Invariants are proved from these, not by unfolding step. -/

namespace Sys2Proof.Machine

/-! ## Which move a step takes -/

theorem step_empty (s : State) (h : s.schedule = []) : step s = .next (coreTurn s) := by
  rw [step, nextMove, h]

theorem step_turn (s : State) (t : Turn) (rest : List Turn) (h : s.schedule = t :: rest) :
    step s = takeTurn t { s with schedule := rest } := by
  rw [step, nextMove, h]

/-- A host access outside reset is made; its move is off the schedule. -/
theorem step_host (s : State) (a : Access) (rest : List Turn) (h : s.schedule = .host a :: rest)
    (hr : s.inReset = false) : step s = access a { s with schedule := rest } := by
  rw [step_turn s _ rest h]
  exact if_neg (by simp [hr])

/-- A host access while the reset input is asserted is the one fault (70_reset_and_hazards.md R290). -/
theorem step_host_inReset (s : State) (a : Access) (rest : List Turn) (h : s.schedule = .host a :: rest)
    (hr : s.inReset = true) : step s = .fault .accessInReset := by
  rw [step_turn s _ rest h]
  exact if_pos hr

theorem step_core (s : State) (rest : List Turn) (h : s.schedule = .core :: rest) :
    step s = .next (coreTurn { s with schedule := rest }) := by
  rw [step_turn s _ rest h]; rfl

theorem step_assert (s : State) (rest : List Turn) (h : s.schedule = .resetAssert :: rest) :
    step s = .next ({ s with schedule := rest } : State).assertReset := by
  rw [step_turn s _ rest h]; rfl

theorem step_release (s : State) (rest : List Turn) (h : s.schedule = .resetRelease :: rest) :
    step s = .next ({ s with schedule := rest } : State).releaseReset := by
  rw [step_turn s _ rest h]; rfl

/-- A completion and an EVENT write in the same cycle, out of reset (60_exceptions.md R267). -/
theorem step_coreWithClear (s : State) (d : Word32) (rest : List Turn) (h : s.schedule = .coreWithClear d :: rest)
    (hr : s.inReset = false) : step s = .next (completeWithClear d (s.afterAccess rest .okay)) := by
  rw [step_turn s _ rest h]
  exact if_neg (by simp [hr])

/-- The host's part of that move has no place while the reset input is asserted. -/
theorem step_coreWithClear_inReset (s : State) (d : Word32) (rest : List Turn)
    (h : s.schedule = .coreWithClear d :: rest) (hr : s.inReset = true) : step s = .fault .accessInReset := by
  rw [step_turn s _ rest h]
  exact if_pos hr

/-- Everything a step that answers a next state can have done. -/
theorem step_cases (s s' : State) (h : step s = .next s') :
    (s.schedule = [] ∧ s' = coreTurn s) ∨
    (∃ rest, s.schedule = .core :: rest ∧ s' = coreTurn { s with schedule := rest }) ∨
    (∃ rest, s.schedule = .resetAssert :: rest ∧ s' = ({ s with schedule := rest } : State).assertReset) ∨
    (∃ rest, s.schedule = .resetRelease :: rest ∧
      s' = ({ s with schedule := rest } : State).releaseReset) ∨
    (∃ a rest, s.schedule = .host a :: rest ∧ s.inReset = false ∧
      access a { s with schedule := rest } = .next s') ∨
    (∃ d rest, s.schedule = .coreWithClear d :: rest ∧ s.inReset = false ∧
      s' = completeWithClear d (s.afterAccess rest .okay)) := by
  cases hs : s.schedule with
  | nil =>
    rw [step_empty s hs] at h
    injection h with h
    exact .inl ⟨rfl, h.symm⟩
  | cons t rest =>
    right
    cases t with
    | core =>
      rw [step_core s rest hs] at h
      injection h with h
      exact .inl ⟨rest, rfl, h.symm⟩
    | resetAssert =>
      rw [step_assert s rest hs] at h
      injection h with h
      exact .inr (.inl ⟨rest, rfl, h.symm⟩)
    | resetRelease =>
      rw [step_release s rest hs] at h
      injection h with h
      exact .inr (.inr (.inl ⟨rest, rfl, h.symm⟩))
    | host a =>
      cases hr : s.inReset with
      | true => rw [step_host_inReset s a rest hs hr] at h; nomatch h
      | false =>
        rw [step_host s a rest hs hr] at h
        exact .inr (.inr (.inr (.inl ⟨a, rest, rfl, rfl, by simpa only [hr] using h⟩)))
    | coreWithClear d =>
      cases hr : s.inReset with
      | true => rw [step_coreWithClear_inReset s d rest hs hr] at h; nomatch h
      | false =>
        rw [step_coreWithClear s d rest hs hr] at h
        injection h with h
        exact .inr (.inr (.inr (.inr ⟨d, rest, rfl, rfl, h.symm⟩)))

/-! ## What a host access can do -/

/-- An accepted read answers its target's value and changes nothing of the core (20_memory.md R81). -/
theorem access_read (s : State) (off : Offset) (width : BusWidth) (t : Target)
    (h : acceptedTarget off width = some t) :
    access (.read off width) s = .next (s.respond (.data (s.readTarget t))) := by
  rw [access, h]

/-- An accepted write acts on its target after its OKAY response (20_memory.md R82). -/
theorem access_write (s : State) (off : Offset) (width : BusWidth) (d : Word32) (t : Target)
    (h : acceptedTarget off width = some t) :
    access (.write off width fullStrobes d) s = writeTarget t d (s.respond .okay) := by
  rw [access, h]; exact if_pos rfl

/-- An access that names no target is a bus error and changes nothing of the core (20_memory.md R75). -/
theorem access_busError (s : State) (off : Offset) (width : BusWidth) (strobes : BitVec 4) (d : Word32)
    (h : acceptedTarget off width = none) :
    access (.read off width) s = .next (s.respond .busError) ∧
      access (.write off width strobes d) s = .next (s.respond .busError) := by
  rw [access, access, h]; exact ⟨rfl, rfl⟩

/-- Partial strobes are a bus error (20_memory.md R73). -/
theorem access_partial (s : State) (off : Offset) (width : BusWidth) (strobes : BitVec 4) (d : Word32)
    (h : strobes ≠ fullStrobes) : access (.write off width strobes d) s = .next (s.respond .busError) := by
  rw [access]
  split
  · exact if_neg h
  · rfl

/-- Everything an access can do: it always answers one response, and a write may act on one target. -/
theorem access_cases (a : Access) (s s' : State) (h : access a s = .next s') :
    (∃ r, s' = s.respond r) ∨
    (∃ t d off, acceptedTarget off .w32 = some t ∧ writeTarget t d (s.respond .okay) = .next s') := by
  cases a with
  | read off width =>
    rw [access] at h
    split at h <;> · injection h with h; exact .inl ⟨_, h.symm⟩
  | write off width strobes d =>
    rw [access] at h
    split at h
    · rename_i t ht
      split at h
      · have hw : width = .w32 := by
          unfold acceptedTarget at ht
          split at ht
          · rename_i hc; exact hc.1
          · nomatch ht
        exact .inr ⟨t, d, off, hw ▸ ht, h⟩
      · injection h with h; exact .inl ⟨_, h.symm⟩
    · injection h with h; exact .inl ⟨_, h.symm⟩

/-- An `if` that is not one of its branches' value took the other. -/
theorem ite_eq_of_ne {α : Type} {c : Prop} [Decidable c] {x y z : α} (h : (if c then x else y) = z) (hx : x ≠ z) :
    y = z := by
  by_cases hc : c
  · rw [if_pos hc] at h; exact absurd h hx
  · rwa [if_neg hc] at h

/-- What an offset that names a word of MSGBUF is (20_memory.md R71). -/
theorem windowTarget_msgbuf (o k : Nat) (h : windowTarget o = some (.msgbuf k)) :
    0x040 ≤ o ∧ o < 0x080 ∧ k = (o - 0x040) / 4 := by
  unfold windowTarget at h
  iterate 10 replace h := ite_eq_of_ne h (by nofun)
  by_cases hc : 0x040 ≤ o ∧ o < 0x080
  · rw [if_pos hc] at h
    injection h with h
    injection h with h
    exact ⟨hc.1, hc.2, h.symm⟩
  · rw [if_neg hc] at h
    exact absurd (ite_eq_of_ne h (by nofun)) (by nofun)

/-- What an offset that names a word of a register is (20_memory.md R71). -/
theorem windowTarget_w (o : Nat) (i : Reg) (k : Nat) (h : windowTarget o = some (.w i k)) :
    0x100 ≤ o ∧ o < 0x500 ∧ i = windowReg o ∧ k = (o - 0x100) % 32 / 4 := by
  unfold windowTarget at h
  iterate 11 replace h := ite_eq_of_ne h (by nofun)
  by_cases hc : 0x100 ≤ o ∧ o < 0x500
  · rw [if_pos hc] at h
    injection h with h
    injection h with h1 h2
    exact ⟨hc.1, hc.2, h1.symm, h2.symm⟩
  · rw [if_neg hc] at h; nomatch h

theorem windowTarget_of_msgbuf (o : Nat) (h : 0x040 ≤ o ∧ o < 0x080) :
    windowTarget o = some (.msgbuf ((o - 0x040) / 4)) := by
  unfold windowTarget
  iterate 10 rw [if_neg (by omega)]
  rw [if_pos h]

theorem windowTarget_of_w (o : Nat) (h : 0x100 ≤ o ∧ o < 0x500) :
    windowTarget o = some (.w (windowReg o) ((o - 0x100) % 32 / 4)) := by
  unfold windowTarget
  iterate 11 rw [if_neg (by omega)]
  rw [if_pos h]

/-- Reserved offsets name nothing (20_memory.md R71, R76). -/
theorem windowTarget_reserved (o : Nat)
    (h : (0x028 ≤ o ∧ o < 0x040) ∨ (0x080 ≤ o ∧ o < 0x100) ∨ 0x500 ≤ o) : windowTarget o = none := by
  unfold windowTarget
  iterate 12 rw [if_neg (by omega)]

/-- The target of an accepted access (20_memory.md R73, R74). -/
theorem acceptedTarget_some (off : Offset) (width : BusWidth) (t : Target) (h : acceptedTarget off width = some t) :
    width = .w32 ∧ off.toNat % 4 = 0 ∧ windowTarget off.toNat = some t := by
  unfold acceptedTarget at h
  split at h
  · rename_i hc; exact ⟨hc.1, hc.2, h⟩
  · nomatch h

/-- An aligned 32-bit access is accepted as its offset says. -/
theorem acceptedTarget_word (off : Offset) (h : off.toNat % 4 = 0) :
    acceptedTarget off .w32 = windowTarget off.toNat := if_pos ⟨rfl, h⟩

/-- A word of MSGBUF named by an offset is one of the 16 (20_memory.md R71). -/
theorem acceptedTarget_msgbuf (off : Offset) (width : BusWidth) (k : Nat)
    (h : acceptedTarget off width = some (.msgbuf k)) : k < 16 := by
  have := windowTarget_msgbuf _ _ (acceptedTarget_some _ _ _ h).2.2
  omega

/-- A word of a register named by an offset is one of the 8 (20_memory.md R71). -/
theorem acceptedTarget_w (off : Offset) (width : BusWidth) (i : Reg) (k : Nat)
    (h : acceptedTarget off width = some (.w i k)) : k < 8 := by
  have := windowTarget_w _ _ _ (acceptedTarget_some _ _ _ h).2.2
  omega

/-- Everything a write to a target can do: the table of 20_memory.md R82. -/
theorem writeTarget_cases (t : Target) (d : Word32) (s s' : State) (h : writeTarget t d s = .next s') :
    s' = s ∨ (t = .cmd ∧ writeCmd d s = .next s') ∨ (s.busy = true ∧ s' = overrun d s) ∨
    (∃ i k, t = .w i k ∧ s.busy = false ∧ s' = s.setRegLane i k d) ∨
    (∃ k, t = .msgbuf k ∧ s.busy = false ∧ s' = s.setMsgbufWord k d) ∨
    s' = s.clearEvents d ∨ s' = s.writeCtrl d := by
  cases t with
  | cmd => exact .inr (.inl ⟨rfl, h⟩)
  | w i k =>
    injection h with h
    cases hb : s.busy
    · rw [hb] at h
      exact .inr (.inr (.inr (.inl ⟨i, k, rfl, rfl, h.symm⟩)))
    · rw [hb] at h
      exact .inr (.inr (.inl ⟨rfl, h.symm⟩))
  | msgbuf k =>
    injection h with h
    cases hb : s.busy
    · rw [hb] at h
      exact .inr (.inr (.inr (.inr (.inl ⟨k, rfl, rfl, h.symm⟩))))
    · rw [hb] at h
      exact .inr (.inr (.inl ⟨rfl, h.symm⟩))
  | event => injection h with h; exact .inr (.inr (.inr (.inr (.inr (.inl h.symm)))))
  | ctrl => injection h with h; exact .inr (.inr (.inr (.inr (.inr (.inr h.symm)))))
  | id | version | status | errinfo | errcmd | msgbitsLo | msgbitsHi =>
    injection h with h; exact .inl h.symm

/-! ## Command words -/

/-- The result a command word issues with. -/
def wordResult (c : Word32) (s : State) : Result :=
  match decode c with
  | .ok i => issuedResult i s
  | .error _ => .error .illegalCmd

/-- A legal word is executed. -/
theorem writeCmd_ok (c : Word32) (i : Instr) (s : State) (h : decode c = .ok i) : writeCmd c s = exec i s := by
  rw [writeCmd, h]

/-- An illegal word issues with ILLEGAL_CMD (30_encoding.md R108). -/
theorem writeCmd_illegal (c : Word32) (why : Illegal) (s : State) (h : decode c = .error why) :
    writeCmd c s = .next (issueWord c (.error .illegalCmd) s) := by
  rw [writeCmd, h]

/-- A write to CMD always answers a next state. -/
theorem writeCmd_answers (c : Word32) (s : State) : ∃ t, writeCmd c s = .next t := by
  cases h : decode c with
  | ok i => rw [writeCmd_ok c i s h, exec_eq_issue]; exact ⟨_, rfl⟩
  | error why => rw [writeCmd_illegal c why s h]; exact ⟨_, rfl⟩

/-! ## The core's turn and the reset input -/

theorem coreTurn_outOfReset (s : State) (h : s.inReset = false) : coreTurn s = complete s :=
  if_neg (by simp [h])

theorem coreTurn_inReset (s : State) (h : s.inReset = true) : coreTurn s = s := if_pos h

theorem releaseReset_asserted (s : State) (h : s.inReset = true) :
    s.releaseReset = { State.reset with schedule := s.schedule, responses := s.responses } := by
  rw [State.releaseReset, if_pos h]; rfl

theorem releaseReset_released (s : State) (h : s.inReset = false) : s.releaseReset = s :=
  if_neg (by simp [h])

end Sys2Proof.Machine
end

