-- ==== Sys2Proof/Machine/Assembler.lean ====
section
/-! DEFINITION. The assembler's syntax and its pseudo-instructions (30_encoding.md R112, R113). -/

namespace Sys2Proof.Machine

/-- The suffix of a modular command; there is no default (30_encoding.md R112). -/
def Modulus.suffix : Modulus → String
  | .p => ".P"
  | .n => ".N"

/-- A register as it is written, W0 to W31 (30_encoding.md R112). -/
def regText (r : Reg) : String := "W" ++ toString r.val

/-- An immediate in decimal (30_encoding.md R112). -/
def immText (k : BitVec 6) : String := "#" ++ toString k.toNat

/-- A mnemonic followed by its operands, separated by commas (30_encoding.md R112). -/
def asmLine (mnemonic : String) (operands : List String) : String :=
  if operands = [] then mnemonic else mnemonic ++ " " ++ ", ".intercalate operands

/-- A command in assembler syntax, in the operand order of 30_encoding.md R112. -/
def asmText : Instr → String
  | .nop => asmLine "NOP" []
  | .mov rd ra => asmLine "MOV" [regText rd, regText ra]
  | .ldc rd k => asmLine "LDC" [regText rd, immText k]
  | .cmp ra rb => asmLine "CMP" [regText ra, regText rb]
  | .madd m rd ra rb => asmLine ("MADD" ++ Modulus.suffix m) [regText rd, regText ra, regText rb]
  | .msub m rd ra rb => asmLine ("MSUB" ++ Modulus.suffix m) [regText rd, regText ra, regText rb]
  | .mneg m rd ra => asmLine ("MNEG" ++ Modulus.suffix m) [regText rd, regText ra]
  | .mmul m rd ra rb => asmLine ("MMUL" ++ Modulus.suffix m) [regText rd, regText ra, regText rb]
  | .msqr m rd ra => asmLine ("MSQR" ++ Modulus.suffix m) [regText rd, regText ra]
  | .minv m rd ra => asmLine ("MINV" ++ Modulus.suffix m) [regText rd, regText ra]
  | .mred m rd ra => asmLine ("MRED" ++ Modulus.suffix m) [regText rd, regText ra]
  | .mont m rd ra rb => asmLine ("MONT" ++ Modulus.suffix m) [regText rd, regText ra, regText rb]
  | .tomont m rd ra => asmLine ("TOMONT" ++ Modulus.suffix m) [regText rd, regText ra]
  | .frommont m rd ra => asmLine ("FROMMONT" ++ Modulus.suffix m) [regText rd, regText ra]
  | .pdbl rd ra => asmLine "PDBL" [regText rd, regText ra]
  | .padd rd ra rb => asmLine "PADD" [regText rd, regText ra, regText rb]
  | .pmul rd ra rb => asmLine "PMUL" [regText rd, regText ra, regText rb]
  | .psham rd ra rb rc => asmLine "PSHAM" [regText rd, regText ra, regText rb, regText rc]
  | .paff rd ra => asmLine "PAFF" [regText rd, regText ra]
  | .pchk ra => asmLine "PCHK" [regText ra]
  | .shainit => asmLine "SHAINIT" []
  | .shablk => asmLine "SHABLK" []
  | .shafin rd len => asmLine "SHAFIN" [regText rd, immText len]
  | .verify ra rb rc => asmLine "VERIFY" [regText ra, regText rb, regText rc]

/-- The named indices of the constant ROM (40_move_compare.md R132). -/
inductive RomName where
  | zero | one | p | n | a | b | gx | gy | rp | rp2 | rn | rn2
deriving DecidableEq, Repr

/-- The ROM index of a name (40_move_compare.md R132). -/
def RomName.index : RomName → BitVec 6
  | .zero => 0 | .one => 1 | .p => 2 | .n => 3 | .a => 4 | .b => 5
  | .gx => 6 | .gy => 7 | .rp => 8 | .rp2 => 9 | .rn => 10 | .rn2 => 11

/-- The pseudo-instructions (30_encoding.md R113). LDG and LDINF name a triple, so their base is at most 29. -/
inductive Pseudo where
  | clr (rd : Reg)
  | fadd (rd ra rb : Reg)
  | fsub (rd ra rb : Reg)
  | fmul (rd ra rb : Reg)
  | fneg (rd ra : Reg)
  | fsqr (rd ra : Reg)
  | finv (rd ra : Reg)
  | sadd (rd ra rb : Reg)
  | smul (rd ra rb : Reg)
  | sinv (rd ra : Reg)
  | sred (rd ra : Reg)
  | ldg (rd : Reg)
  | ldinf (rd : Reg)
deriving DecidableEq, Repr

/-- Load three named constants into a triple (30_encoding.md R113). -/
def loadTriple (rd : Reg) (x y z : RomName) : List Instr :=
  [.ldc rd x.index, .ldc (rd + 1) y.index, .ldc (rd + 2) z.index]

/-- The commands a pseudo-instruction stands for; none where LDG or LDINF names no triple
(30_encoding.md R113). -/
def Pseudo.expand : Pseudo → Option (List Instr)
  | .clr rd => some [.ldc rd RomName.zero.index]
  | .fadd rd ra rb => some [.madd .p rd ra rb]
  | .fsub rd ra rb => some [.msub .p rd ra rb]
  | .fmul rd ra rb => some [.mmul .p rd ra rb]
  | .fneg rd ra => some [.mneg .p rd ra]
  | .fsqr rd ra => some [.msqr .p rd ra]
  | .finv rd ra => some [.minv .p rd ra]
  | .sadd rd ra rb => some [.madd .n rd ra rb]
  | .smul rd ra rb => some [.mmul .n rd ra rb]
  | .sinv rd ra => some [.minv .n rd ra]
  | .sred rd ra => some [.mred .n rd ra]
  | .ldg rd => if tripleOk rd then some (loadTriple rd .gx .gy .one) else none
  | .ldinf rd => if tripleOk rd then some (loadTriple rd .one .one .zero) else none

end Sys2Proof.Machine
end

