-- ==== Sys2Proof/Machine/Driver.lean ====
section
/-! DEFINITION. The host's side of the contract, as moves for the schedule: the null checks of `verify`
(70_reset_and_hazards.md R300), waiting for a completion (R297), the boot steps (R294) and the full
verification sequence (R302). -/

namespace Sys2Proof.Machine

/-- The three outcomes of the source's `verify` (70_reset_and_hazards.md R300, R302). -/
inductive VerifyStatus where
  | valid
  | invalid
  | badArg
deriving DecidableEq, Repr

/-- Steps 1 to 3 of `verify`: the host driver's null checks, in order; some BadArg when one fails, and then no
command is started (70_reset_and_hazards.md R300). -/
def nullChecks (pubkeyNull sigNull msgNull : Bool) (msgLen : Nat) : Option VerifyStatus :=
  if pubkeyNull then some .badArg
  else if sigNull then some .badArg
  else if msgNull && msgLen != 0 then some .badArg
  else none

/-- The 32-bit writes that copy a byte string into the window in address order; a tail that is not a whole
word is padded, here with zeros (70_reset_and_hazards.md R302, 20_memory.md R77). -/
def copyToWindow (off : Nat) : List Byte → List Turn
  | b0 :: b1 :: b2 :: b3 :: rest =>
      write32 (BitVec.ofNat 12 off) (busWord b0 b1 b2 b3) :: copyToWindow (off + 4) rest
  | [b0, b1, b2] => [write32 (BitVec.ofNat 12 off) (busWord b0 b1 b2 0#8)]
  | [b0, b1] => [write32 (BitVec.ofNat 12 off) (busWord b0 b1 0#8 0#8)]
  | [b0] => [write32 (BitVec.ofNat 12 off) (busWord b0 0#8 0#8 0#8)]
  | [] => []

/-- Issue a command and wait for its completion; the host's poll reads STATUS once the core has had its turn
(70_reset_and_hazards.md R297). -/
def issueAndWait (i : Instr) : List Turn :=
  [write32 0x01C#12 (encode i), .core, read32 0x00C#12]

/-- Load and absorb `k` full blocks of a message (70_reset_and_hazards.md R302, 43_sha256.md R218). -/
def absorbBlocks : Nat → List Byte → List Turn
  | 0, _ => []
  | k + 1, msg =>
      copyToWindow 0x040 (msg.take 64) ++ issueAndWait .shablk ++ absorbBlocks k (msg.drop 64)

/-- Hash a message into a register with the SHA commands (43_sha256.md R218). -/
def hashMessage (rd : Reg) (msg : List Byte) : List Turn :=
  issueAndWait .shainit ++ absorbBlocks (msg.length / 64) msg ++
    copyToWindow 0x040 (msg.drop (64 * (msg.length / 64))) ++
    issueAndWait (.shafin rd (BitVec.ofNat 6 (msg.length % 64)))

/-- The sequence of `host_verify` up to the hash, then its read of EVENT (70_reset_and_hazards.md R302). -/
def verifyHashPhase (pubkey sig msg : List Byte) : List Turn :=
  write32 0x010#12 0x3#32 :: copyToWindow 0x240 (pubkey.take 64) ++ copyToWindow 0x280 (sig.take 64) ++
    hashMessage 14 msg ++ [read32 0x010#12]

/-- The rest of `host_verify`: VERIFY W10, W12, W14 and the read of STATUS, which the wait ends with
(70_reset_and_hazards.md R302). -/
def verifyCommandPhase : List Turn := issueAndWait (.verify 10 12 14)

/-- BadArg after the hash when EVENT.ERR is set (70_reset_and_hazards.md R302). -/
def hashFailed (eventRead : Word32) : Bool := eventRead.getLsbD 1

/-- What `host_verify` returns for a STATUS read; VRES = NONE follows no VERIFY
(70_reset_and_hazards.md R302, 10_state.md R34). -/
def statusOutcome (statusRead : Word32) : Option VerifyStatus :=
  if statusRead.extractLsb' 13 2 = 1#2 then some .valid
  else if statusRead.extractLsb' 13 2 = 2#2 then some .invalid
  else if statusRead.extractLsb' 13 2 = 3#2 then some .badArg
  else none

/-- Boot steps 2 to 4: read ID and VERSION, write the enables, then clear the events or reset softly
(70_reset_and_hazards.md R294). -/
def bootMoves (ieDone ieErr softReset : Bool) : List Turn :=
  [read32 0x000#12, read32 0x004#12,
    write32 0x008#12 (0#29 ++ BitVec.ofBool ieErr ++ BitVec.ofBool ieDone ++ 0#1),
    if softReset then write32 0x008#12 0x1#32 else write32 0x010#12 0x3#32]

/-- What the host expects of ID and VERSION: the identity, and major version 1 (70_reset_and_hazards.md R294). -/
def bootIdentityOk (idRead versionRead : Word32) : Bool :=
  idRead == 0x50323536#32 && versionRead.extractLsb' 16 16 == 1#16

end Sys2Proof.Machine
end

