-- ==== Sys2Proof/Machine/Platform.lean ====
section
/-! DEFINITION. The platform around the core: the window's base, the interrupt line and the instances, whose
parameters the spec leaves OPEN (00_scope.md R7; 60_exceptions.md R266, R272). -/

namespace Sys2Proof.Machine

/-- The platform address of a window offset of an instance (20_memory.md R70, 60_exceptions.md R272). -/
def platformAddress (k : Nat) (off : Offset) : Nat := Config.base k + off.toNat

/-- The window offset an instance sees for a platform address; none outside its 4 KiB window
(20_memory.md R70). -/
def windowOffset (k addr : Nat) : Option Offset :=
  if Config.base k ≤ addr ∧ addr < Config.base k + 4096 then some (BitVec.ofNat 12 (addr - Config.base k))
  else none

/-- Whether an instance drives a platform interrupt line (60_exceptions.md R266). -/
def drivesLine (k : Nat) (s : State) (line : Nat) : Bool := s.irq && line == Config.irqLine k

/-- One instance steps and no other changes: instances share no state (60_exceptions.md R272). A stop of the
stepped instance leaves the list as it is. -/
def platformStep (k : Nat) (cores : List State) : List State :=
  match cores[k]? with
  | none => cores
  | some s =>
      match step s with
      | .next s' => cores.set k s'
      | .fault _ => cores
      | .refused _ => cores

/-- The instances after the platform's hardware reset (00_scope.md R7, 70_reset_and_hazards.md R290). -/
def platformReset : List State := List.replicate Config.nInstances State.reset

end Sys2Proof.Machine
end

