-- ==== Sys2Proof/Tests/Slice0.lean ====
section
/-! SUPPORT. The model's own tests: ill-formed terms are refused, words written out from the spec's encodings decode to
their commands, the spec's vectors (95_test_vectors.md) come out, and every obligation's hypotheses have a witness. -/

set_option Elab.async false

namespace Sys2Proof.Tests

open Sys2Proof Sys2Proof.Machine

/-! ## Helpers -/

/-- The reset state with some registers set. -/
def withRegs : List (Reg × Nat) → State
  | [] => State.reset
  | (r, v) :: rest => (withRegs rest).setReg r (BitVec.ofNat 256 v)

/-- A state with a schedule. -/
def withMoves (s : State) (ts : List Turn) : State := { s with schedule := ts }

/-- The reset state with a schedule. -/
def idle (ts : List Turn) : State := { State.reset with schedule := ts }

/-- The state of a NOP in progress. -/
def busyState : State := { State.reset with pending := some ⟨0x00000000#32, .commit []⟩ }

/-- The state while the reset input is asserted. -/
def heldState : State := { State.reset with inReset := true }

/-- The result a word written to CMD is latched with, after one step. -/
def latched (s : State) (c : Word32) : Option Result :=
  match step { s with schedule := [write32 0x01C#12 c] } with
  | .next t => t.pending.map Pending.result
  | .fault _ | .refused _ => none

/-- The one response of a move. -/
def responseOf (s : State) (t : Turn) : Option Response :=
  match step { s with schedule := [t] } with
  | .next u => u.responses.head?
  | .fault _ | .refused _ => none

/-- A field of the state one step leads to. -/
def after {α : Type} (s : State) (t : Turn) (f : State → α) : Option α :=
  match step { s with schedule := [t] } with
  | .next u => some (f u)
  | .fault _ | .refused _ => none

/-- The results of a modular command that writes W2. -/
def modularWrites (v : Nat) (z : Bool) : Option Result := some (.commit [.reg 2 (BitVec.ofNat 256 v), .zr z])

/-- The results of a point command that writes P(16). -/
def pointWrites (x y z : Nat) (f : Bool) : Option Result :=
  some (.commit [.reg 16 (BitVec.ofNat 256 x), .reg 17 (BitVec.ofNat 256 y), .reg 18 (BitVec.ofNat 256 z), .inf f])

/-! ## WellFormed refuses ill-formed terms (30_encoding.md R104, R105) -/

theorem test_illformed_pdbl : (Instr.pdbl 30 4).rangeError = some .tripleOutOfRange ∧
    (Instr.pdbl 4 30).rangeError = some .tripleOutOfRange ∧ (Instr.pdbl 29 29).wellFormed = true := by decide

theorem test_illformed_padd : (Instr.padd 30 0 0).wellFormed = false ∧ (Instr.padd 0 30 0).wellFormed = false ∧
    (Instr.padd 0 3 31).wellFormed = false ∧ (Instr.padd 29 29 29).wellFormed = true := by decide

theorem test_illformed_pmul : (Instr.pmul 30 0 0).wellFormed = false ∧ (Instr.pmul 0 31 0).wellFormed = false ∧
    (Instr.pmul 0 4 31).wellFormed = true := by decide

theorem test_illformed_psham : (Instr.psham 31 0 0 0).wellFormed = false ∧
    (Instr.psham 0 30 0 0).wellFormed = false ∧ (Instr.psham 29 29 31 31).wellFormed = true := by decide

theorem test_illformed_paff : (Instr.paff 30 0).wellFormed = false ∧ (Instr.paff 0 30).wellFormed = false := by
  decide

theorem test_illformed_pchk : (Instr.pchk 31).rangeError = some .pairOutOfRange ∧
    (Instr.pchk 30).wellFormed = true := by decide

theorem test_illformed_verify : (Instr.verify 31 12 14).wellFormed = false ∧
    (Instr.verify 10 31 14).wellFormed = false ∧ (Instr.verify 10 12 31).wellFormed = true := by decide

theorem test_illformed_ldc : (Instr.ldc 0 12#6).rangeError = some .romIndex ∧
    (Instr.ldc 0 63#6).wellFormed = false ∧ (Instr.ldc 0 11#6).wellFormed = true := by decide

/-! ## Words written out field by field from 30_encoding.md R101, R102 and R106

Format R reads OPC, M, RD, RA, RB, RC, Z5 from the left, format I reads OPC, Z1, RD, Z14, IMM6. -/

theorem test_decode_nop : decode 0b000000_0_00000_00000_00000_00000_00000#32 = .ok .nop := by decide

theorem test_decode_mov : decode 0b000001_0_00011_00111_00000_00000_00000#32 = .ok (.mov 3 7) := by decide

theorem test_decode_ldc : decode 0b000010_0_00100_00000000000000_000110#32 = .ok (.ldc 4 6#6) := by decide

theorem test_decode_cmp : decode 0b000011_0_00000_00010_00011_00000_00000#32 = .ok (.cmp 2 3) := by decide

theorem test_decode_madd : decode 0b001000_0_00010_00000_00001_00000_00000#32 = .ok (.madd .p 2 0 1) := by decide

theorem test_decode_msub : decode 0b001001_1_00010_00000_00001_00000_00000#32 = .ok (.msub .n 2 0 1) := by decide

theorem test_decode_mneg : decode 0b001010_0_00001_00000_00000_00000_00000#32 = .ok (.mneg .p 1 0) := by decide

theorem test_decode_mmul : decode 0b001011_1_00101_00110_00111_00000_00000#32 = .ok (.mmul .n 5 6 7) := by decide

theorem test_decode_msqr : decode 0b001100_0_00001_00000_00000_00000_00000#32 = .ok (.msqr .p 1 0) := by decide

theorem test_decode_minv : decode 0b001101_1_00001_00000_00000_00000_00000#32 = .ok (.minv .n 1 0) := by decide

theorem test_decode_mred : decode 0b001110_1_00001_00000_00000_00000_00000#32 = .ok (.mred .n 1 0) := by decide

theorem test_decode_mont : decode 0b001111_0_00010_00000_00001_00000_00000#32 = .ok (.mont .p 2 0 1) := by decide

theorem test_decode_tomont : decode 0b010000_0_00001_00000_00000_00000_00000#32 = .ok (.tomont .p 1 0) := by
  decide

theorem test_decode_frommont : decode 0b010001_0_00001_00000_00000_00000_00000#32 = .ok (.frommont .p 1 0) := by
  decide

theorem test_decode_pdbl : decode 0b011000_0_11101_11101_00000_00000_00000#32 = .ok (.pdbl 29 29) := by decide

theorem test_decode_padd : decode 0b011001_0_01011_01000_00100_00000_00000#32 = .ok (.padd 11 8 4) := by decide

theorem test_decode_pmul : decode 0b011010_0_01000_00100_01100_00000_00000#32 = .ok (.pmul 8 4 12) := by decide

theorem test_decode_psham : decode 0b011011_0_10100_01010_00010_00011_00000#32 = .ok (.psham 20 10 2 3) := by
  decide

theorem test_decode_paff : decode 0b011100_0_01110_01000_00000_00000_00000#32 = .ok (.paff 14 8) := by decide

theorem test_decode_pchk : decode 0b011101_0_00000_11110_00000_00000_00000#32 = .ok (.pchk 30) := by decide

theorem test_decode_shainit : decode 0b100000_0_00000_00000_00000_00000_00000#32 = .ok .shainit := by decide

theorem test_decode_shablk : decode 0b100001_0_00000_00000_00000_00000_00000#32 = .ok .shablk := by decide

theorem test_decode_shafin : decode 0b100010_0_01110_00000000000000_111111#32 = .ok (.shafin 14 63#6) := by decide

theorem test_decode_verify : decode 0b101000_0_00000_01010_01100_01110_00000#32 = .ok (.verify 10 12 14) := by
  decide

/-- V-ENC-31 to V-ENC-36: reserved opcodes, must-be-zero fields and the ROM index. -/
theorem test_decode_illegal : decode 0x10000000#32 = .error .reservedOpcode ∧
    decode 0xFFFFFFFF#32 = .error .reservedOpcode ∧ decode 0x00000001#32 = .error .mustBeZero ∧
    decode 0x06338000#32 = .error .mustBeZero ∧ decode 0x20200420#32 = .error .mustBeZero ∧
    decode 0x0800000C#32 = .error .romIndex := by decide

/-- V-ENC-38 to V-ENC-45: operand ranges and must-be-zero fields. -/
theorem test_decode_ranges : decode 0x61E20000#32 = .error .tripleOutOfRange ∧
    decode 0x6401FC00#32 = .error .tripleOutOfRange ∧ decode 0x68027C00#32 = .ok (.pmul 0 4 31) ∧
    decode 0x740F8000#32 = .error .pairOutOfRange ∧ decode 0xA00FB1C0#32 = .error .pairOutOfRange ∧
    decode 0xA00533E0#32 = .ok (.verify 10 12 31) ∧ decode 0x88500043#32 = .error .mustBeZero ∧
    decode 0x80100000#32 = .error .mustBeZero := by decide

/-! ## Assembler text and pseudo-instructions (30_encoding.md R112, R113; V-ENC-10, V-ENC-21, V-ENC-27) -/

theorem test_asm_text : asmText (.mmul .n 5 6 7) = "MMUL.N W5, W6, W7" ∧
    asmText (.psham 20 10 2 3) = "PSHAM W20, W10, W2, W3" ∧ asmText (.shafin 14 63#6) = "SHAFIN W14, #63" := by
  decide

theorem test_pseudo_ldg : (Pseudo.ldg 4).expand = some [.ldc 4 6#6, .ldc 5 7#6, .ldc 6 1#6] ∧
    (Pseudo.ldg 30).expand = none := by decide

/-! ## Constants (00_scope.md R8, R9; 40_move_compare.md R132; 41_modular.md R160) -/

theorem test_config_p : Config.p = 0xFFFFFFFF00000001000000000000000000000000FFFFFFFFFFFFFFFFFFFFFFFF := by
  decide +kernel

theorem test_config_rinv : 2 ^ 256 * Config.rInvP % Config.p = 1 ∧ 2 ^ 256 * Config.rInvN % Config.n = 1 := by
  decide +kernel

theorem test_generator_on_curve : validPoint Config.gx Config.gy = true := by decide +kernel

/-! ## One command, one step: the result it is latched with (95_test_vectors.md L2.2 to L2.6) -/

/-- V-MOV-1. -/
theorem test_nop : latched (withRegs [(0, 7)]) 0x00000000#32 = some (.commit []) := by decide

/-- V-MOV-2. -/
theorem test_mov : latched (withRegs [(7, 5)]) 0x04338000#32 = some (.commit [.reg 3 5#256]) := by decide +kernel

/-- V-LDC-9. -/
theorem test_ldc_rp2 : latched State.reset 0x08400009#32 = some (.commit
    [.reg 4 0x00000004FFFFFFFDFFFFFFFFFFFFFFFEFFFFFFFBFFFFFFFF0000000000000003#256]) := by decide +kernel

/-- V-LDC-12. -/
theorem test_ldc_reserved : latched State.reset 0x0840000C#32 = some (.error .illegalCmd) := by decide +kernel

/-- V-CMP-1. -/
theorem test_cmp_less : latched (withRegs [(2, 1), (3, 2)]) 0x0C010C00#32 = some (.commit [.eq false, .lt true]) := by
  decide +kernel

/-- V-CMP-6. -/
theorem test_cmp_unsigned : latched (withRegs [(2, 2 ^ 256 - 1), (3, 0)]) 0x0C010C00#32 =
    some (.commit [.eq false, .lt false]) := by decide +kernel

/-- V-MOD-4. -/
theorem test_madd_wraps : latched (withRegs [(0, Config.n - 1), (1, Config.n - 1)]) 0x22200400#32 =
    modularWrites 0xFFFFFFFF00000000FFFFFFFFFFFFFFFFBCE6FAADA7179E84F3B9CAC2FC63254F false := by decide +kernel

/-- V-MOD-7. -/
theorem test_madd_noncanon : latched (withRegs [(0, 0), (1, Config.p)]) 0x20200400#32 = some (.error .noncanon) := by
  decide +kernel

/-- V-MOD-9. -/
theorem test_msub_borrows : latched (withRegs [(0, 0), (1, 1)]) 0x24200400#32 =
    modularWrites 0xFFFFFFFF00000001000000000000000000000000FFFFFFFFFFFFFFFFFFFFFFFE false := by decide +kernel

/-- V-MOD-13. -/
theorem test_msub_noncanon : latched (withRegs [(0, 1), (1, Config.n)]) 0x26200400#32 = some (.error .noncanon) := by
  decide +kernel

/-- V-MOD-14. -/
theorem test_mneg : latched (withRegs [(0, Config.gy)]) 0x28200000#32 =
    modularWrites 0xB01CBD1C01E58065711814B583F061E9D431CCA994CEA1313449BF97C840AE0A false := by decide +kernel

/-- V-MOD-15. -/
theorem test_mneg_zero : latched State.reset 0x28200000#32 = modularWrites 0 true := by decide +kernel

/-- V-MOD-19. -/
theorem test_mmul : latched (withRegs [(0, Config.gx), (1, Config.gy)]) 0x2C200400#32 =
    modularWrites 0x823CD15F6DD3C71933565064513A6B2BD183E554C6A08622F713EBBBFACE98BE false := by decide +kernel

/-- V-MOD-24. -/
theorem test_mmul_noncanon : latched (withRegs [(0, 2 ^ 256 - 1), (1, 1)]) 0x2C200400#32 =
    some (.error .noncanon) := by decide +kernel

/-- V-MOD-28. -/
theorem test_msqr : latched (withRegs [(0, Config.gx)]) 0x32200000#32 =
    modularWrites 0x48BC972AA010EE0B66969BC329CB08488B3B8C98BFAE2E8B94A875A83CB51B1C false := by decide +kernel

/-- V-MOD-30. -/
theorem test_mred_max : latched (withRegs [(0, 2 ^ 256 - 1)]) 0x3A200000#32 =
    modularWrites 0x00000000FFFFFFFF00000000000000004319055258E8617B0C46353D039CDAAE false := by decide +kernel

/-- V-MOD-32. -/
theorem test_mred_p : latched (withRegs [(0, Config.p)]) 0x38200000#32 = modularWrites 0 true := by decide +kernel

/-- V-MOD-36: half of p + 1. -/
theorem test_minv_two : latched (withRegs [(0, 2)]) 0x34200000#32 = modularWrites ((Config.p + 1) / 2) false := by
  decide +kernel

/-- V-MOD-43. -/
theorem test_minv_zero : latched State.reset 0x36200000#32 = some (.error .invZero) := by decide +kernel

/-- V-MOD-48: the Montgomery form of 1 is the neutral factor. -/
theorem test_mont_one : latched (withRegs [(0, Config.gx), (1, 2 ^ 256 - Config.p)]) 0x3C200400#32 =
    modularWrites Config.gx false := by decide +kernel

/-- V-MOD-53. -/
theorem test_mont_noncanon : latched (withRegs [(0, Config.gx), (1, Config.p)]) 0x3C200400#32 =
    some (.error .noncanon) := by decide +kernel

/-- V-MOD-55. -/
theorem test_tomont : latched (withRegs [(0, 1)]) 0x42200000#32 = modularWrites (2 ^ 256 - Config.n) false := by
  decide +kernel

/-- V-MOD-59. -/
theorem test_frommont : latched (withRegs [(0, 1)]) 0x44200000#32 =
    modularWrites 115792089183396302114378112356516095823261736990586219612555396166510339686400 false := by
  decide +kernel

/-- V-PT-1, its x and y; Z is 2·Gy. -/
theorem test_pdbl : latched (withRegs [(4, Config.gx), (5, Config.gy), (6, 1)]) 0x61020000#32 =
    pointWrites 0x9A978F59ACD1B5AD570E7D52DCFCDE43804B42274F61DDCF1E7D848391D6C70F
      29468416531536242154810423193772930342200868632530199947817229236472112149969 (2 * Config.gy) false := by
  decide +kernel

/-- V-PT-5: a point with y = 0 doubles to INF. -/
theorem test_pdbl_order_two : latched (withRegs [(4, 5), (5, 0), (6, 1)]) 0x61020000#32 =
    pointWrites 1 1 0 true := by decide +kernel

/-- V-PT-11: a point and its negative. -/
theorem test_padd_negative : latched (withRegs [(4, Config.gx), (5, Config.gy), (6, 1), (8, Config.gx),
    (9, Config.p - Config.gy), (10, 1)]) 0x65022000#32 = pointWrites 1 1 0 true := by decide +kernel

/-- V-PT-12: infinity is neutral. -/
theorem test_padd_infinity : latched (withRegs [(4, 1), (5, 1), (6, 0), (8, Config.gx), (9, Config.gy), (10, 1)])
    0x65022000#32 = pointWrites Config.gx Config.gy 1 false := by decide +kernel

/-- V-PT-24: the order annihilates the generator. -/
theorem test_pmul_order : latched (withRegs [(4, Config.gx), (5, Config.gy), (6, 1), (12, Config.n)])
    0x69023000#32 = pointWrites 1 1 0 true := by decide +kernel

/-- V-PT-29: the point is checked also when the scalar is 0. -/
theorem test_pmul_noncanon : latched (withRegs [(4, Config.p), (5, 0), (6, 1), (12, 0)]) 0x69023000#32 =
    some (.error .noncanon) := by decide +kernel

/-- V-PT-33: G + (n - 1)·G. -/
theorem test_psham_cancels : latched (withRegs [(4, Config.gx), (5, Config.gy), (6, 1), (12, 1), (13, Config.n - 1)])
    0x6D0231A0#32 = pointWrites 1 1 0 true := by decide +kernel

/-- V-PT-34. -/
theorem test_psham_generator : latched (withRegs [(4, Config.gx), (5, Config.gy), (6, 1), (12, 1), (13, 0)])
    0x6D0231A0#32 = pointWrites Config.gx Config.gy 1 false := by decide +kernel

/-- V-PT-39, on the result of V-PT-1. -/
theorem test_paff : latched (withRegs [(4, 0x9A978F59ACD1B5AD570E7D52DCFCDE43804B42274F61DDCF1E7D848391D6C70F),
    (5, 29468416531536242154810423193772930342200868632530199947817229236472112149969), (6, 2 * Config.gy)])
    0x71020000#32 = pointWrites 0x7CF27B188D034F7E8A52380304B51AC3C08969E277F21B35A60B48FC47669978
      0x07775510DB8ED040293D9AC69F7430DBBA7DADE63CE982299E04B79D227873D1 1 false := by decide +kernel

/-- V-PT-42. -/
theorem test_paff_infinity : latched (withRegs [(4, 7), (5, 9), (6, 0)]) 0x71020000#32 = pointWrites 1 1 0 true := by
  decide +kernel

/-- V-PCHK-1. -/
theorem test_pchk_generator : latched (withRegs [(4, Config.gx), (5, Config.gy)]) 0x74020000#32 =
    some (.commit [.pv true]) := by decide +kernel

/-- V-PCHK-6: a coordinate out of range is PV = 0, not an error. -/
theorem test_pchk_range : latched (withRegs [(4, Config.gx), (5, 2 ^ 256 - 1)]) 0x74020000#32 =
    some (.commit [.pv false]) := by decide +kernel

/-- 43_sha256.md R214, R211. -/
theorem test_shainit : latched State.reset 0x80000000#32 =
    some (.commit [.shaH Config.shaIv, .msgbits 0#64, .shaOpen true]) := by decide +kernel

/-- A state with an open message of `bits` bits and its first block's bytes "abc". -/
def openMessage (bits : Nat) : State :=
  { State.reset with
    mem := [(0x040, 0x61#8), (0x041, 0x62#8), (0x042, 0x63#8)]
    sha := ⟨Config.shaIv, BitVec.ofNat 64 bits, true⟩ }

/-- V-SHA-7, the chaining value after its block 00, 01, ..., 3F. -/
theorem test_shablk_block : latched
    { openMessage 0 with mem := ((List.range 63).map (fun j => (0x041 + j, BitVec.ofNat 8 (j + 1)))) } 0x84000000#32 =
    some (.commit [.shaH #v[0xfc99a2df#32, 0x88f42a7a#32, 0x7bb9d180#32, 0x33cdc6a2#32, 0x0256755f#32,
      0x9d5b9a50#32, 0x44a9cc31#32, 0x5abe84a7#32], .msgbits 512#64]) := by decide +kernel

/-- V-SHA-15: one block too many. -/
theorem test_shablk_length : latched (openMessage (2 ^ 64 - 512)) 0x84000000#32 = some (.error .shaLength) := by
  decide +kernel

/-- The register and length of V-SHA-2, SHA-256 of "abc", as SHAFIN W5, #3 issues them. -/
theorem test_shafin_abc : (latched (openMessage 0) 0x88500003#32).map (fun r =>
    match r with
    | .commit [.reg 5 v, .shaH _, .msgbits b, .shaOpen o] => (v.toNat, b.toNat, o)
    | _ => (0, 0, true)) =
    some (0xBA7816BF8F01CFEA414140DE5DAE2223B00361A396177A9CB410FF61F20015AD, 24, false) := by decide +kernel

/-- V-SHA-13: a second SHAFIN finds no open message. -/
theorem test_shafin_closed : latched State.reset 0x88600003#32 = some (.error .shaNotOpen) := by decide +kernel

/-- The operands of V-VER-1. -/
def verifyRegs (sg : Nat) : State :=
  withRegs [(10, 0xD8CD12EA5C67F2F8A00C1124893EDCFA6754C4D6CEDE6BE13BDF2295C810A97F),
    (11, 0xA5A89D2D2A360C0CA9A4D6C7C9ED4B28D3E199D6627F2E696D689C310A5B0F48),
    (12, 0xA17D7A9C3692DB94349D4C47E2EADFF7336C26FF3D17CD3CB489AED9E35BA8BE),
    (13, sg),
    (14, 0x42A98F3D3EE09518C8E23699AF60FA6D97BB457436A68142B342D2395ECFE405)]

/-- V-VER-1. -/
theorem test_verify_valid :
    latched (verifyRegs 0xA7F64D11FEE13539EAF78918EA0C08A28F2372947E1F62C3C43B6970CBAD1C30) 0xA00531C0#32 =
      some (.commit [.vres .valid]) := by decide +kernel

/-- V-VER-10. -/
theorem test_verify_invalid :
    latched (verifyRegs 0xA7F64D11FEE13539EAF78918EA0C08A28F2372947E1F62C3C43B6970CBAD1C31) 0xA00531C0#32 =
      some (.commit [.vres .invalid]) := by decide +kernel

/-! ## Completion, errors, the window and reset (95_test_vectors.md L2.7 to L2.9) -/

/-- V-ERR-1: the core's turn records the error and sets both events. -/
theorem test_completion_with_error : after
    { State.reset with pending := some ⟨0x10000000#32, .error .illegalCmd⟩ } .core
    (fun u => (u.eventWord, u.errinfoWord, u.errcmd, u.busy)) =
      some (0x3#32, 0x1#32, 0x10000000#32, false) := by decide +kernel

/-- V-ERR-9: a dropped NOP is an overrun, without DONE, and the command goes on. -/
theorem test_overrun : after busyState (write32 0x01C#12 0x00000000#32)
    (fun u => (u.eventWord, u.errinfoWord, u.errcmd, u.busy)) = some (0x2#32, 0x6#32, 0x0#32, true) := by
  decide +kernel

/-- V-ERR-3: the acknowledgement of ERR clears the error registers and leaves DONE. -/
theorem test_acknowledge : after
    { State.reset with done := true, err := true, cause := .invZero, errcmd := 0x34100000#32 } (write32 0x010#12 0x2#32)
    (fun u => (u.eventWord, u.errinfoWord, u.errcmd)) = some (0x1#32, 0x0#32, 0x0#32) := by decide +kernel

/-- An earlier NONCANON, and a pending MINV of 0. -/
def failingState : State :=
  { State.reset with
    err := true, cause := .noncanon, errcmd := 0x20200400#32, pending := some ⟨0x34100000#32, .error .invZero⟩ }

/-- An earlier NONCANON, and a NOP in progress. -/
def recoveringState : State := { busyState with err := true, cause := .noncanon, errcmd := 0x20200400#32 }

/-- 60_exceptions.md R267: both bits of the error survive a clear of the same cycle, and the first error is kept. -/
theorem test_same_cycle_error : after failingState (.coreWithClear 0x3#32)
    (fun u => (u.eventWord, u.errinfoWord, u.errcmd, u.busy)) =
      some (0x3#32, 0x2#32, 0x20200400#32, false) := by decide +kernel

/-- 60_exceptions.md R267: DONE survives the clear, and the earlier error is acknowledged. -/
theorem test_same_cycle_done : after recoveringState (.coreWithClear 0x3#32)
    (fun u => (u.eventWord, u.errinfoWord, u.errcmd, u.busy)) = some (0x1#32, 0x0#32, 0x0#32, false) := by
  decide +kernel

/-- V-ERR-12: the enables mask the line. -/
theorem test_irq_masked : after { State.reset with done := true, err := true, ieDone := true, ieErr := true }
    (write32 0x008#12 0x0#32) (fun u => (u.irq, u.eventWord)) = some (false, 0x3#32) := by decide +kernel

/-- V-BUS-1, its first word. -/
theorem test_read_w0 : responseOf (withRegs [(0, Config.gx)]) (read32 0x100#12) = some (.data 0xF2D1176B#32) := by
  decide +kernel

/-- V-BUS-5. -/
theorem test_write_w0_middle : after (withRegs [(0, Config.gx)]) (write32 0x104#12 0x0#32) (fun u => u.reg 0) =
    some 0x6B17D1F200000000F8BCE6E563A440F277037D812DEB33A0F4A13945D898C296#256 := by decide +kernel

/-- V-BUS-6. -/
theorem test_write_msgbuf : after State.reset (write32 0x040#12 0x3067736D#32) (fun u => u.mem) =
    some [(0x040, 0x6D#8), (0x041, 0x73#8), (0x042, 0x67#8), (0x043, 0x30#8)] := by decide +kernel

/-- V-BUS-10, V-BUS-12 and V-BUS-13. -/
theorem test_bus_errors : responseOf State.reset (.host (.read 0x100#12 .w8)) = some .busError ∧
    responseOf State.reset (read32 0x102#12) = some .busError ∧
    responseOf State.reset (write32 0x080#12 0x1#32) = some .busError ∧
    responseOf State.reset (read32 0xFFC#12) = some .busError := by decide +kernel

/-- V-BUS-15 and V-BUS-16. -/
theorem test_read_while_busy : responseOf { busyState with w := Vector.replicate 32 1#256 } (read32 0x11C#12) =
    some (.data 0x0#32) ∧ responseOf busyState (read32 0x00C#12) = some (.data 0x1#32) := by decide +kernel

/-- V-RST-3: a soft reset drops the command in progress. -/
theorem test_soft_reset_aborts : after busyState (write32 0x008#12 0x1#32)
    (fun u => (u.busy, u.eventWord, u.ctrlWord)) = some (false, 0x0#32, 0x0#32) := by decide +kernel

/-- 70_reset_and_hazards.md R300: a null message is a failure only when its length is not 0. -/
theorem test_null_checks : nullChecks false false true 0 = none ∧ nullChecks false false true 1 = some .badArg ∧
    nullChecks true true true 0 = some .badArg := by decide

/-- V-BUS-17, the first word of the key in the window. -/
theorem test_copy_to_window : copyToWindow 0x240 [0xD8#8, 0xCD#8, 0x12#8, 0xEA#8] =
    [write32 0x240#12 0xEA12CDD8#32] := by decide +kernel

/-- 60_exceptions.md R272: a step of an absent instance changes nothing. -/
theorem test_platform_absent : platformStep 2 [State.reset, State.reset] = [State.reset, State.reset] := by
  decide +kernel

/-! ## Witnesses: concrete states and operands that meet each obligation's hypotheses -/

theorem witness_ResetStateIsZeroEverywhere : (0x1#32).getLsbD 0 = true ∧ heldState.inReset = true ∧ 63 < 64 := by
  decide +kernel

theorem witness_ResetAndSoftResetAreClean : (idle [write32 0x008#12 0x1#32]).inReset = false ∧
    (0x1#32).getLsbD 0 = true ∧
    (idle [write32 0x008#12 0x1#32]).schedule = write32 0x008#12 0x1#32 :: [] := by decide +kernel

/-- A pending NOP is what its word issues with. -/
theorem busyState_current : PendingIsCurrent busyState := by
  intro p hp
  injection hp with hp
  subst hp
  rfl

/-- The invariant at a state with a command in progress, and a step from there. -/
theorem witness_EveryStepKeepsInvariant : Inv busyState ∧ step busyState = .next (complete busyState) := by
  refine ⟨⟨rfl, rfl, fun _ => ⟨rfl, rfl⟩, ?_, ?_, busyState_current, ?_⟩, rfl⟩ <;> exact fun h => by nomatch h

theorem witness_HardwareResetDiscardsTheCommand :
    (withMoves busyState [.resetAssert]).schedule = .resetAssert :: [] ∧
    (withMoves heldState [.core]).schedule = .core :: [] ∧ heldState.inReset = true ∧
    (withMoves heldState [read32 0x000#12]).schedule = .host (.read 0x000#12 .w32) :: [] ∧
    (withMoves heldState [.coreWithClear 0x3#32]).schedule = .coreWithClear 0x3#32 :: [] ∧
    (withMoves heldState [.resetRelease]).schedule = .resetRelease :: [] := by decide +kernel

theorem witness_SoftResetAbortsWithoutCommit : (withMoves busyState [write32 0x008#12 0x7#32]).inReset = false ∧
    (withMoves busyState [write32 0x008#12 0x7#32]).schedule = write32 0x008#12 0x7#32 :: [] ∧
    (0x7#32).getLsbD 0 = true ∧ (0x6#32).getLsbD 0 = false := by decide +kernel

theorem witness_DecodeOfEncodeIsTheCommand : (Instr.psham 29 29 31 31).wellFormed = true ∧
    (Instr.pdbl 30 0).rangeError = some .tripleOutOfRange ∧ (Instr.pchk 31).rangeError = some .pairOutOfRange ∧
    (Instr.ldc 0 12#6).rangeError = some .romIndex := by decide +kernel

theorem witness_DecodedWordIsItsEncoding : decode 0x88E0003F#32 = .ok (.shafin 14 63#6) := by decide +kernel

theorem witness_IllegalWordsCompleteWithIllegalCmd : decode 0x80100000#32 = .error .mustBeZero ∧
    State.reset.pending = none := by decide +kernel

theorem witness_StepRunsTheDecodedCommand :
    (idle [write32 0x01C#12 0x04338000#32]).inReset = false ∧
    (idle [write32 0x01C#12 0x04338000#32]).schedule = write32 0x01C#12 0x04338000#32 :: [] ∧
    decode 0x04338000#32 = .ok (.mov 3 7) ∧ decode 0x10000000#32 = .error .reservedOpcode ∧
    (idle [write32 0x01C#12 0x10000000#32]).pending = none ∧
    (withMoves busyState [write32 0x01C#12 0x04338000#32]).busy = true := by decide +kernel

theorem witness_IssueOnlyLatches : State.reset.pending = none ∧ busyState.busy = true := by decide +kernel

theorem witness_BusyFollowsIssueAndCompletion : State.reset.busy = false ∧ (0x1#32).getLsbD 0 = true ∧
    busyState.busy = true := by decide +kernel

theorem witness_EveryCommandWordCompletes : State.reset.pending = none ∧ State.reset.inReset = false := by decide +kernel

theorem witness_CompletionIsEnabledWhilePending : busyState.inReset = false ∧ busyState.busy = true ∧
    busyState.schedule = [] ∧ (withMoves busyState [.core]).schedule = .core :: [] ∧ State.reset.busy = false := by
  decide +kernel

theorem witness_NopAndMovCommit : (withRegs [(7, 2 ^ 256 - 1)]).pending = none := by decide +kernel

theorem witness_LdcLoadsTheConstant : State.reset.pending = none ∧ (11#6).toNat ≤ 11 ∧ 11 < (12#6).toNat := by decide +kernel

theorem witness_CmpSetsEqAndLt : (withRegs [(2, 1), (3, 2)]).pending = none := by decide +kernel

/-- Sources at the top of both ranges. -/
def topSources : State := withRegs [(0, Config.p - 1), (1, Config.p - 1), (2, Config.n - 1), (3, Config.n - 1)]

theorem witness_MaddAddsModulo : topSources.pending = none ∧ (topSources.reg 0).toNat < modulus .p ∧
    (topSources.reg 1).toNat < modulus .p ∧ (topSources.reg 2).toNat < modulus .n ∧
    (topSources.reg 3).toNat < modulus .n := by decide +kernel

theorem witness_MsubAndMnegSubtractModulo : topSources.pending = none ∧ (topSources.reg 4).toNat < modulus .p ∧
    (topSources.reg 0).toNat < modulus .p := by decide +kernel

theorem witness_MmulAndMsqrMultiplyModulo : topSources.pending = none ∧ (topSources.reg 2).toNat < modulus .n ∧
    (topSources.reg 3).toNat < modulus .n := by decide +kernel

theorem witness_MredReducesAnyValue : (withRegs [(0, 2 ^ 256 - 1)]).pending = none := by decide +kernel

theorem witness_MinvWritesTheUniqueInverse : topSources.pending = none ∧ (topSources.reg 0).toNat ≠ 0 ∧
    (topSources.reg 0).toNat < modulus .p ∧ (topSources.reg 4).toNat = 0 := by decide +kernel

theorem witness_MontgomeryCommandsMultiplyAndConvert : topSources.pending = none ∧
    (topSources.reg 2).toNat < modulus .n ∧ (topSources.reg 3).toNat < modulus .n := by decide +kernel

theorem witness_ModularCommandsSetZr : modularDest (.mneg .p 2 4) = some 2 ∧ State.reset.pending = none ∧
    IssuesWith (.mneg .p 2 4) State.reset (.commit [.reg 2 0#256, .zr true]) :=
  ⟨rfl, rfl, (issuesWith_iff _ _ _ rfl).2 (by decide +kernel)⟩

theorem witness_NonCanonicalSourcesRaiseNoncanon :
    checkedSources (.madd .p 2 0 1) = some (.p, [0, 1]) ∧ (withRegs [(1, Config.p)]).pending = none ∧
    modulus .p ≤ ((withRegs [(1, Config.p)]).reg 1).toNat ∧
    ∀ r ∈ ([0, 1] : List Reg), (topSources.reg r).toNat < modulus .p := by decide +kernel

theorem witness_MontgomeryLaws : Config.p - 1 < modulus .p ∧ Config.n - 1 < modulus .n ∧ Config.p - 1 ≠ 0 := by
  decide +kernel

/-- The generator in W4 to W6, INF in W8 to W10 and a point with Z = 0 in W20 to W22. -/
def pointState : State :=
  withRegs [(4, Config.gx), (5, Config.gy), (6, 1), (8, 1), (9, 1), (10, 0), (20, 7), (21, 9), (22, 0), (23, Config.p)]

theorem witness_PdblAndPaddCommitTheirPoint : pointState.pending = none ∧ (29 : Reg).val ≤ 29 ∧
    (pointState.point 4).canonical = true ∧ (pointState.point 8).canonical = true := by decide +kernel

theorem witness_PmulAndPshamCommitTheirPoint : pointState.pending = none ∧ (pointState.point 4).canonical = true := by
  decide +kernel

theorem witness_PaffNormalisesThePoint : pointState.pending = none ∧ (pointState.point 20).canonical = true ∧
    (pointState.point 20).z = 0 ∧ (pointState.point 4).canonical = true ∧ (pointState.point 4).z ≠ 0 := by
  decide +kernel

theorem witness_PchkTestsRangeAndCurve : pointState.pending = none ∧ (30 : Reg).val ≤ 30 := by decide +kernel

theorem witness_PointSourcesAreChecked : pointSources (.padd 0 4 21) = some [4, 21] ∧ pointState.pending = none ∧
    (Instr.padd 0 4 21).wellFormed = true ∧ Config.p ≤ (pointState.reg (21 + 2)).toNat ∧
    pointSources (.pdbl 0 4) = some [4] ∧ (pointState.reg 4).toNat < Config.p ∧
    (pointState.reg (4 + 1)).toNat < Config.p ∧ (pointState.reg (4 + 2)).toNat < Config.p ∧
    pointSources (.pdbl 30 4) = some [4] ∧ (Instr.pdbl 30 4).wellFormed = false := by decide +kernel

theorem witness_WrittenInfinityIsCanonical : pointDest (.paff 16 20) = some 16 ∧ pointState.pending = none ∧
    IssuesWith (.paff 16 20) pointState
      (.commit [.reg 16 1#256, .reg 17 1#256, .reg 18 0#256, .inf true]) :=
  have h : pointState.pending = none := by decide +kernel
  ⟨rfl, h, (issuesWith_iff _ _ _ h).2 (by decide +kernel)⟩

/-- The generator is a point of Mathlib's curve, and its triple stands for it. -/
theorem generator_represents [Fact (Nat.Prime Config.p)] : ∃ h, Represents generator
    (.some (Config.gx : ZMod Config.p) (Config.gy : ZMod Config.p) h) := by
  have hy : (Config.gy : ZMod Config.p) * 2 ≠ 0 := by
    have : ((Config.gy * 2 : Nat) : ZMod Config.p) ≠ 0 := by
      rw [Ne, ZMod.natCast_eq_zero_iff]
      decide +kernel
    simpa using this
  have he : curveP256.Equation (Config.gx : ZMod Config.p) (Config.gy : ZMod Config.p) := by
    rw [WeierstrassCurve.Affine.equation_iff]
    have : ((Config.gy ^ 2 + 3 * Config.gx : Nat) : ZMod Config.p) = ((Config.gx ^ 3 + Config.b : Nat) : ZMod Config.p) := by
      rw [ZMod.natCast_eq_natCast_iff]
      decide +kernel
    push_cast at this
    simp only [curveP256]
    linear_combination this
  have hn : curveP256.Nonsingular (Config.gx : ZMod Config.p) (Config.gy : ZMod Config.p) := by
    rw [WeierstrassCurve.Affine.nonsingular_iff]
    refine ⟨he, .inr ?_⟩
    simp only [curveP256]
    intro h
    apply hy
    linear_combination h
  refine ⟨hn, by decide +kernel, .inr ⟨by decide +kernel, ?_⟩⟩
  have hx1 : (Config.gx : ZMod Config.p) / ((1 : Nat) : ZMod Config.p) ^ 2 = Config.gx := by simp
  have hy1 : (Config.gy : ZMod Config.p) / ((1 : Nat) : ZMod Config.p) ^ 3 = Config.gy := by simp
  refine ⟨?_, ?_⟩
  · simp only [generator]
    rw [hx1, hy1]
    exact hn
  · simp only [generator]
    congr 1
    · exact hx1.symm
    · exact hy1.symm

theorem witness_PointFunctionsComputeTheGroupLaw : Nat.Prime Config.p ∧
    ∀ [Fact (Nat.Prime Config.p)], (∃ g, Represents generator g) ∧ Represents infinity 0 ∧
      2 ^ 256 - 1 < 2 ^ 256 := by
  refine ⟨p_prime, fun {_} => ⟨?_, ⟨by decide +kernel, .inl ⟨rfl, rfl⟩⟩, by decide +kernel⟩⟩
  obtain ⟨h, hr⟩ := generator_represents
  exact ⟨_, hr⟩

theorem witness_ShainitOpensAMessage : (openMessage 512).pending = none := by decide +kernel

theorem witness_ShablkAbsorbsOneBlock : (openMessage 0).pending = none ∧ (openMessage 0).sha.isOpen = true ∧
    (openMessage (2 ^ 64 - 1024)).sha.bits.toNat + 512 ≤ 2 ^ 64 - 1 ∧
    2 ^ 64 - 1 < (openMessage (2 ^ 64 - 512)).sha.bits.toNat + 512 ∧ State.reset.sha.isOpen = false := by
  decide +kernel

theorem witness_ShafinWritesTheDigest : (openMessage 0).pending = none ∧ (openMessage 0).sha.isOpen = true ∧
    (openMessage (2 ^ 64 - 512)).sha.bits.toNat + 8 * (63#6).toNat ≤ 2 ^ 64 - 1 ∧
    2 ^ 64 - 1 < (openMessage (2 ^ 64 - 8)).sha.bits.toNat + 8 * (1#6).toNat ∧ State.reset.sha.isOpen = false := by
  decide +kernel

theorem witness_ShafinLengthTestNeverFires : Inv (openMessage (2 ^ 64 - 512)) ∧
    (openMessage (2 ^ 64 - 512)).pending = none ∧ (openMessage (2 ^ 64 - 512)).sha.isOpen = true := by
  refine ⟨⟨by decide +kernel, by decide +kernel, fun _ => ⟨rfl, rfl⟩, (fun h => by nomatch h), fun _ => by decide +kernel, ?_,
    (fun h => by nomatch h)⟩, rfl, rfl⟩
  intro p hp
  nomatch hp

theorem witness_ShaCommandsHashTheMessage : (openMessage 0).pending = none ∧ Absorbed (openMessage 0) [] ∧
    8 * (([] : List Byte).length + 64) < 2 ^ 64 := by
  refine ⟨rfl, ⟨rfl, rfl, by decide +kernel, rfl, rfl⟩, by decide +kernel⟩

theorem witness_ShaOpenFollowsItsCommands : State.reset.pending = none ∧ State.reset.sha.isOpen = false ∧
    (0x1#32).getLsbD 0 = true ∧
    (match exec (.shafin 5 3#6) (openMessage 0) with
      | .next t => t.pending.isSome && (complete t).done && !(complete t).err
      | .fault _ | .refused _ => false) = true := by decide +kernel

theorem witness_VerifyIsAPureFunctionOfItsOperands : (verifyRegs 1).pending = none ∧ (10 : Reg).val ≤ 30 ∧
    (30 : Reg).val ≤ 30 := by decide +kernel

/-- V-VER-7: s = n is BADARG. -/
theorem witness_VerifyBadArgExactlyOnMalformedInput : (verifyRegs Config.n).pending = none ∧
    Config.n ≤ ((verifyRegs Config.n).reg (12 + 1)).toNat ∧
    latched (verifyRegs Config.n) 0xA00531C0#32 = some (.commit [.vres .badArg]) := by decide +kernel

/-- The operands, the w and the xR of V-VER-1. -/
theorem witness_VerifyComparesTheAffineX :
    let s := verifyRegs 0xA7F64D11FEE13539EAF78918EA0C08A28F2372947E1F62C3C43B6970CBAD1C30
    let qx := (s.reg 10).toNat
    let qy := (s.reg 11).toNat
    let r := (s.reg 12).toNat
    let sg := (s.reg 13).toNat
    let h := (s.reg 14).toNat
    let w := 0x5BF8C1497AB060FD1ACB1CEC0C23869FF2316846A3314E97D13CA8CAD9BB9CF8
    let x := 0xA17D7A9C3692DB94349D4C47E2EADFF7336C26FF3D17CD3CB489AED9E35BA8BE
    let pt := shamir (h * w % Config.n) (r * w % Config.n) ⟨qx, qy, 1⟩
    s.pending = none ∧ qx < Config.p ∧ qy < Config.p ∧
      qy ^ 2 % Config.p = (qx ^ 3 + (Config.p - 3) * qx + Config.b) % Config.p ∧
      1 ≤ r ∧ r < Config.n ∧ 1 ≤ sg ∧ sg < Config.n ∧ 1 ≤ w ∧ w < Config.n ∧ sg * w % Config.n = 1 ∧
      pt.z ≠ 0 ∧ x < Config.p ∧ x * pt.z ^ 2 % Config.p = pt.x := by decide +kernel

/-- Q = -G, r = s = 1 and h = 1 give u1 = u2 = 1 and R = infinity. -/
theorem witness_VerifyComparesTheAffineX_infinity : validPoint Config.gx (Config.p - Config.gy) = true ∧
    1 * 1 % Config.n = 1 ∧ (shamir (1 * 1 % Config.n) (1 * 1 % Config.n) ⟨Config.gx, Config.p - Config.gy, 1⟩).z = 0 := by
  decide +kernel

/-- The key G (d = 1), the nonce 1, the digest 0 and r = Gx mod n, with the given s. -/
def selfSigned (sg : Nat) : State :=
  withRegs [(10, Config.gx), (11, Config.gy), (12, Config.gx % Config.n), (13, sg)]

/-- Both alternatives: s = r, and its twin n - r. -/
theorem witness_VerifyAcceptsCorrectSignatures : Nat.Prime Config.p ∧ ∀ [Fact (Nat.Prime Config.p)],
    ∃ (g : curveP256.Point) (xr yr : ZMod Config.p) (hk : curveP256.Nonsingular xr yr),
      Represents generator g ∧ (1 : Nat) • g = .some xr yr hk ∧ (10 : Reg).val ≤ 30 ∧ (12 : Reg).val ≤ 30 ∧
      (∀ s ∈ [selfSigned (Config.gx % Config.n), selfSigned (Config.n - Config.gx % Config.n)],
        s.pending = none ∧ Represents ⟨(s.reg 10).toNat, (s.reg (10 + 1)).toNat, 1⟩ ((1 : Nat) • g) ∧
        xr.val % Config.n = (s.reg 12).toNat ∧ 1 ≤ (s.reg 12).toNat ∧ 1 ≤ (s.reg (12 + 1)).toNat ∧
        (s.reg (12 + 1)).toNat < Config.n) ∧
      (let s := selfSigned (Config.gx % Config.n)
       (s.reg (12 + 1)).toNat * 1 % Config.n = ((s.reg 14).toNat + (s.reg 12).toNat * 1) % Config.n) ∧
      (let s := selfSigned (Config.n - Config.gx % Config.n)
       (Config.n - (s.reg (12 + 1)).toNat) * 1 % Config.n =
         ((s.reg 14).toNat + (s.reg 12).toNat * 1) % Config.n) := by
  refine ⟨p_prime, fun {_} => ?_⟩
  obtain ⟨hn, hr⟩ := generator_represents
  refine ⟨_, _, _, hn, hr, one_nsmul _, by decide +kernel, by decide +kernel, ?_, by decide +kernel, by decide +kernel⟩
  intro s hs
  have hc : s.pending = none ∧ (⟨(s.reg 10).toNat, (s.reg (10 + 1)).toNat, 1⟩ : JPoint) = generator ∧
      Config.gx % Config.p % Config.n = (s.reg 12).toNat ∧ 1 ≤ (s.reg 12).toNat ∧
      1 ≤ (s.reg (12 + 1)).toNat ∧ (s.reg (12 + 1)).toNat < Config.n := by
    revert s
    decide +kernel
  obtain ⟨hp, hq, hx, hrest⟩ := hc
  refine ⟨hp, ?_, ?_, hrest⟩
  · rw [hq, one_nsmul]
    exact hr
  · rw [ZMod.val_natCast]
    exact hx

theorem witness_PairOutOfRangeIsIllegal : State.reset.pending = none ∧ 30 < (31 : Reg).val := by decide +kernel

theorem witness_FirstErrorIsKept :
    ({ State.reset with pending := some ⟨0x34100000#32, .error .invZero⟩ } : State).pending =
      some ⟨0x34100000#32, .error .invZero⟩ ∧
    ({ State.reset with err := true, cause := .invZero } : State).err = true ∧ State.reset.err = false := by decide +kernel

theorem witness_WritesWhileBusyAreOverruns : busyState.busy = true ∧ busyState.inReset = false ∧
    (withMoves busyState [write32 0x07C#12 0x1#32]).schedule = write32 0x07C#12 0x1#32 :: [] ∧
    (∀ off ∈ [0x01C#12, 0x040#12, 0x07C#12, 0x100#12, 0x4FC#12], off.toNat % 4 = 0 ∧
      (off = 0x01C#12 ∨ (0x040 ≤ off.toNat ∧ off.toNat < 0x080) ∨
        (0x100 ≤ off.toNat ∧ off.toNat < 0x500))) := by decide +kernel

theorem witness_EventIsWriteOneToClear :
    (withMoves busyState [write32 0x010#12 0x3#32]).schedule = write32 0x010#12 0x3#32 :: [] ∧
    (withMoves recoveringState [.coreWithClear 0x3#32]).schedule = .coreWithClear 0x3#32 :: [] ∧
    recoveringState.pending = some ⟨0x00000000#32, .commit []⟩ ∧
    (withMoves failingState [.coreWithClear 0x3#32]).schedule = .coreWithClear 0x3#32 :: [] ∧
    failingState.pending = some ⟨0x34100000#32, .error .invZero⟩ ∧ failingState.err = true ∧
    (idle [.coreWithClear 0x3#32]).schedule = .coreWithClear 0x3#32 :: [] ∧ State.reset.pending = none ∧
    busyState.inReset = false ∧ recoveringState.inReset = false ∧ failingState.inReset = false ∧
    State.reset.inReset = false := by decide +kernel

theorem witness_FailedCommandsWriteNothing : State.reset.pending = none ∧
    IssuesWith (.minv .p 1 0) State.reset (.error .invZero) :=
  ⟨rfl, (issuesWith_iff _ _ _ rfl).2 (by decide +kernel)⟩

theorem witness_CommandsWriteOnlyTheirDestinations : State.reset.pending = none ∧
    ∃ t, exec (.mov 3 7) State.reset = .next t := ⟨rfl, _, rfl⟩

theorem witness_FlagsChangeOnlyByTheirWriters : State.reset.pending = none ∧ isModular .nop = false ∧
    isPoint .nop = false ∧ ∃ t, exec .nop State.reset = .next t := ⟨rfl, rfl, rfl, _, rfl⟩

theorem witness_ReadsHaveNoSideEffect :
    (withMoves busyState [read32 0x4FC#12]).schedule = .host (.read 0x4FC#12 .w32) :: [] ∧ busyState.busy = true ∧
    (∀ off ∈ [0x040#12, 0x07C#12, 0x100#12, 0x4FC#12], off.toNat % 4 = 0 ∧
      ((0x040 ≤ off.toNat ∧ off.toNat < 0x080) ∨ (0x100 ≤ off.toNat ∧ off.toNat < 0x500))) := by decide +kernel

/-- What each control register reads in a state with its bits set. -/
def flaggedState : State :=
  { State.reset with
    flags := ⟨true, false, true, false, true, .badArg⟩
    sha := { State.reset.sha with isOpen := true, bits := 0x8000000100000200#64 }
    done := true, err := true, cause := .shaLength, errcmd := 0x84000000#32, ieErr := true }

theorem witness_ControlRegistersReadTheirFields :
    (withMoves flaggedState [read32 0x00C#12]).schedule = read32 0x00C#12 :: [] ∧ flaggedState.inReset = false ∧
    responseOf flaggedState (read32 0x000#12) = some (.data 0x50323536#32) ∧
    responseOf flaggedState (read32 0x004#12) = some (.data 0x00010000#32) ∧
    responseOf flaggedState (read32 0x008#12) = some (.data 0x4#32) ∧
    responseOf flaggedState (read32 0x00C#12) = some (.data 0x7502#32) ∧
    responseOf flaggedState (read32 0x010#12) = some (.data 0x3#32) ∧
    responseOf flaggedState (read32 0x014#12) = some (.data 0x5#32) ∧
    responseOf flaggedState (read32 0x018#12) = some (.data 0x84000000#32) ∧
    responseOf flaggedState (read32 0x01C#12) = some (.data 0x0#32) ∧
    responseOf flaggedState (read32 0x020#12) = some (.data 0x200#32) ∧
    responseOf flaggedState (read32 0x024#12) = some (.data 0x80000001#32) := by decide +kernel

theorem witness_WrongWidthOrAlignmentIsABusError : State.reset.inReset = false ∧ BusWidth.w64 ≠ .w32 ∧
    (0x102#12).toNat % 4 ≠ 0 ∧ (0x7#4) ≠ 0xF#4 ∧
    (idle [.host (.write 0x040#12 .w32 0x7#4 0x1#32)]).schedule = .host (.write 0x040#12 .w32 0x7#4 0x1#32) :: [] := by
  decide +kernel

theorem witness_ReservedOffsetsAreBusErrors : State.reset.inReset = false ∧
    (idle [read32 0x500#12]).schedule = read32 0x500#12 :: [] ∧
    (∀ off ∈ [0x028#12, 0x03C#12, 0x080#12, 0x0FC#12, 0x500#12, 0xFFC#12],
      (0x028 ≤ off.toNat ∧ off.toNat < 0x040) ∨ (0x080 ≤ off.toNat ∧ off.toNat < 0x100) ∨
        0x500 ≤ off.toNat) := by decide +kernel

theorem witness_ReadOnlyRegistersIgnoreWrites : busyState.inReset = false ∧
    (withMoves busyState [write32 0x00C#12 0xFFFFFFFF#32]).schedule = write32 0x00C#12 0xFFFFFFFF#32 :: [] ∧
    0x00C#12 ∈ [0x000#12, 0x004#12, 0x00C#12, 0x014#12, 0x018#12, 0x020#12, 0x024#12] := by decide +kernel

theorem witness_RegisterWindowIsBigEndian : State.reset.inReset = false ∧ State.reset.busy = false ∧
    (idle [write32 0x4FC#12 0x1#32]).schedule = write32 0x4FC#12 0x1#32 :: [] ∧
    (0x100#12).toNat = 0x100 + 32 * (0 : Reg).val + 4 * (0 : Fin 8).val ∧
    (0x4FC#12).toNat = 0x100 + 32 * (31 : Reg).val + 4 * (7 : Fin 8).val := by decide +kernel

theorem witness_RegisterWindowReads : State.reset.inReset = false ∧ State.reset.busy = false ∧
    (idle [read32 0x4FC#12]).schedule = read32 0x4FC#12 :: [] ∧
    (0x4FC#12).toNat = 0x100 + 32 * (31 : Reg).val + 4 * (7 : Fin 8).val := by decide +kernel

theorem witness_MsgbufIsInMessageOrder : State.reset.inReset = false ∧ State.reset.busy = false ∧
    State.reset.mem.wf = true ∧ (idle [write32 0x07C#12 0x1#32]).schedule = write32 0x07C#12 0x1#32 :: [] ∧
    (0x040#12).toNat = 0x040 + 4 * (0 : Fin 16).val ∧ (0x07C#12).toNat = 0x040 + 4 * (15 : Fin 16).val := by decide +kernel

end Sys2Proof.Tests
end

section
/-! SUPPORT. A decoded word is the encoding of its command (30_encoding.md R106, R107, R110): each row of the opcode map
fixes, by its pattern, every field its command does not name. -/

namespace Sys2Proof

/-- A word is its fields in the order of 30_encoding.md R101. -/
theorem word_fields (c : Word32) :
    (c.extractLsb' 26 6 ++ c.extractLsb' 25 1 ++ c.extractLsb' 20 5 ++ c.extractLsb' 15 5 ++ c.extractLsb' 10 5 ++
      c.extractLsb' 5 5 ++ c.extractLsb' 0 5 : Word32) = c := by
  iterate 6 rw [BitVec.extractLsb'_append_extractLsb'_eq_extractLsb' (by rfl)]
  exact BitVec.extractLsb'_eq_self

/-- A format R word is the word whose fields are its arguments and whose Z5 is 0 (30_encoding.md R101). -/
theorem formatR_eq_word {c : Word32} {o : BitVec 6} {m : BitVec 1} {d a b e : Reg} (ho : o = c.extractLsb' 26 6)
    (hm : m = c.extractLsb' 25 1) (hd : regBits d = c.extractLsb' 20 5) (ha : regBits a = c.extractLsb' 15 5)
    (hb : regBits b = c.extractLsb' 10 5) (he : regBits e = c.extractLsb' 5 5) (hz : 0#5 = c.extractLsb' 0 5) :
    formatR o m d a b e = c := by
  rw [formatR, ho, hm, hd, ha, hb, he, hz, word_fields]

/-- A format I word is the word whose fields are its arguments and whose M and Z14 are 0 (30_encoding.md R102). -/
theorem formatI_eq_word {c : Word32} {o : BitVec 6} {d : Reg} {k : BitVec 6} (ho : o = c.extractLsb' 26 6)
    (hm : 0#1 = c.extractLsb' 25 1) (hd : regBits d = c.extractLsb' 20 5) (hz : 0#14 = c.extractLsb' 6 14)
    (hk : k = c.extractLsb' 0 6) : formatI o d k = c := by
  rw [formatI, ho, hm, hd, hz, hk]
  iterate 4 rw [BitVec.extractLsb'_append_extractLsb'_eq_extractLsb' (by rfl)]
  exact BitVec.extractLsb'_eq_self

/-- The modulus read from a word has the word's bit M (30_encoding.md R103). -/
theorem mField_bit (c : Word32) : (mField c).bit = c.extractLsb' 25 1 := by
  have hb : c.extractLsb' 25 1 = BitVec.ofBool (c.getLsbD 25) := by
    apply BitVec.eq_of_getLsbD_eq
    intro i hi
    obtain rfl : i = 0 := by omega
    simp
  rw [hb, mField]
  cases c.getLsbD 25 <;> rfl

/-- In each field that a row's mask covers, a word that fits the row has the pattern's value (30_encoding.md R106). -/
theorem Row.fits_field {r : Row} {c : Word32} (h : r.fits c = true) (lo len : Nat)
    (hm : r.mask.extractLsb' lo len = BitVec.allOnes len) : r.pattern.extractLsb' lo len = c.extractLsb' lo len := by
  rw [← beq_iff_eq.1 h, BitVec.extractLsb'_and, hm, BitVec.and_allOnes]

theorem encode_build_rowsMove (r : Row) (hr : r ∈ rowsMove) (c : Word32) (h : r.fits c = true) :
    encode (r.build c) = c := by
  have f := Row.fits_field h
  simp only [rowsMove, List.mem_cons, List.not_mem_nil, or_false] at hr
  obtain rfl | rfl | rfl | rfl := hr
  · exact formatR_eq_word (f 26 6 rfl) (f 25 1 rfl) (f 20 5 rfl) (f 15 5 rfl) (f 10 5 rfl) (f 5 5 rfl) (f 0 5 rfl)
  · exact formatR_eq_word (f 26 6 rfl) (f 25 1 rfl) rfl rfl (f 10 5 rfl) (f 5 5 rfl) (f 0 5 rfl)
  · exact formatI_eq_word (f 26 6 rfl) (f 25 1 rfl) rfl (f 6 14 rfl) rfl
  · exact formatR_eq_word (f 26 6 rfl) (f 25 1 rfl) (f 20 5 rfl) rfl rfl (f 5 5 rfl) (f 0 5 rfl)

theorem encode_build_rowsModular (r : Row) (hr : r ∈ rowsModular) (c : Word32) (h : r.fits c = true) :
    encode (r.build c) = c := by
  have f := Row.fits_field h
  simp only [rowsModular, List.mem_cons, List.not_mem_nil, or_false] at hr
  obtain rfl | rfl | rfl | rfl | rfl | rfl | rfl | rfl | rfl | rfl := hr
  · exact formatR_eq_word (f 26 6 rfl) (mField_bit c) rfl rfl rfl (f 5 5 rfl) (f 0 5 rfl)
  · exact formatR_eq_word (f 26 6 rfl) (mField_bit c) rfl rfl rfl (f 5 5 rfl) (f 0 5 rfl)
  · exact formatR_eq_word (f 26 6 rfl) (mField_bit c) rfl rfl (f 10 5 rfl) (f 5 5 rfl) (f 0 5 rfl)
  · exact formatR_eq_word (f 26 6 rfl) (mField_bit c) rfl rfl rfl (f 5 5 rfl) (f 0 5 rfl)
  · exact formatR_eq_word (f 26 6 rfl) (mField_bit c) rfl rfl (f 10 5 rfl) (f 5 5 rfl) (f 0 5 rfl)
  · exact formatR_eq_word (f 26 6 rfl) (mField_bit c) rfl rfl (f 10 5 rfl) (f 5 5 rfl) (f 0 5 rfl)
  · exact formatR_eq_word (f 26 6 rfl) (mField_bit c) rfl rfl (f 10 5 rfl) (f 5 5 rfl) (f 0 5 rfl)
  · exact formatR_eq_word (f 26 6 rfl) (mField_bit c) rfl rfl rfl (f 5 5 rfl) (f 0 5 rfl)
  · exact formatR_eq_word (f 26 6 rfl) (mField_bit c) rfl rfl (f 10 5 rfl) (f 5 5 rfl) (f 0 5 rfl)
  · exact formatR_eq_word (f 26 6 rfl) (mField_bit c) rfl rfl (f 10 5 rfl) (f 5 5 rfl) (f 0 5 rfl)

theorem encode_build_rowsCurve (r : Row) (hr : r ∈ rowsCurve) (c : Word32) (h : r.fits c = true) :
    encode (r.build c) = c := by
  have f := Row.fits_field h
  simp only [rowsCurve, List.mem_cons, List.not_mem_nil, or_false] at hr
  obtain rfl | rfl | rfl | rfl | rfl | rfl := hr
  · exact formatR_eq_word (f 26 6 rfl) (f 25 1 rfl) rfl rfl (f 10 5 rfl) (f 5 5 rfl) (f 0 5 rfl)
  · exact formatR_eq_word (f 26 6 rfl) (f 25 1 rfl) rfl rfl rfl (f 5 5 rfl) (f 0 5 rfl)
  · exact formatR_eq_word (f 26 6 rfl) (f 25 1 rfl) rfl rfl rfl (f 5 5 rfl) (f 0 5 rfl)
  · exact formatR_eq_word (f 26 6 rfl) (f 25 1 rfl) rfl rfl rfl rfl (f 0 5 rfl)
  · exact formatR_eq_word (f 26 6 rfl) (f 25 1 rfl) rfl rfl (f 10 5 rfl) (f 5 5 rfl) (f 0 5 rfl)
  · exact formatR_eq_word (f 26 6 rfl) (f 25 1 rfl) (f 20 5 rfl) rfl (f 10 5 rfl) (f 5 5 rfl) (f 0 5 rfl)

theorem encode_build_rowsShaVerify (r : Row) (hr : r ∈ rowsShaVerify) (c : Word32) (h : r.fits c = true) :
    encode (r.build c) = c := by
  have f := Row.fits_field h
  simp only [rowsShaVerify, List.mem_cons, List.not_mem_nil, or_false] at hr
  obtain rfl | rfl | rfl | rfl := hr
  · exact formatR_eq_word (f 26 6 rfl) (f 25 1 rfl) (f 20 5 rfl) (f 15 5 rfl) (f 10 5 rfl) (f 5 5 rfl) (f 0 5 rfl)
  · exact formatR_eq_word (f 26 6 rfl) (f 25 1 rfl) (f 20 5 rfl) (f 15 5 rfl) (f 10 5 rfl) (f 5 5 rfl) (f 0 5 rfl)
  · exact formatI_eq_word (f 26 6 rfl) (f 25 1 rfl) rfl (f 6 14 rfl) rfl
  · exact formatR_eq_word (f 26 6 rfl) (f 25 1 rfl) (f 20 5 rfl) rfl rfl rfl (f 0 5 rfl)

/-- A word that fits a row is the encoding of the command the row builds from it (30_encoding.md R106). -/
theorem encode_build (r : Row) (hr : r ∈ opcodeMap) (c : Word32) (h : r.fits c = true) : encode (r.build c) = c := by
  simp only [opcodeMap, List.mem_append] at hr
  obtain ((hr | hr) | hr) | hr := hr
  · exact encode_build_rowsMove r hr c h
  · exact encode_build_rowsModular r hr c h
  · exact encode_build_rowsCurve r hr c h
  · exact encode_build_rowsShaVerify r hr c h

/-- What a word that decodes is: it fits a row of the opcode map, and no range check of the command that row builds
fails (30_encoding.md R108). -/
theorem decode_ok_cases (c : Word32) (i : Instr) (h : decode c = .ok i) :
    ∃ r ∈ opcodeMap, r.fits c = true ∧ r.build c = i ∧ i.rangeError = none := by
  unfold decode at h
  split at h
  · split at h <;> nomatch h
  · rename_i r hr
    split at h
    · nomatch h
    · rename_i hn
      injection h with h
      exact ⟨r, List.mem_of_find?_eq_some hr, by simpa using List.find?_some hr, h, h ▸ hn⟩

/-- No bit of a legal word is dropped (30_encoding.md R107, R110). -/
theorem encode_of_decode (c : Word32) (i : Instr) (h : decode c = .ok i) : encode i = c := by
  obtain ⟨r, hr, hf, rfl, -⟩ := decode_ok_cases c i h
  exact encode_build r hr c hf

/-- A decoded command is well formed (30_encoding.md R108). -/
theorem wellFormed_of_decode (c : Word32) (i : Instr) (h : decode c = .ok i) : i.wellFormed = true := by
  obtain ⟨-, -, -, -, hn⟩ := decode_ok_cases c i h
  rw [Instr.wellFormed, hn]
  rfl

end Sys2Proof
end

section
/-! SUPPORT. Command words on the state, accesses by their target, and what the control registers read as sums of
their bits (10_state.md R34, R38, R40 to R45). -/

namespace Sys2Proof.Machine

/-! ## Command words -/

/-- On an idle core a command word only latches, with its result (10_state.md R39, 30_encoding.md R108). -/
theorem writeCmd_idle (c : Word32) (s : State) (h : s.pending = none) :
    writeCmd c s = .next { s with pending := some ⟨c, wordResult c s⟩ } := by
  cases hc : decode c with
  | ok i => rw [writeCmd_ok c i s hc, exec_idle i s h, encode_of_decode c i hc, wordResult, hc]
  | error why => rw [writeCmd_illegal c why s hc, issueWord_idle _ _ s h, wordResult, hc]

/-- At a busy core any command word, legal or not, is an overrun (10_state.md R38). -/
theorem writeCmd_busy (c : Word32) (s : State) (h : s.busy = true) : writeCmd c s = .next (overrun c s) := by
  cases hc : decode c with
  | ok i => rw [writeCmd_ok c i s hc, exec_busy i s h, encode_of_decode c i hc]
  | error why => rw [writeCmd_illegal c why s hc, issueWord_busy _ _ s h]

/-- The result of a word reads only W, MSGBUF and the SHA-256 state (10_state.md R39). -/
theorem wordResult_congr (c : Word32) {s t : State} (hw : s.w = t.w) (hm : s.mem = t.mem) (hs : s.sha = t.sha) :
    wordResult c s = wordResult c t := by
  simp only [wordResult, issuedResult, resultOf_congr _ s t hw hm hs]

/-- A word never issues with NONE or OVERRUN (60_exceptions.md R261). -/
theorem wordResult_error (c : Word32) (s : State) (cause : Cause) (h : wordResult c s = .error cause) :
    cause ≠ .none ∧ cause ≠ .overrun := by
  unfold wordResult at h
  split at h
  · exact issuedResult_error _ s cause h
  · injection h with h; subst h; exact ⟨nofun, nofun⟩

/-- A word that issues with effects is a command whose function gives them. -/
theorem wordResult_commit (c : Word32) (s : State) (ws : List Write) (h : wordResult c s = .commit ws) :
    ∃ i, resultOf i s = .commit ws := by
  unfold wordResult issuedResult at h
  split at h
  · split at h
    · exact ⟨_, h⟩
    · nomatch h
  · nomatch h

/-! ## Accesses by their target -/

/-- A step that reads a target answers its value and changes nothing of the core (20_memory.md R81). -/
theorem step_read32 {s : State} {rest : List Turn} {off : Offset} {t : Target} (hr : s.inReset = false)
    (hs : s.schedule = read32 off :: rest) (ht : acceptedTarget off .w32 = some t) :
    step s = .next (s.afterAccess rest (.data (s.readTarget t))) := by
  rw [step_host s _ rest hs hr, access_read _ _ _ t ht]
  cases t <;> rfl

/-- A step that writes a target acts on it after its OKAY response (20_memory.md R82). -/
theorem step_write32 {s : State} {rest : List Turn} {off : Offset} {d : Word32} {t : Target} (hr : s.inReset = false)
    (hs : s.schedule = write32 off d :: rest) (ht : acceptedTarget off .w32 = some t) :
    step s = writeTarget t d (s.afterAccess rest .okay) := by
  rw [step_host s _ rest hs hr, access_write _ _ _ _ t ht]
  rfl

/-! ## Register values as sums of their bits -/

/-- The value of a concatenation, the high part scaled by the width of the low part. -/
theorem toNat_append_eq_add {m n : Nat} (x : BitVec m) (y : BitVec n) :
    (x ++ y).toNat = x.toNat * 2 ^ n + y.toNat := by
  rw [BitVec.toNat_append, ← Nat.shiftLeft_add_eq_or_of_lt y.isLt, Nat.shiftLeft_eq]

theorem State.ctrlWord_eq (s : State) :
    s.ctrlWord = BitVec.ofNat 32 (s.ieDone.toNat * 2 + s.ieErr.toNat * 4) := by
  apply BitVec.eq_of_toNat_eq
  have := s.ieDone.toNat_le
  have := s.ieErr.toNat_le
  simp only [ctrlWord, toNat_append_eq_add, BitVec.toNat_ofBool, BitVec.toNat_ofNat]
  omega

theorem State.statusWord_eq (s : State) :
    s.statusWord = BitVec.ofNat 32 (s.busy.toNat + s.sha.isOpen.toNat * 2 + s.flags.eq.toNat * 256 +
      s.flags.lt.toNat * 512 + s.flags.zr.toNat * 1024 + s.flags.inf.toNat * 2048 +
      s.flags.pv.toNat * 4096 + s.flags.vres.bits.toNat * 8192) := by
  apply BitVec.eq_of_toNat_eq
  have := s.busy.toNat_le
  have := s.sha.isOpen.toNat_le
  have := s.flags.eq.toNat_le
  have := s.flags.lt.toNat_le
  have := s.flags.zr.toNat_le
  have := s.flags.inf.toNat_le
  have := s.flags.pv.toNat_le
  have := s.flags.vres.bits.isLt
  simp only [statusWord, toNat_append_eq_add, BitVec.toNat_ofBool, BitVec.toNat_ofNat]
  omega

theorem State.eventWord_eq (s : State) : s.eventWord = BitVec.ofNat 32 (s.done.toNat + s.err.toNat * 2) := by
  apply BitVec.eq_of_toNat_eq
  have := s.done.toNat_le
  have := s.err.toNat_le
  simp only [eventWord, toNat_append_eq_add, BitVec.toNat_ofBool, BitVec.toNat_ofNat]
  omega

theorem State.errinfoWord_eq (s : State) :
    s.errinfoWord = BitVec.ofNat 32 (if s.err then s.cause.code.toNat else 0) := by
  apply BitVec.eq_of_toNat_eq
  have := s.cause.code.isLt
  rw [errinfoWord, toNat_append_eq_add]
  cases s.err
  · rfl
  · simp only [if_true, BitVec.toNat_ofNat]
    omega

theorem State.msgbitsLo_eq (s : State) : s.msgbitsLo = BitVec.ofNat 32 (s.sha.bits.toNat % 2 ^ 32) := by
  apply BitVec.eq_of_toNat_eq
  rw [msgbitsLo, BitVec.extractLsb'_toNat, BitVec.toNat_ofNat, Nat.shiftRight_zero, Nat.mod_mod]

theorem State.msgbitsHi_eq (s : State) : s.msgbitsHi = BitVec.ofNat 32 (s.sha.bits.toNat / 2 ^ 32) := by
  apply BitVec.eq_of_toNat_eq
  rw [msgbitsHi, BitVec.extractLsb'_toNat, BitVec.toNat_ofNat, Nat.shiftRight_eq_div_pow]

/-- STATUS bit 0 is BUSY (10_state.md R34, R36). -/
theorem State.statusWord_busy (s : State) : s.statusWord.getLsbD 0 = s.busy := by
  rw [statusWord, BitVec.getLsbD_append]
  cases s.busy <;> rfl

end Sys2Proof.Machine
end

section
/-! SUPPORT. What the completion of a command can do, from the effects its command may commit (10_state.md R33, R35,
R37, R39). -/

namespace Sys2Proof.Machine

/-! ## A command from issue to completion -/

/-- A command executed on an idle core is latched, and its completion then records an error or commits effects of the
command's form (10_state.md R39). -/
theorem exec_complete_cases (i : Instr) (s t : State) (hp : s.pending = none) (h : exec i s = .next t) :
    (∃ p, t = { s with pending := some p }) ∧
    ((∃ cause, complete t = s.afterError (encode i) cause) ∨
     (∃ ws, CommitForm i ws ∧ complete t = { applyWrites ws s with done := true, pending := none })) := by
  rw [exec_idle i s hp] at h
  injection h with h
  subst h
  refine ⟨⟨_, rfl⟩, ?_⟩
  cases hr : issuedResult i s with
  | error cause => exact .inl ⟨cause, complete_error _ _ cause rfl⟩
  | commit ws =>
    refine .inr ⟨ws, commitForm_of_issued i s ws hr, ?_⟩
    rw [complete_commit _ _ ws rfl, applyWrites_withPending]

/-- Completion sets DONE iff a command was pending, and clears none (10_state.md R39, R40). -/
theorem complete_done (s : State) : (complete s).done = (s.busy || s.done) := by
  unfold complete State.busy
  split <;> simp [*, completeWithError]

/-! ## The effects of each command -/

/-- A command commits only registers among its destinations (10_state.md R33). -/
theorem CommitForm.reg_mem_destRegs {i : Instr} {ws : List Write} (h : CommitForm i ws) (r : Reg) (v : Word)
    (hv : .reg r v ∈ ws) : r ∈ destRegs i := by
  cases i with
  | nop | shainit => subst h; simp at hv
  | mov | ldc | pchk | verify => obtain ⟨_, rfl⟩ := h; simp_all [destRegs]
  | cmp | shablk => obtain ⟨_, _, rfl⟩ := h; simp at hv
  | shafin => obtain ⟨_, _, _, rfl⟩ := h; simp_all [destRegs]
  | pdbl | padd | pmul | psham | paff =>
    obtain ⟨_, rfl⟩ := h
    simp only [List.mem_cons, Write.reg.injEq, reduceCtorEq, List.not_mem_nil, or_false] at hv
    simp only [destRegs, List.mem_cons, List.not_mem_nil, or_false]
    exact hv.imp And.left (Or.imp And.left And.left)
  | _ => obtain ⟨_, _, rfl⟩ := h; simp_all [destRegs]

/-- What an effect list leaves of the flags and the SHA-256 state: a field that none of its effects names. -/
theorem applyWrites_flags_of_form {i : Instr} {ws : List Write} (h : CommitForm i ws) (s : State) :
    let f := (applyWrites ws s).flags
    ((∀ ra rb, i ≠ .cmp ra rb) → f.eq = s.flags.eq ∧ f.lt = s.flags.lt) ∧
    (isModular i = false → f.zr = s.flags.zr) ∧
    (isPoint i = false → f.inf = s.flags.inf) ∧
    ((∀ ra, i ≠ .pchk ra) → f.pv = s.flags.pv) ∧
    ((∀ ra rb rc, i ≠ .verify ra rb rc) → f.vres = s.flags.vres) := by
  cases i with
  | nop | shainit => subst h; simp [applyWrites, Write.apply]
  | mov | ldc | pchk | verify | pdbl | padd | pmul | psham | paff =>
    obtain ⟨_, rfl⟩ := h; simp [applyWrites, Write.apply, isPoint, pointDest]
  | shafin => obtain ⟨_, _, _, rfl⟩ := h; simp [applyWrites, Write.apply]
  | _ => obtain ⟨_, _, rfl⟩ := h; simp [applyWrites, Write.apply, isModular, modularDest]

theorem applyWrites_sha_of_form {i : Instr} {ws : List Write} (h : CommitForm i ws) (s : State) (hi : i ≠ .shainit)
    (hb : i ≠ .shablk) (hf : ∀ rd len, i ≠ .shafin rd len) : (applyWrites ws s).sha = s.sha := by
  cases i with
  | shainit => exact absurd rfl hi
  | shablk => exact absurd rfl hb
  | shafin rd len => exact absurd rfl (hf rd len)
  | nop => subst h; rfl
  | mov | ldc | pchk | verify | pdbl | padd | pmul | psham | paff => obtain ⟨_, rfl⟩ := h; rfl
  | _ => obtain ⟨_, _, rfl⟩ := h; rfl

/-- A committed SHAFIN leaves no message open (10_state.md R37, 43_sha256.md R216). -/
theorem applyWrites_shafin_closes {rd : Reg} {len : BitVec 6} {ws : List Write} (h : CommitForm (.shafin rd len) ws)
    (s : State) : (applyWrites ws s).sha.isOpen = false := by
  obtain ⟨_, _, _, rfl⟩ := h
  rfl

end Sys2Proof.Machine
end

section
/-! SUPPORT. The invariant of the machine, clause by clause and operation by operation (10_state.md R39, R41, R42, R49;
43_sha256.md R216). -/

namespace Sys2Proof.Machine

/-! ## The error registers -/

/-- The error registers agree with ERR: the invariant's clauses quiet and recorded (10_state.md R41, R42). -/
def ErrorsAgree (s : State) : Prop :=
  (s.err = false → s.cause = .none ∧ s.errcmd = 0#32) ∧ (s.err = true → s.cause ≠ .none)

theorem Inv.errorsAgree {s : State} (h : Inv s) : ErrorsAgree s := ⟨h.quiet, h.recorded⟩

theorem ErrorsAgree.recordError {s : State} (h : ErrorsAgree s) (cause : Cause) (c : Word32) (hc : cause ≠ .none) :
    ErrorsAgree (s.recordError cause c) := by
  refine ⟨fun he => ?_, fun _ => ?_⟩
  · rw [State.recordError_err] at he
    nomatch he
  · rw [State.recordError_cause]
    split
    · exact h.2 ‹_›
    · exact hc

theorem ErrorsAgree.clearEvents {s : State} (h : ErrorsAgree s) (d : Word32) : ErrorsAgree (s.clearEvents d) := by
  unfold ErrorsAgree
  rw [State.clearEvents_err, State.clearEvents_cause, State.clearEvents_errcmd]
  cases d.getLsbD 1
  · simpa [ErrorsAgree] using h
  · simp

/-! ## The pending record -/

theorem withPending_eq_self_iff (s : State) (q : Option Pending) : { s with pending := q } = s ↔ q = s.pending :=
  ⟨congrArg State.pending, fun h => by rw [h]⟩

/-- The pending record is current iff its result is the one its word issues with on the present state. -/
theorem pendingIsCurrent_iff (s : State) :
    PendingIsCurrent s ↔ ∀ p, s.pending = some p → p.result = wordResult p.cmd s := by
  refine forall₂_congr fun p hp => ?_
  have hres : wordResult p.cmd { s with pending := none } = wordResult p.cmd s := wordResult_congr _ rfl rfl rfl
  have hissue : writeCmd p.cmd { s with pending := none } =
      .next { s with pending := some ⟨p.cmd, wordResult p.cmd s⟩ } := by
    rw [writeCmd_idle _ _ rfl, hres]
  obtain ⟨c, result⟩ := p
  rw [hissue, Host.Outcome.next.injEq, withPending_eq_self_iff, hp, Option.some.injEq, Pending.mk.injEq]
  exact ⟨fun h => h.2.symm, fun h => ⟨rfl, h.symm⟩⟩

theorem pendingIsCurrent_of_idle {s : State} (h : s.pending = none) : PendingIsCurrent s := by
  intro p hp
  rw [h] at hp
  nomatch hp

/-! ## SHA-256 -/

/-- The effects a command computes on a state with whole blocks leave whole blocks (43_sha256.md R214 to R216). -/
theorem applyWrites_wholeBlocks (i : Instr) (s : State) (ws : List Write) (hr : resultOf i s = .commit ws)
    (h : s.sha.isOpen = true → s.sha.bits.toNat % 512 = 0) (ho : (applyWrites ws s).sha.isOpen = true) :
    (applyWrites ws s).sha.bits.toNat % 512 = 0 := by
  have form := commitForm_of_result i s ws hr
  cases i with
  | shainit =>
    injection hr with hr
    subst hr
    rfl
  | shablk =>
    obtain ⟨hopen, hlen, hws⟩ := requireShaRoom_commit _ _ _ _ hr
    injection hws with hws
    subst hws
    have := h hopen
    change (BitVec.ofNat 64 (s.sha.bits.toNat + 512)).toNat % 512 = 0
    rw [BitVec.toNat_ofNat]
    omega
  | shafin rd len =>
    rw [applyWrites_shafin_closes form] at ho
    nomatch ho
  | _ =>
    rw [applyWrites_sha_of_form form s nofun nofun nofun] at ho ⊢
    exact h ho

/-! ## Operations that keep the invariant -/

/-- The invariant reads nothing of DONE, the flags, the enables, the moves to come or the responses. -/
theorem Inv.congr {s t : State} (h : Inv s) (hw : t.w = s.w) (hm : t.mem = s.mem) (hs : t.sha = s.sha)
    (hp : t.pending = s.pending) (he : ErrorsAgree t) (hr : t.inReset = true → CoreIsReset t) : Inv t where
  memCanonical := hm ▸ h.memCanonical
  memOnlyMsgbuf := hm ▸ h.memOnlyMsgbuf
  quiet := he.1
  recorded := he.2
  wholeBlocks := hs ▸ h.wholeBlocks
  pendingCurrent := (pendingIsCurrent_iff t).2 fun p hpt =>
    ((pendingIsCurrent_iff s).1 h.pendingCurrent p (hp ▸ hpt)).trans
      (wordResult_congr p.cmd hw.symm hm.symm hs.symm)
  heldInReset := hr

/-- A core in its reset state meets the invariant (10_state.md R51). -/
theorem inv_of_coreIsReset {s : State} (h : CoreIsReset s) : Inv s := by
  have hm : s.mem = [] := congrArg State.mem h
  have hs : s.sha.isOpen = false := congrArg (fun s => s.sha.isOpen) h
  have he : s.err = false := congrArg State.err h
  have hp : s.pending = none := congrArg State.pending h
  exact {
    memCanonical := hm ▸ rfl
    memOnlyMsgbuf := hm ▸ rfl
    quiet := fun _ => ⟨congrArg State.cause h, congrArg State.errcmd h⟩
    recorded := fun e => by rw [he] at e; nomatch e
    wholeBlocks := fun e => by rw [hs] at e; nomatch e
    pendingCurrent := pendingIsCurrent_of_idle hp
    heldInReset := fun _ => h }

theorem coreIsReset_releaseReset (s : State) (h : s.inReset = true) : CoreIsReset s.releaseReset := by
  rw [releaseReset_asserted s h]
  rfl

theorem coreIsReset_writeCtrl (s : State) (d : Word32) (h : d.getLsbD 0 = true) : CoreIsReset (s.writeCtrl d) := by
  rw [State.writeCtrl_eq, if_pos h]
  rfl

/-- Taking a move off the schedule keeps the invariant. -/
theorem Inv.withSchedule {s : State} (h : Inv s) (rest : List Turn) : Inv { s with schedule := rest } :=
  h.congr rfl rfl rfl rfl h.errorsAgree h.heldInReset

theorem Inv.respond {s : State} (h : Inv s) (r : Response) : Inv (s.respond r) :=
  h.congr rfl rfl rfl rfl h.errorsAgree h.heldInReset

theorem Inv.releaseReset {s : State} (h : Inv s) : Inv s.releaseReset := by
  cases hr : s.inReset
  · rwa [releaseReset_released s hr]
  · exact inv_of_coreIsReset (coreIsReset_releaseReset s hr)

section
variable {s : State} (h : Inv s) (hr : s.inReset = false)
include h hr

theorem Inv.overrun (d : Word32) : Inv (overrun d s) :=
  h.congr (by simp) (by simp) (by simp) (by simp) (h.errorsAgree.recordError _ d nofun) (by simp [hr])

theorem Inv.clearEvents (d : Word32) : Inv (s.clearEvents d) :=
  h.congr (by simp) (by simp) (by simp) (by simp) (h.errorsAgree.clearEvents d) (by simp [hr])

theorem Inv.writeCtrl (d : Word32) : Inv (s.writeCtrl d) := by
  cases hd : d.getLsbD 0
  · rw [State.writeCtrl_eq, if_neg (Bool.eq_false_iff.1 hd)]
    exact h.congr rfl rfl rfl rfl h.errorsAgree (by simp [hr])
  · exact inv_of_coreIsReset (coreIsReset_writeCtrl s d hd)

/-- A write to CMD latches a current record, or is an overrun (10_state.md R38, R39). -/
theorem Inv.writeCmd {s' : State} (c : Word32) (hc : writeCmd c s = .next s') : Inv s' := by
  cases hp : s.pending with
  | some p =>
    rw [writeCmd_busy c s ((State.busy_eq_true s).2 ⟨p, hp⟩)] at hc
    injection hc with hc
    exact hc ▸ h.overrun hr c
  | none =>
    rw [writeCmd_idle c s hp] at hc
    injection hc with hc
    subst hc
    have current : PendingIsCurrent { s with pending := some ⟨c, wordResult c s⟩ } := by
      rw [pendingIsCurrent_iff]
      intro p hp'
      injection hp' with hp'
      subst hp'
      exact wordResult_congr c rfl rfl rfl
    exact { h with pendingCurrent := current, heldInReset := by simp [hr] }

/-- A register changes only on an idle core, where no pending record can go stale (20_memory.md R82). -/
theorem Inv.setRegLane (hb : s.busy = false) (i : Reg) (k : Nat) (d : Word32) : Inv (s.setRegLane i k d) :=
  { h with
    pendingCurrent := pendingIsCurrent_of_idle ((State.busy_eq_false s).1 hb)
    heldInReset := by simp [hr] }

theorem Inv.setMsgbufWord (hb : s.busy = false) (k : Nat) (d : Word32) (hk : k < 16) : Inv (s.setMsgbufWord k d) :=
  { h with
    memCanonical := s.setMsgbufWord_wf k d h.memCanonical
    memOnlyMsgbuf := s.setMsgbufWord_onlyMsgbuf k d hk h.memOnlyMsgbuf
    pendingCurrent := pendingIsCurrent_of_idle ((State.busy_eq_false s).1 hb)
    heldInReset := by simp [hr] }

/-- An access writes one target, or only its response (20_memory.md R72 to R76, R82). -/
theorem Inv.access {s' : State} (a : Access) (ha : access a s = .next s') : Inv s' := by
  obtain ⟨r, rfl⟩ | ⟨t, d, off, ht, hw⟩ := access_cases a s s' ha
  · exact h.respond r
  have h := h.respond .okay
  obtain rfl | ⟨-, hc⟩ | ⟨-, rfl⟩ | ⟨i, k, -, hb, rfl⟩ | ⟨k, rfl, hb, rfl⟩ | rfl | rfl := writeTarget_cases t d _ s' hw
  · exact h
  · exact h.writeCmd hr d hc
  · exact h.overrun hr d
  · exact h.setRegLane hr hb i k d
  · exact h.setMsgbufWord hr hb k d (acceptedTarget_msgbuf off .w32 k ht)
  · exact h.clearEvents hr d
  · exact h.writeCtrl hr d

/-- A completion with error of a recorded cause keeps the invariant (60_exceptions.md R263). -/
theorem Inv.afterError (c : Word32) (cause : Cause) (hc : cause ≠ .none) : Inv (s.afterError c cause) := by
  have agree := h.errorsAgree.recordError cause c hc
  rw [State.recordError_eq] at agree
  exact { h with
    quiet := agree.1
    recorded := agree.2
    pendingCurrent := pendingIsCurrent_of_idle rfl
    heldInReset := by simp [State.afterError, hr] }

/-- A completion that commits the effects a command computes on the present state keeps the invariant
(10_state.md R39). -/
theorem Inv.commit (i : Instr) (ws : List Write) (hi : resultOf i s = .commit ws) :
    Inv { applyWrites ws s with done := true, pending := none } where
  memCanonical := by simpa using h.memCanonical
  memOnlyMsgbuf := by simpa using h.memOnlyMsgbuf
  quiet := by simpa using h.quiet
  recorded := by simpa using h.recorded
  wholeBlocks := applyWrites_wholeBlocks i s ws hi h.wholeBlocks
  pendingCurrent := pendingIsCurrent_of_idle rfl
  heldInReset := by simp [hr]

/-- Completion: the pending record being current, its result is one a command computes on the present state
(10_state.md R39, R49). -/
theorem Inv.complete : Inv (complete s) := by
  have current := (pendingIsCurrent_iff s).1 h.pendingCurrent
  cases hp : s.pending with
  | none => rwa [complete_idle s hp]
  | some p =>
    obtain ⟨c, result⟩ := p
    have hres := (current _ hp).symm
    cases result with
    | error cause =>
      rw [complete_error s c cause hp]
      exact h.afterError hr c cause (wordResult_error c s cause hres).1
    | commit ws =>
      obtain ⟨i, hi⟩ := wordResult_commit c s ws hres
      rw [complete_commit s c ws hp]
      exact h.commit hr i ws hi

theorem Inv.completeWithClear (d : Word32) : Inv (completeWithClear d s) :=
  (h.complete hr).clearEvents (by simpa using hr) _

end

/-- The core's turn completes the pending command, or does nothing while the reset input is asserted. -/
theorem Inv.coreTurn {s : State} (h : Inv s) : Inv (coreTurn s) := by
  cases hr : s.inReset
  · rw [coreTurn_outOfReset s hr]
    exact h.complete hr
  · rwa [coreTurn_inReset s hr]

end Sys2Proof.Machine
end

section
/-! The statements about the state (10_state.md), settled. -/

namespace Sys2Proof.Machine

/-- Settles O4, by the cases of a step: each move's operation keeps the invariant. -/
theorem everyStepKeepsInvariant : Obligations.EveryStepKeepsInvariant := by
  intro s s' h hs
  obtain ⟨-, rfl⟩ | ⟨rest, -, rfl⟩ | ⟨rest, -, rfl⟩ | ⟨rest, -, rfl⟩ | ⟨a, rest, -, hr, ha⟩ | ⟨d, rest, -, hr, rfl⟩ :=
    step_cases s s' hs
  · exact h.coreTurn
  · exact (h.withSchedule rest).coreTurn
  · exact inv_of_coreIsReset rfl
  · exact (h.withSchedule rest).releaseReset
  · exact (h.withSchedule rest).access hr a ha
  · exact ((h.withSchedule rest).respond .okay).completeWithClear hr d

/-- Settles O51: at issue only the record is latched, and every register a completion commits is a destination. -/
theorem commandsWriteOnlyTheirDestinations : Obligations.CommandsWriteOnlyTheirDestinations := by
  intro i s t hp ht
  obtain ⟨⟨p, rfl⟩, hu⟩ := exec_complete_cases i s t hp ht
  refine ⟨fun _ => rfl, fun r hr => ?_, fun _ => by rw [complete_mem], complete_mem _, complete_ieDone _,
    complete_ieErr _, complete_inReset _, complete_schedule _, complete_responses _⟩
  obtain ⟨cause, hu⟩ | ⟨ws, form, hu⟩ := hu
  · rw [hu]; rfl
  · rw [hu]
    exact applyWrites_reg ws s r fun v hv => hr (form.reg_mem_destRegs r v hv)

/-- Settles O52: an error changes no flag, and a commit only those its command's form names. -/
theorem flagsChangeOnlyByTheirWriters : Obligations.FlagsChangeOnlyByTheirWriters := by
  intro i s t hp ht
  obtain ⟨⟨p, rfl⟩, ⟨cause, hu⟩ | ⟨ws, form, hu⟩⟩ := exec_complete_cases i s t hp ht
  · simp [hu, State.afterError]
  · obtain ⟨hcmp, hzr, hinf, hpv, hvres⟩ := applyWrites_flags_of_form form s
    simp only [hu]
    exact ⟨trivial, trivial, hcmp, hzr, hinf, hpv, hvres, applyWrites_sha_of_form form s⟩

/-- Settles O54: each offset names its register, whose value is the sum of its bits. -/
theorem controlRegistersReadTheirFields : Obligations.ControlRegistersReadTheirFields := by
  intro s rest off v hr hs hv
  obtain ⟨rfl, rfl⟩ | ⟨rfl, rfl⟩ | ⟨rfl, rfl⟩ | ⟨rfl, rfl⟩ | ⟨rfl, rfl⟩ | ⟨rfl, rfl⟩ | ⟨rfl, rfl⟩ | ⟨rfl, rfl⟩ |
    ⟨rfl, rfl⟩ | ⟨rfl, rfl⟩ := hv
  · exact step_read32 (t := .id) hr hs rfl
  · exact step_read32 (t := .version) hr hs rfl
  · exact s.ctrlWord_eq ▸ step_read32 (t := .ctrl) hr hs rfl
  · exact s.statusWord_eq ▸ step_read32 (t := .status) hr hs rfl
  · exact s.eventWord_eq ▸ step_read32 (t := .event) hr hs rfl
  · exact s.errinfoWord_eq ▸ step_read32 (t := .errinfo) hr hs rfl
  · exact step_read32 (t := .errcmd) hr hs rfl
  · exact step_read32 (t := .cmd) hr hs rfl
  · exact s.msgbitsLo_eq ▸ step_read32 (t := .msgbitsLo) hr hs rfl
  · exact s.msgbitsHi_eq ▸ step_read32 (t := .msgbitsHi) hr hs rfl

/-- Settles O1: the registers and MSGBUF byte by byte, every other reset value by evaluation, and both resets by the
lemmas on a core put in its reset state. -/
theorem resetStateIsZeroEverywhere : Obligations.ResetStateIsZeroEverywhere := by
  have regs : ∀ r : Reg, State.reset.reg r = 0#256 := fun r => by simp [State.reg, State.reset]
  have msgbuf : ∀ j, j < 64 → Memory.msgbuf State.reset.mem j = 0#8 := fun _ _ => rfl
  exact ⟨regs, msgbuf, rfl, rfl, rfl, rfl, rfl, rfl, rfl, rfl, rfl, rfl, rfl, fun _ => ⟨rfl, rfl⟩,
    coreIsReset_writeCtrl, coreIsReset_releaseReset⟩

/-- Settles O3: a core in its reset state meets the invariant. -/
theorem resetMeetsInvariant : Obligations.ResetMeetsInvariant := inv_of_coreIsReset rfl

/-- Settles O11: CMD is the write's target, and what a word does there does not depend on how it decodes unless the
core is idle. -/
theorem stepRunsTheDecodedCommand : Obligations.StepRunsTheDecodedCommand := by
  intro s rest c hr hs
  have hstep : step s = writeCmd c (s.afterAccess rest .okay) := step_write32 (t := .cmd) hr hs rfl
  rw [hstep]
  refine ⟨fun i hi => writeCmd_ok c i _ hi, fun why hw hp => ?_, fun hb => writeCmd_busy c _ hb⟩
  rw [writeCmd_illegal c why _ hw, issueWord_idle _ _ (s.afterAccess rest .okay) hp]

/-- Settles O12: exec latches the command's result on an idle core and is an overrun at a busy one. -/
theorem issueOnlyLatches : Obligations.IssueOnlyLatches :=
  fun i s => ⟨fun hp => ⟨_, exec_idle i s hp⟩, exec_busy i s⟩

/-- Settles O13: BUSY is the presence of the pending record. -/
theorem busyFollowsIssueAndCompletion : Obligations.BusyFollowsIssueAndCompletion := by
  refine ⟨fun c s hb => ?_, fun s => ?_, fun s d hd => ?_, fun s => (State.busy_eq_true s).1, State.statusWord_busy⟩
  · exact ⟨_, writeCmd_idle c s ((State.busy_eq_false s).1 hb), rfl⟩
  · exact (State.busy_eq_false _).2 (complete_pending s)
  · exact (State.busy_eq_false _).2 (congrArg State.pending (coreIsReset_writeCtrl s d hd))

/-- Settles O40: what SHAINIT and SHAFIN commit, the reset state, and the first check of SHABLK and SHAFIN. -/
theorem shaOpenFollowsItsCommands : Obligations.ShaOpenFollowsItsCommands := by
  refine ⟨fun s hp => ?opens, fun rd len s ws hp hi => ?closes, rfl, fun s hr => ?release, fun s d hd => ?softReset,
    fun rd len s hp ho => ?required⟩
  case opens => exact ⟨_, commitsTo_of_commit .shainit s _ hp rfl rfl, rfl⟩
  case closes =>
    have form := commitForm_of_issued _ s ws ((issuesWith_iff _ s _ hp).1 hi).symm
    rw [complete_commit _ _ ws rfl]
    exact applyWrites_shafin_closes form _
  case release => exact congrArg (fun s => s.sha.isOpen) (coreIsReset_releaseReset s hr)
  case softReset => exact congrArg (fun s => s.sha.isOpen) (coreIsReset_writeCtrl s d hd)
  case required =>
    rw [issuesWith_iff _ s _ hp, issuesWith_iff _ s _ hp]
    exact ⟨(requireShaRoom_closed s _ _ ho).symm, (requireShaRoom_closed s _ _ ho).symm⟩

/-- Settles O48: EVENT is the write's target; in the cycle of a completion the three cases are those of the pending
record. -/
theorem eventIsWriteOneToClear : Obligations.EventIsWriteOneToClear := by
  intro s rest d hr u cleared
  have hclear : u.clearEvents d = cleared := u.clearEvents_eq d
  refine ⟨fun hs => ?_, fun hs => ?_⟩
  · rw [← hclear]
    exact step_write32 (t := .event) hr hs rfl
  · rw [step_coreWithClear s d rest hs hr]
    refine ⟨fun c ws hp => ?commit, fun c cause hp => ?error, fun hp => ?idle⟩
    case commit => rw [completeWithClear_commit u d c ws hp]; rfl
    case error =>
      rw [completeWithClear_error u d c cause hp]
      refine ⟨rfl, fun he => ?_⟩
      have hu : u.err = true := he
      simp only [State.afterError, hu, if_true]
    case idle => rw [completeWithClear_idle u d hp, hclear]

/-- Settles O49: irq is its two stored terms, and a completion adds DONE to them. -/
theorem irqFollowsEnabledEvents : Obligations.IrqFollowsEnabledEvents := by
  refine ⟨rfl, fun s => ⟨?level, ?acknowledged, ?disabled, ?completed⟩⟩
  case level => simp [State.irq]
  case acknowledged => simp [State.irq]
  case disabled =>
    rw [State.writeCtrl_eq, if_neg (by decide)]
    rfl
  case completed => simp [State.irq, complete_done]

end Sys2Proof.Machine
end

section
/-! SUPPORT. The register window: accesses that are refused, the words of W and MSGBUF byte by byte, and the targets of
their offsets (20_memory.md R71 to R82). -/

namespace Sys2Proof.Machine

/-! ## Refused accesses -/

/-- No access of another width or of a misaligned offset is accepted (20_memory.md R73, R74). -/
theorem acceptedTarget_unaligned (off : Offset) (width : BusWidth) (h : width ≠ .w32 ∨ off.toNat % 4 ≠ 0) :
    acceptedTarget off width = none :=
  if_neg fun hc => h.elim (· hc.1) (· hc.2)

/-- No access to a reserved offset is accepted, aligned or not (20_memory.md R76). -/
theorem acceptedTarget_reserved (off : Offset) (width : BusWidth)
    (h : (0x028 ≤ off.toNat ∧ off.toNat < 0x040) ∨ (0x080 ≤ off.toNat ∧ off.toNat < 0x100) ∨ 0x500 ≤ off.toNat) :
    acceptedTarget off width = none := by
  rw [acceptedTarget, windowTarget_reserved off.toNat h, ite_self]

section
variable {s : State} {rest : List Turn} {off : Offset} {width : BusWidth} (hr : s.inReset = false)
include hr

theorem step_read_refused (ht : acceptedTarget off width = none) (hs : s.schedule = .host (.read off width) :: rest) :
    step s = .next (s.afterAccess rest .busError) := by
  rw [step_host s _ rest hs hr, (access_busError _ off width 0#4 0#32 ht).1]
  rfl

theorem step_write_refused {strobes : BitVec 4} {d : Word32} (ht : acceptedTarget off width = none)
    (hs : s.schedule = .host (.write off width strobes d) :: rest) :
    step s = .next (s.afterAccess rest .busError) := by
  rw [step_host s _ rest hs hr, (access_busError _ off width strobes d ht).2]
  rfl

theorem step_write_partial {strobes : BitVec 4} {d : Word32} (hp : strobes ≠ fullStrobes)
    (hs : s.schedule = .host (.write off width strobes d) :: rest) :
    step s = .next (s.afterAccess rest .busError) := by
  rw [step_host s _ rest hs hr, access_partial _ off width strobes d hp]
  rfl

/-- A read of any width gives one response and changes nothing of the core (20_memory.md R72, R81). -/
theorem step_read_answers (hs : s.schedule = .host (.read off width) :: rest) :
    ∃ r, step s = .next (s.afterAccess rest r) := by
  cases ht : acceptedTarget off width with
  | none => exact ⟨_, step_read_refused hr ht hs⟩
  | some t =>
    obtain ⟨rfl, -, -⟩ := acceptedTarget_some off width t ht
    exact ⟨_, step_read32 hr hs ht⟩

end

/-! ## The offsets of W and MSGBUF -/

/-- The k-th word of MSGBUF is at 0x040 + 4k (20_memory.md R71). -/
theorem acceptedTarget_msgbufWord {off : Offset} (k : Fin 16) (h : off.toNat = 0x040 + 4 * k.val) :
    acceptedTarget off .w32 = some (.msgbuf k.val) := by
  rw [acceptedTarget_word off (by omega), windowTarget_of_msgbuf _ (by omega), h, Nat.add_sub_cancel_left,
    Nat.mul_div_cancel_left k.val (by decide)]

/-- The k-th word of W[i] is at 0x100 + 32 i + 4 k (20_memory.md R71). -/
theorem acceptedTarget_regLane {off : Offset} (i : Reg) (k : Fin 8)
    (h : off.toNat = 0x100 + 32 * i.val + 4 * k.val) : acceptedTarget off .w32 = some (.w i k.val) := by
  have hreg : windowReg off.toNat = i := by
    apply Fin.ext
    change (off.toNat - 0x100) / 32 % 32 = i.val
    omega
  have hlane : (off.toNat - 0x100) % 32 / 4 = k.val := by omega
  rw [acceptedTarget_word off (by omega), windowTarget_of_w _ (by omega), hreg, hlane]

/-! ## Words of W and MSGBUF while BUSY and idle (20_memory.md R81, R82) -/

section
variable {s : State}

theorem readTarget_msgbuf_busy (hb : s.busy = true) (k : Nat) : s.readTarget (.msgbuf k) = 0#32 := if_pos hb

theorem readTarget_w_busy (hb : s.busy = true) (i : Reg) (k : Nat) : s.readTarget (.w i k) = 0#32 := if_pos hb

theorem readTarget_msgbuf_idle (hb : s.busy = false) (k : Nat) : s.readTarget (.msgbuf k) = s.msgbufWord k :=
  if_neg (Bool.eq_false_iff.1 hb)

theorem readTarget_w_idle (hb : s.busy = false) (i : Reg) (k : Nat) :
    s.readTarget (.w i k) = readWordLane (s.reg i) k :=
  if_neg (Bool.eq_false_iff.1 hb)

theorem writeTarget_msgbuf_idle (hb : s.busy = false) (k : Nat) (d : Word32) :
    writeTarget (.msgbuf k) d s = .next (s.setMsgbufWord k d) :=
  congrArg Host.Outcome.next (if_neg (Bool.eq_false_iff.1 hb))

theorem writeTarget_w_idle (hb : s.busy = false) (i : Reg) (k : Nat) (d : Word32) :
    writeTarget (.w i k) d s = .next (s.setRegLane i k d) :=
  congrArg Host.Outcome.next (if_neg (Bool.eq_false_iff.1 hb))

end

/-! ## Four bytes to a bus word (20_memory.md R77) -/

/-- A bus word made of four successive bytes has them in its lanes, the lowest first. -/
theorem busByte_busWord_succ (f : Nat → Byte) (a m : Nat) (hm : m < 4) :
    busByte (busWord (f a) (f (a + 1)) (f (a + 2)) (f (a + 3))) m = f (a + m) := by
  obtain ⟨h0, h1, h2, h3⟩ := busByte_busWord (f a) (f (a + 1)) (f (a + 2)) (f (a + 3))
  match m, hm with
  | 0, _ => exact h0
  | 1, _ => exact h1
  | 2, _ => exact h2
  | 3, _ => exact h3

/-- Four successive replacements of a byte, by the lanes of a bus word, are one replacement of the range. -/
theorem ite_four_lanes (d : Word32) (a j : Nat) (old : Byte) :
    (if j = a + 3 then busByte d 3 else if j = a + 2 then busByte d 2 else if j = a + 1 then busByte d 1
      else if j = a then busByte d 0 else old) =
    if a ≤ j ∧ j < a + 4 then busByte d (j - a) else old := by
  by_cases h : a ≤ j ∧ j < a + 4
  · rw [if_pos h]
    obtain rfl | rfl | rfl | rfl : j = a ∨ j = a + 1 ∨ j = a + 2 ∨ j = a + 3 := by omega
    all_goals simp
  · rw [if_neg h]
    iterate 4 rw [if_neg (by omega)]

/-- A read of a register's k-th word has its window bytes 4k to 4k+3 in its lanes (20_memory.md R78). -/
theorem busByte_readWordLane (v : Word) (k m : Nat) (hm : m < 4) :
    busByte (readWordLane v k) m = wordByte v (4 * k + m) :=
  busByte_busWord_succ (wordByte v) (4 * k) m hm

/-- A read of MSGBUF's k-th word has its bytes 4k to 4k+3 in its lanes (20_memory.md R79). -/
theorem State.busByte_msgbufWord (s : State) (k m : Nat) (hm : m < 4) :
    busByte (s.msgbufWord k) m = Memory.msgbuf s.mem (4 * k + m) :=
  busByte_busWord_succ (Memory.msgbuf s.mem) (4 * k) m hm

/-- A write of a register's k-th word replaces its window bytes 4k to 4k+3 only (20_memory.md R78, R80). -/
theorem wordByte_writeWordLane (v : Word) (k : Nat) (d : Word32) (j : Nat) (hk : k < 8) (hj : j < 32) :
    wordByte (writeWordLane v k d) j =
      if 4 * k ≤ j ∧ j < 4 * k + 4 then busByte d (j - 4 * k) else wordByte v j := by
  simp only [writeWordLane]
  iterate 4 rw [wordByte_setWordByte _ _ j _ (by omega) hj]
  exact ite_four_lanes d (4 * k) j _

/-- A write of MSGBUF's k-th word replaces its bytes 4k to 4k+3 only (20_memory.md R79). -/
theorem State.read_setMsgbufWord (s : State) (k : Nat) (d : Word32) (h : s.mem.wf = true) (a : Nat) :
    Memory.read (s.setMsgbufWord k d).mem a =
      if msgbufBase + 4 * k ≤ a ∧ a < msgbufBase + 4 * k + 4 then busByte d (a - (msgbufBase + 4 * k))
      else Memory.read s.mem a := by
  have h0 := Memory.write_wf s.mem (msgbufBase + 4 * k) (busByte d 0) h
  have h1 := Memory.write_wf _ (msgbufBase + (4 * k + 1)) (busByte d 1) h0
  have h2 := Memory.write_wf _ (msgbufBase + (4 * k + 2)) (busByte d 2) h1
  simp only [State.setMsgbufWord, State.setMsgbuf_mem]
  rw [Memory.read_write _ _ a _ h2, Memory.read_write _ _ a _ h1, Memory.read_write _ _ a _ h0,
    Memory.read_write _ _ a _ h]
  exact ite_four_lanes d (msgbufBase + 4 * k) a _

end Sys2Proof.Machine
end

section
/-! The statements about the register window (20_memory.md), settled. -/

namespace Sys2Proof.Machine

/-- Settles O58: the offset names the k-th word of W[i], and the write replaces that word's four bytes. -/
theorem registerWindowIsBigEndian : Obligations.RegisterWindowIsBigEndian := by
  intro s rest i k off d hr hb hoff hs
  refine ⟨writeWordLane (s.reg i) k d, ?step, fun j hj => ?bytes⟩
  case step =>
    exact (step_write32 hr hs (acceptedTarget_regLane i k hoff)).trans
      (writeTarget_w_idle (s := s.afterAccess rest .okay) hb i k d)
  case bytes =>
    rw [← wordByte_toNat, wordByte_writeWordLane _ _ _ j k.isLt hj, apply_ite BitVec.toNat, busByte_toNat,
      wordByte_toNat]

/-- Settles O59: the offset names the k-th word of W[i], whose lanes are the four bytes. -/
theorem registerWindowReads : Obligations.RegisterWindowReads := by
  intro s rest i k off hr hb hoff hs
  refine ⟨_, step_read32 hr hs (acceptedTarget_regLane i k hoff), fun m hm => ?_⟩
  rw [readTarget_w_idle hb, ← busByte_toNat, busByte_readWordLane _ _ m hm, wordByte_toNat]

/-- Settles O60: the offset names the k-th word of MSGBUF, whose lanes are the four bytes, written and read. -/
theorem msgbufIsInMessageOrder : Obligations.MsgbufIsInMessageOrder := by
  intro s rest k off d hr hb hwf hoff
  have ht := acceptedTarget_msgbufWord k hoff
  refine ⟨fun hs => ?write, fun hs => ?read⟩
  case write =>
    refine ⟨(s.setMsgbufWord k d).mem, ?_, s.read_setMsgbufWord k d hwf⟩
    exact (step_write32 hr hs ht).trans (writeTarget_msgbuf_idle (s := s.afterAccess rest .okay) hb k d)
  case read =>
    refine ⟨_, step_read32 hr hs ht, fun m hm => ?_⟩
    rw [readTarget_msgbuf_idle hb]
    exact s.busByte_msgbufWord k m hm

/-- Settles O53: a read only answers; while BUSY the words of MSGBUF and of W answer 0. -/
theorem readsHaveNoSideEffect : Obligations.ReadsHaveNoSideEffect := by
  intro s rest off width hr hs
  refine ⟨step_read_answers hr hs, ?_⟩
  rintro hb rfl ha (hbuf | hw)
  · rw [step_read32 hr hs ((acceptedTarget_word off ha).trans (windowTarget_of_msgbuf _ hbuf)),
      readTarget_msgbuf_busy hb]
  · rw [step_read32 hr hs ((acceptedTarget_word off ha).trans (windowTarget_of_w _ hw)), readTarget_w_busy hb]

/-- Settles O55: such an access names no target, or is refused for its strobes. -/
theorem wrongWidthOrAlignmentIsABusError : Obligations.WrongWidthOrAlignmentIsABusError := by
  intro s rest off width strobes d hr
  refine ⟨fun h => ?_, step_write_partial hr⟩
  have ht := acceptedTarget_unaligned off width h
  exact ⟨step_read_refused hr ht, step_write_refused hr ht⟩

/-- Settles O56: a reserved offset names no target. -/
theorem reservedOffsetsAreBusErrors : Obligations.ReservedOffsetsAreBusErrors := by
  intro s rest off d hr h
  have ht := acceptedTarget_reserved off .w32 h
  exact ⟨step_read_refused hr ht, step_write_refused hr ht, rfl⟩

/-- Settles O57: each offset names its read-only register, a write to which does nothing. -/
theorem readOnlyRegistersIgnoreWrites : Obligations.ReadOnlyRegistersIgnoreWrites := by
  intro s rest off d hr hs hoff
  simp only [List.mem_cons, List.not_mem_nil, or_false] at hoff
  obtain rfl | rfl | rfl | rfl | rfl | rfl | rfl := hoff
  · exact step_write32 (t := .id) hr hs rfl
  · exact step_write32 (t := .version) hr hs rfl
  · exact step_write32 (t := .status) hr hs rfl
  · exact step_write32 (t := .errinfo) hr hs rfl
  · exact step_write32 (t := .errcmd) hr hs rfl
  · exact step_write32 (t := .msgbitsLo) hr hs rfl
  · exact step_write32 (t := .msgbitsHi) hr hs rfl

end Sys2Proof.Machine
end

section
/-! SUPPORT. The rows of the opcode map have different opcodes, so a word fits at most one (30_encoding.md R106, R110):
decoding is building the command of the row that fits and checking its ranges. -/

namespace Sys2Proof

/-! ## The row that a word fits -/

/-- Every row fixes the opcode (30_encoding.md R106). -/
theorem opcodeMap_mask_opcode : ∀ r ∈ opcodeMap, r.mask.extractLsb' 26 6 = BitVec.allOnes 6 := by
  have h : opcodeMap.all (fun r => r.mask.extractLsb' 26 6 == BitVec.allOnes 6) = true := by decide
  simpa only [List.all_eq_true, beq_iff_eq] using h

/-- No two rows have the same opcode (30_encoding.md R106). -/
theorem opcodeMap_opcodes_nodup : (opcodeMap.map fun r => opcField r.pattern).Nodup := by decide

/-- A word fits at most one row (30_encoding.md R106). -/
theorem Row.eq_of_fits {r q : Row} {c : Word32} (hr : r ∈ opcodeMap) (hq : q ∈ opcodeMap) (hrc : r.fits c = true)
    (hqc : q.fits c = true) : r = q := by
  have hopc : opcField r.pattern = opcField q.pattern :=
    (Row.fits_field hrc 26 6 (opcodeMap_mask_opcode r hr)).trans
      (Row.fits_field hqc 26 6 (opcodeMap_mask_opcode q hq)).symm
  exact List.inj_on_of_nodup_map opcodeMap_opcodes_nodup hr hq hopc

/-- The decoder finds the row that a word fits (30_encoding.md R110). -/
theorem find?_opcodeMap_of_fits {r : Row} {c : Word32} (hr : r ∈ opcodeMap) (h : r.fits c = true) :
    opcodeMap.find? (fun q => q.fits c) = some r := by
  obtain ⟨q, hq⟩ := Option.isSome_iff_exists.1 (List.find?_isSome (p := fun q => q.fits c) |>.2 ⟨r, hr, h⟩)
  have hqc : q.fits c = true := by simpa using List.find?_some hq
  rw [hq, Row.eq_of_fits (List.mem_of_find?_eq_some hq) hr hqc h]

/-- A word whose row builds a command with no range error decodes to that command (30_encoding.md R110). -/
theorem decode_ok_of_fits {r : Row} {c : Word32} (hr : r ∈ opcodeMap) (h : r.fits c = true)
    (hn : (r.build c).rangeError = none) : decode c = .ok (r.build c) := by
  rw [decode, find?_opcodeMap_of_fits hr h]
  dsimp only
  rw [hn]

/-- A word whose row builds a command with a range error is refused with it (30_encoding.md R108, R110). -/
theorem decode_error_of_fits {r : Row} {c : Word32} {why : Illegal} (hr : r ∈ opcodeMap) (h : r.fits c = true)
    (hw : (r.build c).rangeError = some why) : decode c = .error why := by
  rw [decode, find?_opcodeMap_of_fits hr h]
  dsimp only
  rw [hw]

/-- A word decodes to something iff it fits a row and the command the row builds is in range (30_encoding.md R108). -/
theorem exists_decode_ok_iff (c : Word32) :
    (∃ i, decode c = .ok i) ↔ ∃ r ∈ opcodeMap, r.fits c = true ∧ (r.build c).rangeError = none := by
  constructor
  · rintro ⟨i, h⟩
    obtain ⟨r, hr, hf, rfl, hn⟩ := decode_ok_cases c i h
    exact ⟨r, hr, hf, hn⟩
  · rintro ⟨r, hr, hf, hn⟩
    exact ⟨_, decode_ok_of_fits hr hf hn⟩

/-! ## Decoding an encoding -/

/-- Every command's encoding fits a row, which builds the command from it (30_encoding.md R106). -/
theorem rowEncoding (i : Instr) : Laws.RowEncoding.Statement i := by
  cases i with
  | nop => exact Laws.RowEncoding.nop
  | mov rd ra => exact Laws.RowEncoding.mov rd ra
  | ldc rd k => exact Laws.RowEncoding.ldc rd k
  | cmp ra rb => exact Laws.RowEncoding.cmp ra rb
  | madd m rd ra rb => exact Laws.RowEncoding.madd m rd ra rb
  | msub m rd ra rb => exact Laws.RowEncoding.msub m rd ra rb
  | mneg m rd ra => exact Laws.RowEncoding.mneg m rd ra
  | mmul m rd ra rb => exact Laws.RowEncoding.mmul m rd ra rb
  | msqr m rd ra => exact Laws.RowEncoding.msqr m rd ra
  | minv m rd ra => exact Laws.RowEncoding.minv m rd ra
  | mred m rd ra => exact Laws.RowEncoding.mred m rd ra
  | mont m rd ra rb => exact Laws.RowEncoding.mont m rd ra rb
  | tomont m rd ra => exact Laws.RowEncoding.tomont m rd ra
  | frommont m rd ra => exact Laws.RowEncoding.frommont m rd ra
  | pdbl rd ra => exact Laws.RowEncoding.pdbl rd ra
  | padd rd ra rb => exact Laws.RowEncoding.padd rd ra rb
  | pmul rd ra rb => exact Laws.RowEncoding.pmul rd ra rb
  | psham rd ra rb rc => exact Laws.RowEncoding.psham rd ra rb rc
  | paff rd ra => exact Laws.RowEncoding.paff rd ra
  | pchk ra => exact Laws.RowEncoding.pchk ra
  | shainit => exact Laws.RowEncoding.shainit
  | shablk => exact Laws.RowEncoding.shablk
  | shafin rd len => exact Laws.RowEncoding.shafin rd len
  | verify ra rb rc => exact Laws.RowEncoding.verify ra rb rc

/-- A command in range is what its encoding decodes to (30_encoding.md R110). -/
theorem decode_encode (i : Instr) (h : i.rangeError = none) : decode (encode i) = .ok i := by
  obtain ⟨k, r, hk, hf, hb⟩ := rowEncoding i
  rw [decode_ok_of_fits (List.mem_of_getElem? hk) hf (by rw [hb, h]), hb]

/-- The encoding of a command out of range is refused with the command's range error (30_encoding.md R108, R110). -/
theorem decode_encode_error (i : Instr) (why : Illegal) (h : i.rangeError = some why) :
    decode (encode i) = .error why := by
  obtain ⟨k, r, hk, hf, hb⟩ := rowEncoding i
  exact decode_error_of_fits (List.mem_of_getElem? hk) hf (by rw [hb, h])

end Sys2Proof
end

section
/-! SUPPORT. The rows of the opcode map against the legal forms, row by row: a row's fixed bits are the form's opcode
and zero bits, and its range checks are the form's (30_encoding.md R101 to R108). -/

namespace Sys2Proof

/-! ## Fixed bits -/

/-- Two words are equal iff their opcodes and the 26 bits below are. -/
theorem word_eq_iff {x y : Word32} :
    x = y ↔ x.extractLsb' 26 6 = y.extractLsb' 26 6 ∧ x.extractLsb' 0 26 = y.extractLsb' 0 26 := by
  constructor
  · rintro rfl
    exact ⟨rfl, rfl⟩
  · rintro ⟨hhi, hlo⟩
    have split : ∀ w : Word32, (w.extractLsb' 26 6 ++ w.extractLsb' 0 26 : Word32) = w := fun w =>
      (BitVec.extractLsb'_append_extractLsb'_eq_extractLsb' (by rfl)).trans BitVec.extractLsb'_eq_self
    rw [← split x, ← split y, hhi, hlo]

/-- The row fixes the opcode `opc` and, below it, the bits of `zeros` to 0 (30_encoding.md R106, R107). -/
def Row.fixes (r : Row) (opc : Nat) (zeros : Word32) : Bool :=
  r.mask.extractLsb' 26 6 == BitVec.allOnes 6 && r.mask.extractLsb' 0 26 == zeros.extractLsb' 0 26 &&
    zeros.extractLsb' 26 6 == 0#6 && (r.pattern.extractLsb' 26 6).toNat == opc && r.pattern.extractLsb' 0 26 == 0#26

/-- A word fits a row iff it has the row's opcode and its must-be-zero bits are 0 (30_encoding.md R106, R107). -/
theorem Row.fits_iff_of_fixes {r : Row} {opc : Nat} {zeros : Word32} (h : r.fixes opc zeros = true) (c : Word32) :
    r.fits c = true ↔ (c.extractLsb' 26 6).toNat = opc ∧ c &&& zeros = 0#32 := by
  simp only [Row.fixes, Bool.and_eq_true, beq_iff_eq] at h
  obtain ⟨⟨⟨⟨hmask, hlow⟩, hzeros⟩, hopc⟩, hpat⟩ := h
  have hfit : r.fits c = true ↔
      c.extractLsb' 26 6 = r.pattern.extractLsb' 26 6 ∧ (c &&& zeros).extractLsb' 0 26 = 0#26 := by
    rw [Row.fits, beq_iff_eq, word_eq_iff, BitVec.extractLsb'_and, BitVec.extractLsb'_and, hmask, BitVec.and_allOnes,
      hlow, hpat, BitVec.extractLsb'_and]
  have hzero : c &&& zeros = 0#32 ↔ (c &&& zeros).extractLsb' 0 26 = 0#26 := by
    rw [word_eq_iff, BitVec.extractLsb'_and, hzeros, BitVec.and_zero]
    exact and_iff_right rfl
  rw [hfit, hzero, ← hopc, BitVec.toNat_inj]

/-! ## Range checks -/

/-- A word's fields are in the ranges of a form: its T fields, its D fields, and the index of an LDC
(30_encoding.md R104, R105). -/
def FieldsInRange (opc : Nat) (ts ds : List Nat) (c : Word32) : Prop :=
  (∀ lo ∈ ts, (c.extractLsb' lo 5).toNat ≤ 29) ∧ (∀ lo ∈ ds, (c.extractLsb' lo 5).toNat ≤ 30) ∧
    (opc = 0x02 → (c.extractLsb' 0 6).toNat ≤ 11)

theorem tripleOk_regField (c : Word32) (lo : Nat) :
    tripleOk (regField c lo) = true ↔ (c.extractLsb' lo 5).toNat ≤ 29 := decide_eq_true_iff

theorem pairOk_regField (c : Word32) (lo : Nat) :
    pairOk (regField c lo) = true ↔ (c.extractLsb' lo 5).toNat ≤ 30 := decide_eq_true_iff

/-- A D field over 30 is out of range (30_encoding.md R104). -/
theorem pairOk_eq_false {f : Reg} (h : 30 < f.val) : pairOk f = false := decide_eq_false (Nat.not_le.2 h)

/-- A check passes iff its condition holds. -/
theorem ite_none_eq_none {P : Prop} [Decidable P] {why : Illegal} : (if P then none else some why) = none ↔ P := by
  simp

theorem fieldsInRange_noChecks {opc : Nat} (h : opc ≠ 0x02) (c : Word32) : FieldsInRange opc [] [] c :=
  ⟨nofun, nofun, fun e => absurd e h⟩

/-- The fields of a form other than LDC's are in range iff the checks of its T and D fields pass. -/
theorem fieldsInRange_iff {opc : Nat} (h : opc ≠ 0x02) (ts ds : List Nat) (c : Word32) :
    FieldsInRange opc ts ds c ↔
      (∀ lo ∈ ts, tripleOk (regField c lo) = true) ∧ ∀ lo ∈ ds, pairOk (regField c lo) = true := by
  simp only [FieldsInRange, h, false_imp_iff, and_true, tripleOk_regField, pairOk_regField]

/-! ## Rows and forms -/

/-- The rows fix the bits of the legal forms, in order (30_encoding.md R106, R107). -/
theorem opcodeMap_fixes : List.Forall₂ (fun r f => r.fixes f.1 f.2.1 = true) opcodeMap legalForms :=
  (List.all₂_eq_true _ _).1 (by decide)

/-- The range checks of the rows are those of the legal forms, in order: LDC, the curve commands and VERIFY have one,
the other rows none (30_encoding.md R104, R105). -/
theorem opcodeMap_ranges (c : Word32) :
    List.Forall₂ (fun r f => (r.build c).rangeError = none ↔ FieldsInRange f.1 f.2.2.1 f.2.2.2 c)
      opcodeMap legalForms := by
  have noChecks {i : Instr} {opc : Nat} (h : opc ≠ 0x02) (hi : i.rangeError = none) :
      i.rangeError = none ↔ FieldsInRange opc [] [] c := iff_of_true hi (fieldsInRange_noChecks h c)
  simp only [opcodeMap, rowsMove, rowsModular, rowsCurve, rowsShaVerify, List.cons_append, List.nil_append, legalForms,
    List.forall₂_cons, List.forall₂_nil_left_iff, and_true]
  refine ⟨noChecks nofun rfl, noChecks nofun rfl, ?ldc, noChecks nofun rfl, noChecks nofun rfl, noChecks nofun rfl,
    noChecks nofun rfl, noChecks nofun rfl, noChecks nofun rfl, noChecks nofun rfl, noChecks nofun rfl,
    noChecks nofun rfl, noChecks nofun rfl, noChecks nofun rfl, ?pdbl, ?padd, ?pmul, ?psham, ?paff, ?pchk,
    noChecks nofun rfl, noChecks nofun rfl, noChecks nofun rfl, ?verify⟩
  case ldc => exact ite_none_eq_none.trans (by simp [FieldsInRange, imm6Field])
  case pdbl | pmul | psham | paff => exact ite_none_eq_none.trans (by simp [fieldsInRange_iff, rdField, raField])
  case padd => exact ite_none_eq_none.trans (by simp [fieldsInRange_iff, rdField, raField, rbField, and_assoc])
  case pchk => exact ite_none_eq_none.trans (by simp [fieldsInRange_iff, raField])
  case verify => exact ite_none_eq_none.trans (by simp [fieldsInRange_iff, raField, rbField])

/-- Lists that agree member by member on two properties agree on whether a member has them. -/
theorem exists_mem_iff_of_forall₂ {α β : Type} {P : α → Prop} {Q : β → Prop} {as : List α} {bs : List β}
    (h : List.Forall₂ (fun a b => P a ↔ Q b) as bs) : (∃ a ∈ as, P a) ↔ ∃ b ∈ bs, Q b := by
  induction h with
  | nil => simp
  | cons hab _ ih => simp only [List.mem_cons, exists_eq_or_imp, hab, ih]

/-- The words that decode are those of a legal form (30_encoding.md R101, R102, R106, R108). -/
theorem exists_decode_ok_iff_legalForm (c : Word32) :
    (∃ i, decode c = .ok i) ↔
      ∃ f ∈ legalForms, ((c.extractLsb' 26 6).toNat = f.1 ∧ c &&& f.2.1 = 0#32) ∧
        FieldsInRange f.1 f.2.2.1 f.2.2.2 c := by
  rw [exists_decode_ok_iff]
  refine exists_mem_iff_of_forall₂ (List.Forall₂.mp ?_ opcodeMap_fixes (opcodeMap_ranges c))
  exact fun r f hfix hrange => and_congr (Row.fits_iff_of_fixes hfix c) hrange

end Sys2Proof
end

section
/-! The statements about the encoding (30_encoding.md), and on a pair base out of range (44_verify.md R241), settled. -/

namespace Sys2Proof.Machine

/-- Settles O7: an encoding fits the row of its command, and no other row. -/
theorem decodeOfEncodeIsTheCommand : Obligations.DecodeOfEncodeIsTheCommand :=
  fun i => ⟨fun h => decode_encode i (Option.isNone_iff_eq_none.1 h), decode_encode_error i⟩

/-- Settles O8: the row a word fits fixes every field that its command does not name. -/
theorem decodedWordIsItsEncoding : Obligations.DecodedWordIsItsEncoding :=
  fun c i h => ⟨encode_of_decode c i h, wellFormed_of_decode c i h⟩

/-- Settles O9: each word is the encoding of its command, which is in range. -/
theorem workedEncodingsDecode : Obligations.WorkedEncodingsDecode :=
  ⟨decode_encode .nop rfl, decode_encode (.mov 3 7) rfl, decode_encode (.ldc 4 6#6) rfl, decode_encode (.cmp 2 3) rfl,
    decode_encode (.madd .p 2 0 1) rfl, decode_encode (.mmul .n 5 6 7) rfl, decode_encode (.minv .p 1 0) rfl,
    decode_encode (.padd 11 8 4) rfl, decode_encode (.psham 20 10 2 3) rfl, decode_encode (.shafin 5 3#6) rfl,
    decode_encode (.verify 10 12 14) rfl⟩

/-- Settles O10: the rows of the opcode map are the legal forms, and an illegal word latches ILLEGAL_CMD. -/
theorem illegalWordsCompleteWithIllegalCmd : Obligations.IllegalWordsCompleteWithIllegalCmd := by
  refine ⟨fun c => ?forms, fun c why s hc hs => ⟨?issue, ?complete⟩⟩
  case forms =>
    rw [exists_decode_ok_iff_legalForm]
    simp only [FieldsInRange, and_assoc]
  case issue => rw [writeCmd_illegal c why s hc, issueWord_idle c _ s hs]
  case complete => exact complete_error _ c .illegalCmd rfl

/-- A command out of range commits nothing but ILLEGAL_CMD (30_encoding.md R108). -/
theorem commitsTo_of_rangeError (i : Instr) (s : State) (why : Illegal) (hs : s.pending = none)
    (h : i.rangeError = some why) : CommitsTo i s (s.afterError (encode i) .illegalCmd) := by
  have hw : i.wellFormed = false := by rw [Instr.wellFormed, h, Option.isNone_some]
  exact commitsTo_of_error i s .illegalCmd hs (issuedResult_illFormed i s hw)

/-- Settles O45: a base over 30 is the command's range error. -/
theorem pairOutOfRangeIsIllegal : Obligations.PairOutOfRangeIsIllegal := by
  intro ra rb rc s hs
  refine ⟨fun h => commitsTo_of_rangeError _ s .pairOutOfRange hs (if_neg ?verify),
    fun h => commitsTo_of_rangeError _ s .pairOutOfRange hs (if_neg ?pchk)⟩
  case verify => obtain h | h := h <;> simp [pairOk_eq_false h]
  case pchk => simp [pairOk_eq_false h]

end Sys2Proof.Machine
end

section
/-! SUPPORT. What the move, constant and compare commands compute, in the terms of their statements
(40_move_compare.md). -/

namespace Sys2Proof.Machine

/-! ## A commit on an idle core -/

/-- A well-formed command whose function gives effects commits them and DONE; the core, idle at issue, is idle again
(10_state.md R39). -/
theorem commitsTo_done_of_commit (i : Instr) (s : State) (ws : List Write) (h : s.pending = none)
    (hw : i.wellFormed = true) (hr : resultOf i s = .commit ws) :
    CommitsTo i s { applyWrites ws s with done := true } := by
  simpa only [applyWrites_pending, h] using commitsTo_of_commit i s ws h hw hr

/-! ## The constant ROM (40_move_compare.md R132) -/

/-- The ROM's table holds the value of each defined index, the Montgomery constants included. -/
theorem rom_getElem?_eq_romValue : ∀ k < 12, Config.rom[k]? = some (romValue k) := by decide +kernel

theorem romEntry_eq_romValue {k : Nat} (h : k ≤ 11) : romEntry k = some (BitVec.ofNat 256 (romValue k)) := by
  rw [romEntry, rom_getElem?_eq_romValue k (Nat.lt_succ_of_le h), Option.map_some]

/-- LDC of a defined index commits its constant to the destination (40_move_compare.md R133). -/
theorem ldcResult_eq_commit (rd : Reg) {k : BitVec 6} (s : State) (h : k.toNat ≤ 11) :
    ldcResult rd k s = .commit [.reg rd (BitVec.ofNat 256 (romValue k.toNat))] := by
  rw [ldcResult, immValue, romEntry_eq_romValue h]

/-- LDC's range check passes iff its index is defined (30_encoding.md R105). -/
theorem rangeError_ldc_eq_none {rd : Reg} {k : BitVec 6} : (Instr.ldc rd k).rangeError = none ↔ k.toNat ≤ 11 :=
  ite_none_eq_none

/-! ## The compare flags (40_move_compare.md R134) -/

theorem eqFlag_eq (x y : Word) : eqFlag x y = decide (x.toNat = y.toNat) := by
  rw [eqFlag, beq_eq_decide]
  exact decide_eq_decide.2 BitVec.toNat_inj.symm

theorem ltFlag_eq (x y : Word) : ltFlag x y = decide (x.toNat < y.toNat) := rfl

theorem cmpResult_eq (ra rb : Reg) (s : State) :
    cmpResult ra rb s = .commit [.eq (decide ((s.reg ra).toNat = (s.reg rb).toNat)),
      .lt (decide ((s.reg ra).toNat < (s.reg rb).toNat))] := by
  rw [cmpResult, eqFlag_eq, ltFlag_eq]

end Sys2Proof.Machine
end

section
/-! The statements about the move, constant and compare commands (40_move_compare.md), settled. -/

namespace Sys2Proof.Machine

/-- Settles O16: NOP has no effect to commit, and MOV the one register. -/
theorem nopAndMovCommit : Obligations.NopAndMovCommit :=
  ⟨fun s hs => commitsTo_done_of_commit .nop s [] hs rfl rfl,
    fun rd ra s hs => commitsTo_done_of_commit (.mov rd ra) s [.reg rd (s.reg ra)] hs rfl rfl⟩

/-- Settles O17: the ROM holds the value of each index up to 11, and an index over 11 is LDC's range error. -/
theorem ldcLoadsTheConstant : Obligations.LdcLoadsTheConstant := by
  refine fun rd k s hs => ⟨fun h => ?constant, fun h => ?reserved⟩
  case constant =>
    have hw : (Instr.ldc rd k).wellFormed = true := Option.isNone_iff_eq_none.2 (rangeError_ldc_eq_none.2 h)
    exact commitsTo_done_of_commit (.ldc rd k) s _ hs hw (ldcResult_eq_commit rd s h)
  case reserved => exact commitsTo_of_rangeError (.ldc rd k) s .romIndex hs (if_neg (Nat.not_le.2 h))

/-- Settles O18: the flags CMP commits compare the registers' unsigned integers. -/
theorem cmpSetsEqAndLt : Obligations.CmpSetsEqAndLt :=
  fun ra rb s hs => commitsTo_done_of_commit (.cmp ra rb) s _ hs rfl (cmpResult_eq ra rb s)

end Sys2Proof.Machine
end

section
/-! SUPPORT. The modular commands: what a checked source list answers, what a committed result leaves, and the laws of
the arithmetic modulo p and n that their statements rest on (41_modular.md R150 to R164). -/

namespace Sys2Proof.Machine

/-! ## The zero flag and a committed result (41_modular.md R152) -/

theorem zrFlag_eq (r : Nat) : zrFlag r = decide (r = 0) := beq_eq_decide r 0

/-- A value in range is 0 exactly when the register that receives it holds 0. -/
theorem zrFlag_eq_decide_ofNat {r : Nat} (h : r < 2 ^ 256) : zrFlag r = decide (BitVec.ofNat 256 r = 0#256) := by
  rw [zrFlag_eq, decide_eq_decide, ← BitVec.toNat_inj, BitVec.toNat_ofNat, Nat.mod_eq_of_lt h, BitVec.toNat_zero]

/-- The completion of a latched register and ZR. -/
theorem complete_modular (s : State) (c : Word32) (rd : Reg) (v : Word) (z : Bool) :
    complete { s with pending := some ⟨c, .commit [.reg rd v, .zr z]⟩ } = s.afterModular rd v z := rfl

theorem State.afterModular_reg_same (s : State) (rd : Reg) (v : Word) (z : Bool) :
    (s.afterModular rd v z).reg rd = v := s.reg_setReg_same rd v

theorem State.afterModular_reg_other (s : State) {rd r : Reg} (v : Word) (z : Bool) (h : r ≠ rd) :
    (s.afterModular rd v z).reg r = s.reg r := s.reg_setReg_other rd r v h

/-! ## Checked sources (41_modular.md R151) -/

/-- The check of a source list in its order, before the result k. -/
def requireCanons (m : Modulus) (s : State) (src : List Reg) (k : Result) : Result :=
  src.foldr (fun r => requireCanon m (s.regNat r)) k

theorem requireCanons_ok {m : Modulus} {s : State} {src : List Reg} (k : Result)
    (h : ∀ r ∈ src, s.regNat r < modulus m) : requireCanons m s src k = k := by
  induction src with
  | nil => rfl
  | cons r rs ih =>
    obtain ⟨hr, hrs⟩ := List.forall_mem_cons.1 h
    exact (requireCanon_ok m _ _ hr).trans (ih hrs)

theorem requireCanons_bad {m : Modulus} {s : State} {src : List Reg} (k : Result)
    (h : ∃ r ∈ src, modulus m ≤ s.regNat r) : requireCanons m s src k = .error .noncanon := by
  induction src with
  | nil => simp at h
  | cons r rs ih =>
    by_cases hr : s.regNat r < modulus m
    · obtain ⟨q, hq, hv⟩ := h
      obtain rfl | hq := List.mem_cons.1 hq
      · exact absurd hr (Nat.not_lt.2 hv)
      · exact (requireCanon_ok m _ _ hr).trans (ih ⟨q, hq, hv⟩)
    · exact requireCanon_bad m _ _ (Nat.not_lt.1 hr)

/-- A command whose checks pass commits its result, with ZR whether it is 0. -/
theorem commitsTo_of_canonical (i : Instr) (s : State) {m : Modulus} {rd : Reg} {src : List Reg} (r : Nat)
    (hs : s.pending = none) (hsrc : ∀ q ∈ src, s.regNat q < modulus m) (hw : i.wellFormed = true)
    (hi : resultOf i s = requireCanons m s src (modularResult rd r)) :
    CommitsTo i s (s.afterModular rd (BitVec.ofNat 256 r) (decide (r = 0))) := by
  rw [← zrFlag_eq]
  exact commitsTo_of_commit i s _ hs hw (hi.trans (requireCanons_ok _ hsrc))

theorem canonical_one {m : Modulus} {s : State} {ra : Reg} (ha : s.regNat ra < modulus m) :
    ∀ q ∈ [ra], s.regNat q < modulus m := List.forall_mem_singleton.2 ha

theorem canonical_two {m : Modulus} {s : State} {ra rb : Reg} (ha : s.regNat ra < modulus m)
    (hb : s.regNat rb < modulus m) : ∀ q ∈ [ra, rb], s.regNat q < modulus m :=
  List.forall_mem_cons.2 ⟨ha, canonical_one hb⟩

/-- A checked command is well formed, and its function is the check of its sources before a result that is not
NONCANON. -/
theorem resultOf_eq_requireCanons {i : Instr} {m : Modulus} {src : List Reg} (s : State)
    (h : checkedSources i = some (m, src)) :
    i.wellFormed = true ∧ ∃ k, resultOf i s = requireCanons m s src k ∧ k ≠ .error .noncanon := by
  cases i with
  | madd | msub | mmul | mont | mneg | msqr | tomont | frommont =>
    obtain ⟨rfl, rfl⟩ := Prod.mk.inj (Option.some.inj h)
    exact ⟨rfl, _, rfl, nofun⟩
  | minv m' rd ra =>
    obtain ⟨rfl, rfl⟩ := Prod.mk.inj (Option.some.inj h)
    refine ⟨rfl, if s.regNat ra = 0 then .error .invZero else modularResult rd (invMod (modulus m') (s.regNat ra)),
      rfl, ?_⟩
    split <;> exact nofun
  | _ => nomatch h

/-- What a modular command commits: its destination, in range, and ZR. -/
theorem commitForm_modular {i : Instr} {rd : Reg} {ws : List Write} (h : CommitForm i ws)
    (hd : modularDest i = some rd) :
    ∃ r < 2 ^ 256, ws = [.reg rd (BitVec.ofNat 256 r), .zr (zrFlag r)] := by
  have below : ∀ {m : Modulus} {r : Nat}, (0 < modulus m → r < modulus m) → r < 2 ^ 256 := fun {m _} hr =>
    (hr (modulus_prime m).pos).trans (modulus_bounds m).2
  cases i with
  | madd | msub | mmul | mont | mneg | msqr | minv | mred | tomont | frommont =>
    obtain rfl := Option.some.inj hd
    obtain ⟨r, hr, hws⟩ := h
    exact ⟨r, below hr, hws⟩
  | _ => nomatch hd

/-! ## Sums, differences and products (41_modular.md R153 to R158) -/

/-- Below twice the modulus one conditional subtraction reduces. -/
theorem mod_eq_sub_once {x m : Nat} (h : x < 2 * m) : x % m = if x < m then x else x - m := by
  split
  case isTrue hx => exact Nat.mod_eq_of_lt hx
  case isFalse hx => rw [Nat.mod_eq_sub_mod (Nat.not_lt.1 hx), Nat.mod_eq_of_lt (by omega)]

theorem addMod_of_canonical {m x y : Nat} (hx : x < m) (hy : y < m) :
    addMod m x y = if x + y < m then x + y else x + y - m := mod_eq_sub_once (by omega)

theorem subMod_of_canonical {m x y : Nat} (hx : x < m) (hy : y < m) :
    subMod m x y = if y ≤ x then x - y else x + m - y := by
  rw [subMod]
  split
  · rw [Int.emod_eq_of_lt (by omega) (by omega)]
    omega
  · rw [Int.emod_eq_add_self_emod, Int.emod_eq_of_lt (by omega) (by omega)]
    omega

theorem subMod_zero_of_canonical {m y : Nat} (hy : y < m) : subMod m 0 y = if y = 0 then 0 else m - y := by
  rw [subMod_of_canonical (Nat.zero_lt_of_lt hy) hy]
  simp only [Nat.le_zero, Nat.zero_sub, Nat.zero_add]

/-- Any 256-bit value is below twice either modulus (41_modular.md R158). -/
theorem two_pow_256_le_two_mul_modulus (m : Modulus) : 2 ^ 256 ≤ 2 * modulus m := by
  cases m <;> decide +kernel

/-- A product of canonical values is 0 only if a factor is, because the moduli are prime (41_modular.md R156). -/
theorem mulMod_eq_zero_iff {m : Modulus} {x y : Nat} (hx : x < modulus m) (hy : y < modulus m) :
    mulMod (modulus m) x y = 0 ↔ x = 0 ∨ y = 0 := by
  rw [mulMod, ← Nat.dvd_iff_mod_eq_zero, (modulus_prime m).dvd_mul, Nat.dvd_iff_mod_eq_zero, Nat.dvd_iff_mod_eq_zero,
    Nat.mod_eq_of_lt hx, Nat.mod_eq_of_lt hy]

theorem addMod_lt (m : Modulus) (x y : Nat) : addMod (modulus m) x y < modulus m := Nat.mod_lt _ (modulus_prime m).pos

theorem mulMod_lt (m : Modulus) (x y : Nat) : mulMod (modulus m) x y < modulus m := Nat.mod_lt _ (modulus_prime m).pos

/-! ## The residues of the modular functions, and the Montgomery radix (41_modular.md R160) -/

theorem addMod_cast (m x y : Nat) : ((addMod m x y : Nat) : ZMod m) = x + y := by
  rw [addMod, ZMod.natCast_mod, Nat.cast_add]

theorem mulMod_cast (m x y : Nat) : ((mulMod m x y : Nat) : ZMod m) = x * y := by
  rw [mulMod, ZMod.natCast_mod, Nat.cast_mul]

theorem subMod_cast (m : Modulus) (x y : Nat) : ((subMod (modulus m) x y : Nat) : ZMod (modulus m)) = x - y := by
  have h0 : 0 ≤ ((x : Int) - y) % (modulus m : Int) :=
    Int.emod_nonneg _ (Int.natCast_ne_zero.2 (modulus_prime m).ne_zero)
  rw [subMod, ← Int.cast_natCast, Int.toNat_of_nonneg h0, ZMod.intCast_mod, Int.cast_sub, Int.cast_natCast,
    Int.cast_natCast]

/-- Canonical values with the same residue are equal. -/
theorem eq_of_cast_eq {m x y : Nat} (hx : x < m) (hy : y < m) (h : (x : ZMod m) = y) : x = y := by
  rwa [ZMod.natCast_eq_natCast_iff', Nat.mod_eq_of_lt hx, Nat.mod_eq_of_lt hy] at h

theorem montRadix_mul_self : Config.montRadix * Config.montRadix = 2 ^ 512 := by rw [Config.montRadix, ← pow_add]

theorem montInverse_mul_montRadix_mod (m : Modulus) : montInverse m * Config.montRadix % modulus m = 1 % modulus m := by
  cases m <;> decide +kernel

/-- `Rinv(M)` is the inverse of the radix modulo MOD(M) (41_modular.md R160). -/
theorem montInverse_mul_montRadix_cast (m : Modulus) :
    (montInverse m : ZMod (modulus m)) * (Config.montRadix : ZMod (modulus m)) = 1 := by
  rw [← Nat.cast_mul, ← Nat.cast_one, ZMod.natCast_eq_natCast_iff']
  exact montInverse_mul_montRadix_mod m

/-- Multiplying a product with `Rinv(M)` by the radix gives back the other factor. -/
theorem mulMod_montInverse_mul_montRadix (m : Modulus) (x : Nat) :
    mulMod (modulus m) x (montInverse m) * Config.montRadix % modulus m = x % modulus m := by
  rw [← ZMod.natCast_eq_natCast_iff', Nat.cast_mul, mulMod_cast, mul_assoc, montInverse_mul_montRadix_cast, mul_one]

/-! ## The laws of the modular functions (41_modular.md R164) -/

/-- The Montgomery product of two Montgomery forms is the Montgomery form of the product. -/
theorem mont_tomont_tomont (m : Modulus) (x y : Nat) :
    mulMod (modulus m) (mulMod (modulus m) x Config.montRadix * mulMod (modulus m) y Config.montRadix) (montInverse m) =
      mulMod (modulus m) (mulMod (modulus m) x y) Config.montRadix := by
  apply eq_of_cast_eq (mulMod_lt m _ _) (mulMod_lt m _ _)
  simp only [mulMod_cast, Nat.cast_mul]
  linear_combination (x * y * Config.montRadix : ZMod (modulus m)) * montInverse_mul_montRadix_cast m

/-- FROMMONT undoes TOMONT on canonical values. -/
theorem frommont_tomont {m : Modulus} {x : Nat} (hx : x < modulus m) :
    mulMod (modulus m) (mulMod (modulus m) x Config.montRadix) (montInverse m) = x := by
  apply eq_of_cast_eq (mulMod_lt m _ _) hx
  simp only [mulMod_cast]
  linear_combination (x : ZMod (modulus m)) * montInverse_mul_montRadix_cast m

/-- TOMONT is the Montgomery product with the squared radix of the constant ROM (40_move_compare.md R132). -/
theorem mont_sq_montRadix (m : Modulus) (x : Nat) :
    mulMod (modulus m) (x * (2 ^ 512 % modulus m)) (montInverse m) = mulMod (modulus m) x Config.montRadix := by
  apply eq_of_cast_eq (mulMod_lt m _ _) (mulMod_lt m _ _)
  rw [← montRadix_mul_self]
  simp only [mulMod_cast, Nat.cast_mul, ZMod.natCast_mod]
  linear_combination (x * Config.montRadix : ZMod (modulus m)) * montInverse_mul_montRadix_cast m

theorem subMod_eq_addMod_neg (m : Modulus) (x y : Nat) :
    subMod (modulus m) x y = addMod (modulus m) x (subMod (modulus m) 0 y) := by
  apply eq_of_cast_eq (subMod_lt _ _ _ (modulus_prime m).pos) (addMod_lt m _ _)
  rw [subMod_cast, addMod_cast, subMod_cast, Nat.cast_zero, zero_sub, sub_eq_add_neg]

end Sys2Proof.Machine
end

section
/-! The statements about the modular arithmetic commands (41_modular.md), settled. -/

namespace Sys2Proof.Machine

/-- Settles O21: a product of canonical values modulo a prime is 0 only for a zero factor. -/
theorem mmulAndMsqrMultiplyModulo : Obligations.MmulAndMsqrMultiplyModulo := by
  intro m rd ra rb s hs ha
  refine ⟨fun hb => ?mmul, ?msqr⟩
  case mmul =>
    rw [← decide_eq_decide.2 (mulMod_eq_zero_iff ha hb)]
    exact commitsTo_of_canonical (.mmul m rd ra rb) s _ hs (canonical_two ha hb) rfl rfl
  case msqr =>
    rw [← decide_eq_decide.2 ((mulMod_eq_zero_iff ha ha).trans (or_self_iff ..))]
    exact commitsTo_of_canonical (.msqr m rd ra) s _ hs (canonical_one ha) rfl rfl

/-- Settles O23: the inverse is `invMod`, which is not 0, and the check of the source passes for 0. -/
theorem minvWritesTheUniqueInverse : Obligations.MinvWritesTheUniqueInverse := by
  intro m rd ra s hs
  refine ⟨fun h0 ha => ?inverse, fun h0 => ?zero⟩
  case inverse =>
    have hne := invMod_ne_zero m _ h0 ha
    refine ⟨_, ⟨⟨Nat.pos_of_ne_zero hne, invMod_lt m _, mul_invMod m _ h0 ha⟩, ?_⟩,
      fun y ⟨⟨_, hy, hinv⟩, _⟩ => invMod_unique m _ y ha hy hinv⟩
    rw [← decide_eq_false hne]
    exact commitsTo_of_canonical (.minv m rd ra) s _ hs (canonical_one ha) rfl
      (congrArg (requireCanons m s [ra]) (if_neg h0))
  case zero =>
    have ha : s.regNat ra < modulus m := h0.trans_lt (modulus_prime m).pos
    exact commitsTo_of_error (.minv m rd ra) s .invZero hs ((requireCanon_ok m _ _ ha).trans (if_pos h0))

/-- Settles O24: multiplying by the radix undoes the product with `Rinv(M)`. -/
theorem montgomeryCommandsMultiplyAndConvert : Obligations.MontgomeryCommandsMultiplyAndConvert := by
  intro m rd ra rb s hs ha
  refine ⟨fun hb => ⟨_, mulMod_lt m _ _, mulMod_montInverse_mul_montRadix m _, ?mont⟩,
    ⟨_, mulMod_lt m _ _, rfl, ?tomont⟩,
    ⟨_, mulMod_lt m _ _, (mulMod_montInverse_mul_montRadix m _).trans (Nat.mod_eq_of_lt ha), ?frommont⟩⟩
  case mont => exact commitsTo_of_canonical (.mont m rd ra rb) s _ hs (canonical_two ha hb) rfl rfl
  case tomont => exact commitsTo_of_canonical (.tomont m rd ra) s _ hs (canonical_one ha) rfl rfl
  case frommont => exact commitsTo_of_canonical (.frommont m rd ra) s _ hs (canonical_one ha) rfl rfl

/-- Settles O25: what a modular command commits is its destination and ZR, which reads the value written. -/
theorem modularCommandsSetZr : Obligations.ModularCommandsSetZr := by
  intro i rd s ws hd hs hi
  have form := commitForm_of_issued i s ws ((issuesWith_iff i s _ hs).1 hi).symm
  obtain ⟨r, hr, rfl⟩ := commitForm_modular form hd
  rw [complete_modular, zrFlag_eq_decide_ofNat hr]
  refine ⟨?flags, fun q hq => s.afterModular_reg_other _ _ hq⟩
  case flags => rw [State.afterModular_reg_same]; rfl

/-- Settles O26: the function of a checked command is the check of its sources before any other result. -/
theorem nonCanonicalSourcesRaiseNoncanon : Obligations.NonCanonicalSourcesRaiseNoncanon := by
  intro i m src s hc hs
  obtain ⟨hw, k, hi, hk⟩ := resultOf_eq_requireCanons s hc
  rw [← issuedResult_wellFormed i s hw] at hi
  refine ⟨fun h => ?bad, fun h hn => ?canonical, fun rd ra => ⟨_, (issuesWith_iff _ s _ hs).2 rfl⟩⟩
  case bad => exact commitsTo_of_error i s .noncanon hs (hi.trans (requireCanons_bad k h))
  case canonical => exact hk ((requireCanons_ok k h).symm.trans (hi.symm.trans ((issuesWith_iff i s _ hs).1 hn).symm))

/-- Settles O27: each law compares two canonical values of the same residue, as `Rinv(M)` inverts the radix. -/
theorem montgomeryLaws : Obligations.MontgomeryLaws := by
  intro m x y hx hy mont tomont frommont
  have product : mont (tomont x) (tomont y) = tomont (mulMod (modulus m) x y) := mont_tomont_tomont m x y
  refine ⟨product, ?back, frommont_tomont hx, mont_sq_montRadix m x, subMod_eq_addMod_neg m x y,
    fun h0 => mul_invMod m x h0 hx⟩
  case back =>
    rw [product]
    exact frommont_tomont (mulMod_lt m x y)

/-- Settles O19: the sum is below twice the modulus. -/
theorem maddAddsModulo : Obligations.MaddAddsModulo := by
  intro m rd ra rb s hs ha hb x r
  have hr : addMod (modulus m) (s.reg ra).toNat (s.reg rb).toNat = r := addMod_of_canonical ha hb
  rw [← hr]
  exact commitsTo_of_canonical (.madd m rd ra rb) s _ hs (canonical_two ha hb) rfl rfl

/-- Settles O20: the residue of a negative difference is the difference plus the modulus. -/
theorem msubAndMnegSubtractModulo : Obligations.MsubAndMnegSubtractModulo := by
  intro m rd ra rb s hs ha a b
  refine ⟨fun hb => ?msub, ?mneg⟩
  case msub =>
    intro r
    have hr : subMod (modulus m) a b = r := subMod_of_canonical ha hb
    rw [← hr]
    exact commitsTo_of_canonical (.msub m rd ra rb) s _ hs (canonical_two ha hb) rfl rfl
  case mneg =>
    intro r
    have hr : subMod (modulus m) 0 a = r := subMod_zero_of_canonical ha
    rw [← hr]
    exact commitsTo_of_canonical (.mneg m rd ra) s _ hs (canonical_one ha) rfl rfl

/-- Settles O22: any 256-bit value is below twice the modulus. -/
theorem mredReducesAnyValue : Obligations.MredReducesAnyValue := by
  intro m rd ra s hs a r
  have hr : a % modulus m = r := mod_eq_sub_once ((s.reg ra).isLt.trans_le (two_pow_256_le_two_mul_modulus m))
  rw [← hr]
  exact commitsTo_of_canonical (m := m) (src := []) (.mred m rd ra) s _ hs (List.forall_mem_nil _) rfl rfl

end Sys2Proof.Machine
end

section
/-! SUPPORT. The point commands: what a checked list of point sources answers, the point each command computes, and what
a committed point leaves (42_curve.md R180 to R182). -/

namespace Sys2Proof.Machine

/-! ## Checked points (42_curve.md R181) -/

/-- The check of a list of points in its order, before the result k. -/
def requirePoints (s : State) (src : List Reg) (k : Result) : Result :=
  src.foldr (fun f => requirePoint (s.point f)) k

theorem requirePoints_ok {s : State} {src : List Reg} (k : Result) (h : ∀ f ∈ src, (s.point f).canonical = true) :
    requirePoints s src k = k := by
  induction src with
  | nil => rfl
  | cons f fs ih =>
    obtain ⟨hf, hfs⟩ := List.forall_mem_cons.1 h
    exact (requirePoint_ok _ _ hf).trans (ih hfs)

theorem requirePoints_bad {s : State} {src : List Reg} (k : Result) (h : ∃ f ∈ src, (s.point f).canonical = false) :
    requirePoints s src k = .error .noncanon := by
  induction src with
  | nil => simp at h
  | cons f fs ih =>
    cases hf : (s.point f).canonical
    · exact requirePoint_bad _ _ hf
    · obtain ⟨q, hq, hv⟩ := h
      obtain rfl | hq := List.mem_cons.1 hq
      · rw [hf] at hv
        nomatch hv
      · exact (requirePoint_ok _ _ hf).trans (ih ⟨q, hq, hv⟩)

theorem requirePoints_commit {s : State} {src : List Reg} {k : Result} {ws : List Write}
    (h : requirePoints s src k = .commit ws) : (∀ f ∈ src, (s.point f).canonical = true) ∧ k = .commit ws := by
  induction src with
  | nil => exact ⟨List.forall_mem_nil _, h⟩
  | cons f fs ih =>
    obtain ⟨hf, h⟩ := requirePoint_commit _ _ _ h
    obtain ⟨hfs, h⟩ := ih h
    exact ⟨List.forall_mem_cons.2 ⟨hf, hfs⟩, h⟩

/-- A point of the register file is canonical iff its three registers are below p (42_curve.md R181). -/
theorem State.point_canonical_iff (s : State) (f : Reg) : (s.point f).canonical = true ↔
    (s.reg f).toNat < Config.p ∧ (s.reg (f + 1)).toNat < Config.p ∧ (s.reg (f + 2)).toNat < Config.p :=
  JPoint.canonical_iff _

theorem State.point_canonical_eq_false_iff (s : State) (f : Reg) : (s.point f).canonical = false ↔
    Config.p ≤ (s.reg f).toNat ∨ Config.p ≤ (s.reg (f + 1)).toNat ∨ Config.p ≤ (s.reg (f + 2)).toNat := by
  rw [← Bool.not_eq_true, point_canonical_iff]
  simp only [not_and_or, Nat.not_lt]

/-- A point command's function is the check of its point sources before the write of a point, which is tidy if the
sources are canonical (42_curve.md R180 to R182, R185 to R189). -/
theorem resultOf_eq_requirePoints {i : Instr} {src : List Reg} (s : State) (h : pointSources i = some src) :
    ∃ rd q, pointDest i = some rd ∧ resultOf i s = requirePoints s src (pointResult rd q) ∧
      ((∀ f ∈ src, (s.point f).canonical = true) → q.tidy) := by
  cases i with
  | pdbl rd ra =>
    obtain rfl := Option.some.inj h
    exact ⟨rd, _, rfl, rfl, fun _ => pointDouble_tidy _⟩
  | padd rd ra rb =>
    obtain rfl := Option.some.inj h
    refine ⟨rd, _, rfl, rfl, fun hc => ?_⟩
    obtain ⟨ha, hb⟩ := List.forall_mem_cons.1 hc
    exact pointAdd_tidy _ _ ha (hb rb (List.mem_singleton_self rb))
  | pmul rd ra rb =>
    obtain rfl := Option.some.inj h
    exact ⟨rd, _, rfl, rfl, fun hc => scalarMul_tidy _ _ (hc ra (List.mem_singleton_self ra))⟩
  | psham rd ra rb rc =>
    obtain rfl := Option.some.inj h
    exact ⟨rd, _, rfl, rfl, fun hc => shamir_tidy _ _ _ (hc ra (List.mem_singleton_self ra))⟩
  | paff rd ra =>
    obtain rfl := Option.some.inj h
    exact ⟨rd, _, rfl, rfl, fun _ => toAffine_tidy _⟩
  | _ => nomatch h

/-- A command with a point destination has point sources. -/
theorem exists_pointSources {i : Instr} {rd : Reg} (h : pointDest i = some rd) : ∃ src, pointSources i = some src := by
  cases i with
  | pdbl | padd | pmul | psham | paff => exact ⟨_, rfl⟩
  | _ => nomatch h

/-! ## A committed point (42_curve.md R180) -/

theorem infFlag_eq (q : JPoint) : infFlag q = decide (q.z = 0) := beq_eq_decide q.z 0

/-- A command that is issued with effects is well formed, and its function gives them. -/
theorem resultOf_of_issuesWith_commit {i : Instr} {s : State} {ws : List Write} (hs : s.pending = none)
    (h : IssuesWith i s (.commit ws)) : resultOf i s = .commit ws := by
  have hi := ((issuesWith_iff i s _ hs).1 h).symm
  unfold issuedResult at hi
  split at hi
  · exact hi
  · nomatch hi

/-- A command whose checks pass commits its point, with INF whether its Z is 0. -/
theorem commitsTo_of_canonicalPoints (i : Instr) (s : State) {rd : Reg} {src : List Reg} (q : JPoint)
    (hs : s.pending = none) (hsrc : ∀ f ∈ src, (s.point f).canonical = true) (hw : i.wellFormed = true)
    (hi : resultOf i s = requirePoints s src (pointResult rd q)) :
    CommitsTo i s (s.afterPoint rd (BitVec.ofNat 256 q.x) (BitVec.ofNat 256 q.y) (BitVec.ofNat 256 q.z)
      (decide (q.z = 0))) := by
  rw [← infFlag_eq]
  exact commitsTo_of_commit i s _ hs hw (hi.trans (requirePoints_ok _ hsrc))

/-- The completion of a latched point and INF. -/
theorem complete_point (s : State) (c : Word32) (rd : Reg) (x y z : Word) (f : Bool) :
    complete { s with pending := some ⟨c, .commit [.reg rd x, .reg (rd + 1) y, .reg (rd + 2) z, .inf f]⟩ } =
      s.afterPoint rd x y z f := rfl

/-- The registers of a triple are three. -/
theorem triple_distinct (f : Reg) : f ≠ f + 1 ∧ f ≠ f + 2 ∧ f + 1 ≠ f + 2 := by
  revert f
  decide

theorem State.afterPoint_point (s : State) (rd : Reg) (x y z : Word) (f : Bool) :
    (s.afterPoint rd x y z f).point rd = ⟨x.toNat, y.toNat, z.toNat⟩ := by
  obtain ⟨h01, h02, h12⟩ := triple_distinct rd
  have regs (r : Reg) : (s.afterPoint rd x y z f).reg r =
      (((s.setReg rd x).setReg (rd + 1) y).setReg (rd + 2) z).reg r := rfl
  simp only [point, regNat, regs, reg_setReg_same, reg_setReg_other _ _ _ _ h01, reg_setReg_other _ _ _ _ h02,
    reg_setReg_other _ _ _ _ h12]

theorem p_lt_two_pow_256 : Config.p < 2 ^ 256 := (modulus_bounds .p).2

/-- The coordinates of a canonical point survive their write to registers. -/
theorem State.afterPoint_point_canonical (s : State) (rd : Reg) {q : JPoint} (hq : q.canonical = true) (f : Bool) :
    (s.afterPoint rd (BitVec.ofNat 256 q.x) (BitVec.ofNat 256 q.y) (BitVec.ofNat 256 q.z) f).point rd = q := by
  obtain ⟨hx, hy, hz⟩ := (JPoint.canonical_iff q).1 hq
  have toNat_ofNat {v : Nat} (hv : v < Config.p) : (BitVec.ofNat 256 v).toNat = v := by
    rw [BitVec.toNat_ofNat, Nat.mod_eq_of_lt (hv.trans p_lt_two_pow_256)]
  rw [afterPoint_point, toNat_ofNat hx, toNat_ofNat hy, toNat_ofNat hz]

/-! ## Triples in range (30_encoding.md R104) -/

/-- A T field up to 29 is in range (30_encoding.md R104). -/
theorem tripleOk_eq_true {f : Reg} (h : f.val ≤ 29) : tripleOk f = true := decide_eq_true h

/-- The checks of two T fields pass. -/
theorem tripleChecks_isNone {f g : Reg} (hf : f.val ≤ 29) (hg : g.val ≤ 29) :
    (if tripleOk f && tripleOk g then none else some Illegal.tripleOutOfRange).isNone = true := by
  rw [tripleOk_eq_true hf, tripleOk_eq_true hg]
  rfl

theorem wellFormed_padd {rd ra rb : Reg} (hd : rd.val ≤ 29) (ha : ra.val ≤ 29) (hb : rb.val ≤ 29) :
    (Instr.padd rd ra rb).wellFormed = true := by
  rw [Instr.wellFormed, Instr.rangeError, tripleOk_eq_true hd, tripleOk_eq_true ha, tripleOk_eq_true hb]
  rfl

end Sys2Proof.Machine
end

section
/-! SUPPORT. The field functions as arithmetic in the integers mod p, and the curve test (42_curve.md R190). -/

namespace Sys2Proof.Machine

/-! ## Residues of the field functions (00_scope.md R11) -/

@[simp] theorem fadd_cast (x y : Nat) : (fadd x y : ZMod Config.p) = x + y := addMod_cast Config.p x y

@[simp] theorem fsub_cast (x y : Nat) : (fsub x y : ZMod Config.p) = x - y := subMod_cast .p x y

@[simp] theorem fmul_cast (x y : Nat) : (fmul x y : ZMod Config.p) = x * y := mulMod_cast Config.p x y

@[simp] theorem fsq_cast (x : Nat) : (fsq x : ZMod Config.p) = (x : ZMod Config.p) ^ 2 := by
  rw [fsq, fmul_cast, pow_two]

theorem fadd_lt (x y : Nat) : fadd x y < Config.p := Nat.mod_lt _ p_pos

/-- A canonical value is 0 iff its residue is. -/
theorem cast_eq_zero_iff {x : Nat} (hx : x < Config.p) : (x : ZMod Config.p) = 0 ↔ x = 0 :=
  ⟨fun h => eq_of_cast_eq hx p_pos (h.trans Nat.cast_zero.symm), fun h => by rw [h, Nat.cast_zero]⟩

theorem fsub_eq_zero_iff (x y : Nat) : fsub x y = 0 ↔ (x : ZMod Config.p) = y := by
  rw [← cast_eq_zero_iff (fsub_lt x y), fsub_cast, sub_eq_zero]

theorem fmul_eq_zero_iff (x y : Nat) : fmul x y = 0 ↔ (x : ZMod Config.p) * y = 0 := by
  rw [← cast_eq_zero_iff (fmul_lt x y), fmul_cast]

/-! ## The curve test (42_curve.md R190) -/

/-- The test compares the two sides of the curve equation mod p. -/
theorem curveEquation_iff (x y : Nat) : curveEquation x y = true ↔
    y ^ 2 % Config.p = (x ^ 3 + (Config.p - 3) * x + Config.b) % Config.p := by
  have canonical : curveEquation x y = true ↔
      (fsq y : ZMod Config.p) = fadd (fadd (fmul x (fsq x)) (fmul Config.a x)) Config.b :=
    beq_iff_eq.trans ⟨congrArg _, eq_of_cast_eq (fmul_lt y y) (fadd_lt _ _)⟩
  rw [canonical, ← ZMod.natCast_eq_natCast_iff', Config.a]
  simp only [fsq_cast, fadd_cast, fmul_cast, Nat.cast_add, Nat.cast_mul, Nat.cast_pow]
  rw [← pow_succ']

/-- The third test of R190 never decides, because b is not 0 mod p: the pair (0, 0) is not on the curve. -/
theorem curveEquation_zero_zero : curveEquation 0 0 = false := by decide +kernel

theorem validPoint_eq (x y : Nat) : validPoint x y = decide (x < Config.p ∧ y < Config.p ∧
    y ^ 2 % Config.p = (x ^ 3 + (Config.p - 3) * x + Config.b) % Config.p) := by
  have origin : (x == 0 && y == 0) = true → curveEquation x y ≠ true := by
    simp only [Bool.and_eq_true, beq_iff_eq, and_imp]
    rintro rfl rfl
    exact Bool.eq_false_iff.1 curveEquation_zero_zero
  rw [Bool.eq_iff_iff, decide_eq_true_iff, ← curveEquation_iff, validPoint]
  simp only [Bool.and_eq_true, decide_eq_true_eq, Bool.not_eq_true', and_assoc]
  refine and_congr_right fun _ => and_congr_right fun _ => and_iff_left_of_imp fun he => ?_
  exact Bool.eq_false_iff.2 fun h0 => origin h0 he

end Sys2Proof.Machine
end

section
/-! SUPPORT. The point functions against Mathlib's group law of the curve (42_curve.md R183 to R188, R191): the
coordinates of each function as field arithmetic, the chord and tangent rule in Jacobian coordinates, and the loops. -/

namespace Sys2Proof.Machine

/-! ## What the formulas compute, in the integers mod p -/

/-- DBL away from infinity, by the tangent's numerator M and S = 4·X·Y² (42_curve.md R183). -/
theorem pointDouble_of_z_ne_zero (q : JPoint) (hz : q.z ≠ 0) :
    let m : ZMod Config.p := 3 * ((q.x - q.z ^ 2) * (q.x + q.z ^ 2))
    let s : ZMod Config.p := 4 * (q.x * q.y ^ 2)
    let z3 := fmul 2 (fmul q.y q.z)
    ∃ x3 y3 : Nat, pointDouble q = (if z3 = 0 then infinity else ⟨x3, y3, z3⟩) ∧
      (x3 : ZMod Config.p) = m ^ 2 - 2 * s ∧ (y3 : ZMod Config.p) = m * (s - x3) - 8 * (q.y ^ 2) ^ 2 := by
  refine ⟨_, _, if_neg hz, ?_, ?_⟩ <;> simp

section Add

variable {q1 q2 : JPoint} (hz1 : q1.z ≠ 0) (hz2 : q2.z ≠ 0)
include hz1 hz2

/-- ADD branches on whether the two affine x agree, and then on whether the two affine y do (42_curve.md R184). -/
theorem pointAdd_eq_double (hu : (q1.x * q2.z ^ 2 : ZMod Config.p) = q2.x * q1.z ^ 2)
    (hs : (q1.y * q2.z ^ 3 : ZMod Config.p) = q2.y * q1.z ^ 3) : pointAdd q1 q2 = pointDouble q1 := by
  rw [pointAdd, if_neg hz1, if_neg hz2]
  simp only [fsub_eq_zero_iff, fmul_cast, fsq_cast, ← pow_succ', hu, hs, if_true]

theorem pointAdd_eq_infinity (hu : (q1.x * q2.z ^ 2 : ZMod Config.p) = q2.x * q1.z ^ 2)
    (hs : (q1.y * q2.z ^ 3 : ZMod Config.p) ≠ q2.y * q1.z ^ 3) : pointAdd q1 q2 = infinity := by
  rw [pointAdd, if_neg hz1, if_neg hz2]
  simp only [fsub_eq_zero_iff, fmul_cast, fsq_cast, ← pow_succ', hu, hs.symm, if_true, if_false]

/-- ADD of points with different affine x, by H = U2 - U1 and the chord's numerator S2 - S1 (42_curve.md R184). -/
theorem pointAdd_eq_chord (hu : (q1.x * q2.z ^ 2 : ZMod Config.p) ≠ q2.x * q1.z ^ 2) :
    let h : ZMod Config.p := q2.x * q1.z ^ 2 - q1.x * q2.z ^ 2
    let r : ZMod Config.p := q2.y * q1.z ^ 3 - q1.y * q2.z ^ 3
    ∃ x3 y3 z3 : Nat, pointAdd q1 q2 = ⟨x3, y3, z3⟩ ∧
      (x3 : ZMod Config.p) = r ^ 2 - h * h ^ 2 - 2 * (q1.x * q2.z ^ 2 * h ^ 2) ∧
      (y3 : ZMod Config.p) = r * (q1.x * q2.z ^ 2 * h ^ 2 - x3) - q1.y * q2.z ^ 3 * (h * h ^ 2) ∧
      (z3 : ZMod Config.p) = h * (q1.z * q2.z) := by
  rw [pointAdd, if_neg hz1, if_neg hz2]
  simp only [fsub_eq_zero_iff, fmul_cast, fsq_cast, hu.symm, if_false]
  refine ⟨_, _, _, rfl, ?_, ?_, ?_⟩ <;> simp [← pow_succ']

end Add

/-! ## The bits of a scalar -/

/-- A scalar's low bits with the next one. -/
theorem mod_two_pow_succ (k bit : Nat) : k % 2 ^ (bit + 1) = 2 ^ bit * (k.testBit bit).toNat + k % 2 ^ bit := by
  rw [Nat.mod_pow_succ, Nat.toNat_testBit, Nat.add_comm]

/-! ## Jacobian triples and affine points -/

section Group

variable [Fact (Nat.Prime Config.p)]

/-- A triple stands for infinity with Z = 0, and otherwise for the affine point with x·Z² = X and y·Z³ = Y
(42_curve.md R180). -/
theorem represents_iff (q : JPoint) (pt : curveP256.Point) :
    Represents q pt ↔ q.canonical = true ∧ ((q.z = 0 ∧ pt = 0) ∨
      (q.z ≠ 0 ∧ ∃ x y h, pt = .some x y h ∧ (q.x : ZMod Config.p) = x * (q.z : ZMod Config.p) ^ 2 ∧
        (q.y : ZMod Config.p) = y * (q.z : ZMod Config.p) ^ 3)) := by
  refine and_congr_right fun hq => or_congr_right (and_congr_right fun hz => ?_)
  obtain ⟨-, -, hzp⟩ := (JPoint.canonical_iff q).1 hq
  have hz' : (q.z : ZMod Config.p) ≠ 0 := mt (cast_eq_zero_iff hzp).1 hz
  constructor
  · rintro ⟨h, rfl⟩
    exact ⟨_, _, h, rfl, (div_mul_cancel₀ _ (pow_ne_zero 2 hz')).symm, (div_mul_cancel₀ _ (pow_ne_zero 3 hz')).symm⟩
  · rintro ⟨x, y, h, rfl, hx, hy⟩
    obtain rfl := eq_div_of_mul_eq (pow_ne_zero 2 hz') hx.symm
    obtain rfl := eq_div_of_mul_eq (pow_ne_zero 3 hz') hy.symm
    exact ⟨h, rfl⟩

theorem represents_infinity : Represents infinity 0 := ⟨infinity_tidy.1, .inl ⟨rfl, rfl⟩⟩

/-- A triple with Z = 0 stands for infinity alone. -/
theorem eq_zero_of_represents {q : JPoint} {pt : curveP256.Point} (h : Represents q pt) (hz : q.z = 0) : pt = 0 := by
  obtain ⟨-, ⟨-, h⟩ | ⟨hz', -⟩⟩ := h
  · exact h
  · exact absurd hz hz'

theorem exists_affine_of_represents {q : JPoint} {pt : curveP256.Point} (h : Represents q pt) (hz : q.z ≠ 0) :
    ∃ x y h, pt = .some x y h ∧ (q.x : ZMod Config.p) = x * (q.z : ZMod Config.p) ^ 2 ∧
      (q.y : ZMod Config.p) = y * (q.z : ZMod Config.p) ^ 3 := by
  obtain ⟨-, ⟨hz', -⟩ | ⟨-, h⟩⟩ := (represents_iff q pt).1 h
  · exact absurd hz' hz
  · exact h

theorem coordinates_of_represents {q : JPoint} {x y : ZMod Config.p} {hn : curveP256.Nonsingular x y}
    (h : Represents q (.some x y hn)) (hz : q.z ≠ 0) :
    (q.x : ZMod Config.p) = x * (q.z : ZMod Config.p) ^ 2 ∧ (q.y : ZMod Config.p) = y * (q.z : ZMod Config.p) ^ 3 := by
  obtain ⟨x', y', _, e, hx, hy⟩ := exists_affine_of_represents h hz
  injection e with ex ey
  exact ⟨ex ▸ hx, ey ▸ hy⟩

theorem z_cast_ne_zero_of_represents {q : JPoint} {pt : curveP256.Point} (h : Represents q pt) (hz : q.z ≠ 0) :
    (q.z : ZMod Config.p) ≠ 0 :=
  mt (cast_eq_zero_iff ((JPoint.canonical_iff q).1 h.1).2.2).1 hz

theorem curveP256_negY (x y : ZMod Config.p) : curveP256.negY x y = -y := by
  simp [WeierstrassCurve.Affine.negY, curveP256]

/-- The chord and tangent rule in Jacobian coordinates: a triple stands for the sum of two affine points if, with l the
slope of their line, X = (l·Z)² - (x1 + x2)·Z² and Y = l·Z·(x1·Z² - X) - y1·Z³. -/
theorem represents_add_of_slope {q : JPoint} {x1 y1 x2 y2 : ZMod Config.p} {h1 : curveP256.Nonsingular x1 y1}
    {h2 : curveP256.Nonsingular x2 y2} (hq : q.canonical = true) (hz : q.z ≠ 0)
    (hne : ¬(x1 = x2 ∧ y1 = curveP256.negY x2 y2))
    (hx : (q.x : ZMod Config.p) = (curveP256.slope x1 x2 y1 y2 * q.z) ^ 2 - (x1 + x2) * (q.z : ZMod Config.p) ^ 2)
    (hy : (q.y : ZMod Config.p) = curveP256.slope x1 x2 y1 y2 * q.z * (x1 * (q.z : ZMod Config.p) ^ 2 - q.x) -
      y1 * (q.z : ZMod Config.p) ^ 3) :
    Represents q (.some x1 y1 h1 + .some x2 y2 h2) := by
  rw [WeierstrassCurve.Affine.Point.add_some hne]
  refine (represents_iff _ _).2 ⟨hq, .inr ⟨hz, _, _, _, rfl, ?_, ?_⟩⟩
  · rw [hx, WeierstrassCurve.Affine.addX]
    simp only [curveP256]
    ring
  · rw [hy, hx, WeierstrassCurve.Affine.addY, curveP256_negY, WeierstrassCurve.Affine.negAddY,
      WeierstrassCurve.Affine.addX]
    simp only [curveP256]
    ring

/-! ## Doubling and addition (42_curve.md R183, R184) -/

theorem two_ne_zero_mod_p : (2 : ZMod Config.p) ≠ 0 := by
  exact_mod_cast mt (cast_eq_zero_iff (x := 2) (by decide)).1 two_ne_zero

/-- The slope of the tangent, as a = -3. -/
theorem slope_tangent_mul {x y : ZMod Config.p} (hy : y ≠ curveP256.negY x y) :
    curveP256.slope x x y y * (2 * y) = 3 * (x ^ 2 - 1) := by
  have h2y : y - curveP256.negY x y = 2 * y := by rw [curveP256_negY]; ring
  have h0 : 2 * y ≠ 0 := h2y ▸ sub_ne_zero.2 hy
  rw [WeierstrassCurve.Affine.slope_of_Y_ne rfl hy, h2y, div_mul_cancel₀ _ h0]
  simp only [curveP256]
  ring

theorem slope_chord_mul {x1 x2 y1 y2 : ZMod Config.p} (hx : x1 ≠ x2) :
    curveP256.slope x1 x2 y1 y2 * (x2 - x1) = y2 - y1 := by
  rw [WeierstrassCurve.Affine.slope_of_X_ne hx, ← neg_sub y2, ← neg_sub x2, neg_div_neg_eq,
    div_mul_cancel₀ _ (sub_ne_zero.2 hx.symm)]

/-- DBL computes P + P (42_curve.md R183, R191): with l the slope of the tangent, M = l·Z3, S = x·Z3² and
8·Y⁴ = y·Z3³, and Z3 is 0 exactly for a point of order two. -/
theorem represents_pointDouble {q : JPoint} {pt : curveP256.Point} (h : Represents q pt) :
    Represents (pointDouble q) (pt + pt) := by
  by_cases hz : q.z = 0
  · rw [eq_zero_of_represents h hz, add_zero, pointDouble, if_pos hz]
    exact represents_infinity
  obtain ⟨x, y, hn, rfl, hqx, hqy⟩ := exists_affine_of_represents h hz
  obtain ⟨x3, y3, hd, hx3, hy3⟩ := pointDouble_of_z_ne_zero q hz
  have hc := (pointDouble_tidy q).1
  have hz3 : (fmul 2 (fmul q.y q.z) : ZMod Config.p) = 2 * y * (q.z : ZMod Config.p) ^ 4 := by
    simp only [fmul_cast, hqy, Nat.cast_ofNat]
    ring
  have order_two : fmul 2 (fmul q.y q.z) = 0 ↔ y = curveP256.negY x y := by
    rw [← cast_eq_zero_iff (fmul_lt _ _), hz3, curveP256_negY, eq_neg_iff_add_eq_zero, ← two_mul]
    exact mul_eq_zero_iff_right (pow_ne_zero 4 (z_cast_ne_zero_of_represents h hz))
  rw [hd] at hc ⊢
  split_ifs at hc ⊢ with h3
  · rw [WeierstrassCurve.Affine.Point.add_self_of_Y_eq (order_two.1 h3)]
    exact represents_infinity
  · have hy := mt order_two.2 h3
    have hm : 3 * ((q.x - q.z ^ 2) * (q.x + q.z ^ 2)) =
        curveP256.slope x x y y * (fmul 2 (fmul q.y q.z) : ZMod Config.p) := by
      rw [hz3, hqx]
      linear_combination -(q.z : ZMod Config.p) ^ 4 * slope_tangent_mul hy
    have hs : 4 * (q.x * q.y ^ 2) = x * (fmul 2 (fmul q.y q.z) : ZMod Config.p) ^ 2 := by
      rw [hz3, hqx, hqy]
      ring
    have h8 : 8 * (q.y ^ 2) ^ 2 = y * (fmul 2 (fmul q.y q.z) : ZMod Config.p) ^ 3 := by
      rw [hz3, hqy]
      ring
    refine represents_add_of_slope hc h3 (fun e => hy e.2) ?_ ?_
    · rw [hx3, hm, hs]
      ring
    · rw [hy3, hm, hs, h8]

section Finite

variable {q1 q2 : JPoint} {x1 y1 x2 y2 : ZMod Config.p} {hn1 : curveP256.Nonsingular x1 y1}
  {hn2 : curveP256.Nonsingular x2 y2} (h1 : Represents q1 (.some x1 y1 hn1)) (h2 : Represents q2 (.some x2 y2 hn2))
  (hz1 : q1.z ≠ 0) (hz2 : q2.z ≠ 0)
include h1 h2 hz1 hz2

/-- U1, U2, S1 and S2 are the affine coordinates over the common denominator Z1·Z2 (42_curve.md R184). -/
theorem common_denominator :
    (q1.x * q2.z ^ 2 : ZMod Config.p) = x1 * (q1.z * q2.z) ^ 2 ∧
    (q2.x * q1.z ^ 2 : ZMod Config.p) = x2 * (q1.z * q2.z) ^ 2 ∧
    (q1.y * q2.z ^ 3 : ZMod Config.p) = y1 * (q1.z * q2.z) ^ 3 ∧
    (q2.y * q1.z ^ 3 : ZMod Config.p) = y2 * (q1.z * q2.z) ^ 3 ∧ (q1.z * q2.z : ZMod Config.p) ≠ 0 := by
  obtain ⟨hx1, hy1⟩ := coordinates_of_represents h1 hz1
  obtain ⟨hx2, hy2⟩ := coordinates_of_represents h2 hz2
  refine ⟨?_, ?_, ?_, ?_, mul_ne_zero (z_cast_ne_zero_of_represents h1 hz1) (z_cast_ne_zero_of_represents h2 hz2)⟩
  · rw [hx1]; ring
  · rw [hx2]; ring
  · rw [hy1]; ring
  · rw [hy2]; ring

/-- ADD of two points with one affine x: they are equal if S1 = S2, and opposite otherwise (42_curve.md R184). -/
theorem represents_pointAdd_of_x_eq (hx : x1 = x2) :
    Represents (pointAdd q1 q2) (.some x1 y1 hn1 + .some x2 y2 hn2) := by
  obtain ⟨hu1, hu2, hs1, hs2, hw⟩ := common_denominator h1 h2 hz1 hz2
  have hu : (q1.x * q2.z ^ 2 : ZMod Config.p) = q2.x * q1.z ^ 2 := by rw [hu1, hu2, hx]
  by_cases hy : y1 = y2
  · rw [pointAdd_eq_double hz1 hz2 hu (by rw [hs1, hs2, hy])]
    subst hx hy
    exact represents_pointDouble h1
  · have hs : (q1.y * q2.z ^ 3 : ZMod Config.p) ≠ q2.y * q1.z ^ 3 := by
      rw [hs1, hs2]
      exact fun e => hy (mul_right_cancel₀ (pow_ne_zero 3 hw) e)
    have opposite := (WeierstrassCurve.Affine.Y_eq_of_X_eq hn1.1 hn2.1 hx).resolve_left hy
    rw [pointAdd_eq_infinity hz1 hz2 hu hs, WeierstrassCurve.Affine.Point.add_of_Y_eq hx opposite]
    exact represents_infinity

/-- ADD of two points with different affine x: with l the slope of the chord and w = Z1·Z2, the formulas have
Z3 = (x2 - x1)·w³ and R = l·Z3 (42_curve.md R184). -/
theorem represents_pointAdd_of_x_ne (hx : x1 ≠ x2) :
    Represents (pointAdd q1 q2) (.some x1 y1 hn1 + .some x2 y2 hn2) := by
  obtain ⟨hu1, hu2, hs1, hs2, hw⟩ := common_denominator h1 h2 hz1 hz2
  have hu : (q1.x * q2.z ^ 2 : ZMod Config.p) ≠ q2.x * q1.z ^ 2 := by
    rw [hu1, hu2]
    exact fun e => hx (mul_right_cancel₀ (pow_ne_zero 2 hw) e)
  have hc := (pointAdd_tidy q1 q2 h1.1 h2.1).1
  obtain ⟨x3, y3, z3, ha, hx3, hy3, hz3⟩ := pointAdd_eq_chord hz1 hz2 hu
  rw [hu1, hu2] at hx3 hy3 hz3
  rw [hs1, hs2] at hx3 hy3
  generalize (q1.z * q2.z : ZMod Config.p) = w at hw hx3 hy3 hz3
  have hr : y2 * w ^ 3 - y1 * w ^ 3 = curveP256.slope x1 x2 y1 y2 * z3 := by
    rw [hz3]
    linear_combination -w ^ 3 * slope_chord_mul (y1 := y1) (y2 := y2) hx
  have h3 : z3 ≠ 0 := by
    rintro rfl
    rw [Nat.cast_zero, ← sub_mul] at hz3
    exact mul_ne_zero (mul_ne_zero (sub_ne_zero.2 (Ne.symm hx)) (pow_ne_zero 2 hw)) hw hz3.symm
  rw [ha] at hc ⊢
  refine represents_add_of_slope hc h3 (fun e => hx e.1) ?_ ?_
  · rw [hx3, hr, hz3]
    ring
  · rw [hy3, hr, hx3, hr, hz3]
    ring

end Finite

/-- ADD computes P + Q (42_curve.md R184, R191). -/
theorem represents_pointAdd {q1 q2 : JPoint} {p1 p2 : curveP256.Point} (h1 : Represents q1 p1)
    (h2 : Represents q2 p2) : Represents (pointAdd q1 q2) (p1 + p2) := by
  by_cases hz1 : q1.z = 0
  · rw [eq_zero_of_represents h1 hz1, zero_add, pointAdd, if_pos hz1]
    split_ifs with hz2
    · rw [eq_zero_of_represents h2 hz2]
      exact represents_infinity
    · exact h2
  by_cases hz2 : q2.z = 0
  · rw [eq_zero_of_represents h2 hz2, add_zero, pointAdd, if_neg hz1, if_pos hz2]
    exact h1
  obtain ⟨x1, y1, hn1, rfl, -⟩ := exists_affine_of_represents h1 hz1
  obtain ⟨x2, y2, hn2, rfl, -⟩ := exists_affine_of_represents h2 hz2
  by_cases hx : x1 = x2
  · exact represents_pointAdd_of_x_eq h1 h2 hz1 hz2 hx
  · exact represents_pointAdd_of_x_ne h1 h2 hz1 hz2 hx

/-! ## The loops (42_curve.md R187, R188) -/

/-- The loop of PMUL over the low bits of k, started at A, computes 2^bit·A + (k mod 2^bit)·P (42_curve.md R187). -/
theorem represents_scalarMulLoop {pt : JPoint} {p : curveP256.Point} (hp : Represents pt p) (k bit : Nat)
    {r : JPoint} {a : curveP256.Point} (hr : Represents r a) :
    Represents (scalarMulLoop pt k bit r) (2 ^ bit • a + (k % 2 ^ bit) • p) := by
  induction bit generalizing r a with
  | zero => simpa [scalarMulLoop, Nat.mod_one] using hr
  | succ bit ih =>
    have hd : Represents (if k.testBit bit then pointAdd (pointDouble r) pt else pointDouble r)
        (a + a + (k.testBit bit).toNat • p) := by
      cases k.testBit bit
      · simpa using represents_pointDouble hr
      · simpa using represents_pointAdd (represents_pointDouble hr) hp
    have sum : 2 ^ (bit + 1) • a + (k % 2 ^ (bit + 1)) • p =
        2 ^ bit • (a + a + (k.testBit bit).toNat • p) + (k % 2 ^ bit) • p := by
      rw [mod_two_pow_succ]
      module
    rw [scalarMulLoop, sum]
    exact ih hd

/-- PMUL's function computes k·P (42_curve.md R187, R191). -/
theorem represents_scalarMul {q : JPoint} {p : curveP256.Point} (h : Represents q p) {k : Nat} (hk : k < 2 ^ 256) :
    Represents (scalarMul q k) (k • p) := by
  have loop := represents_scalarMulLoop h k 256 represents_infinity
  rwa [nsmul_zero, zero_add, Nat.mod_eq_of_lt hk] at loop

/-- One step of PSHAM adds the points of the two scalar bits (42_curve.md R188). -/
theorem represents_shamirAdd {t1 t2 t3 r : JPoint} {p1 p2 a : curveP256.Point} (h1 : Represents t1 p1)
    (h2 : Represents t2 p2) (h3 : Represents t3 (p1 + p2)) (hr : Represents r a) (b1 b2 : Bool) :
    Represents (shamirAdd t1 t2 t3 r b1 b2) (a + (b1.toNat • p1 + b2.toNat • p2)) := by
  cases b1 <;> cases b2
  · simpa [shamirAdd] using hr
  · simpa [shamirAdd] using represents_pointAdd hr h2
  · simpa [shamirAdd] using represents_pointAdd hr h1
  · simpa [shamirAdd] using represents_pointAdd hr h3

/-- The loop of PSHAM over the low bits of u1 and u2, started at A, computes
2^bit·A + (u1 mod 2^bit)·P1 + (u2 mod 2^bit)·P2 (42_curve.md R188). -/
theorem represents_shamirLoop {t1 t2 t3 : JPoint} {p1 p2 : curveP256.Point} (h1 : Represents t1 p1)
    (h2 : Represents t2 p2) (h3 : Represents t3 (p1 + p2)) (u1 u2 bit : Nat) {r : JPoint} {a : curveP256.Point}
    (hr : Represents r a) :
    Represents (shamirLoop t1 t2 t3 u1 u2 bit r)
      (2 ^ bit • a + ((u1 % 2 ^ bit) • p1 + (u2 % 2 ^ bit) • p2)) := by
  induction bit generalizing r a with
  | zero => simpa [shamirLoop, Nat.mod_one] using hr
  | succ bit ih =>
    have hd := represents_shamirAdd h1 h2 h3 (represents_pointDouble hr) (u1.testBit bit) (u2.testBit bit)
    have sum : 2 ^ (bit + 1) • a + ((u1 % 2 ^ (bit + 1)) • p1 + (u2 % 2 ^ (bit + 1)) • p2) =
        2 ^ bit • (a + a + ((u1.testBit bit).toNat • p1 + (u2.testBit bit).toNat • p2)) +
          ((u1 % 2 ^ bit) • p1 + (u2 % 2 ^ bit) • p2) := by
      rw [mod_two_pow_succ, mod_two_pow_succ]
      module
    rw [shamirLoop, sum]
    exact ih hd

/-- PSHAM's function computes u1·G + u2·Q (42_curve.md R188, R191). -/
theorem represents_shamir {q : JPoint} {g p : curveP256.Point} (hg : Represents generator g) (h : Represents q p)
    {u1 u2 : Nat} (h1 : u1 < 2 ^ 256) (h2 : u2 < 2 ^ 256) : Represents (shamir u1 u2 q) (u1 • g + u2 • p) := by
  have loop := represents_shamirLoop hg h (represents_pointAdd hg h) u1 u2 256 represents_infinity
  rwa [nsmul_zero, zero_add, Nat.mod_eq_of_lt h1, Nat.mod_eq_of_lt h2] at loop

end Group

end Sys2Proof.Machine
end

section
/-! The statements about the curve commands (42_curve.md), settled. -/

namespace Sys2Proof.Machine

/-- Settles O28: the checks pass, and DBL and ADD give tidy points. -/
theorem pdblAndPaddCommitTheirPoint : Obligations.PdblAndPaddCommitTheirPoint := by
  intro rd ra rb s hs hd ha hca
  refine ⟨⟨(pointDouble_tidy _).1, ?pdbl⟩, fun hb hcb => ⟨(pointAdd_tidy _ _ hca hcb).1, ?padd⟩⟩
  case pdbl =>
    exact commitsTo_of_canonicalPoints (.pdbl rd ra) s _ hs (List.forall_mem_singleton.2 hca)
      (tripleChecks_isNone hd ha) rfl
  case padd =>
    exact commitsTo_of_canonicalPoints (src := [ra, rb]) (.padd rd ra rb) s _ hs
      (List.forall_mem_cons.2 ⟨hca, List.forall_mem_singleton.2 hcb⟩) (wellFormed_padd hd ha hb) rfl

/-- Settles O29: the check of the one point passes, and the loops give tidy points for any scalars. -/
theorem pmulAndPshamCommitTheirPoint : Obligations.PmulAndPshamCommitTheirPoint := by
  intro rd ra rb rc s hs hd ha hca
  have hsrc : ∀ f ∈ [ra], (s.point f).canonical = true := List.forall_mem_singleton.2 hca
  have hw := tripleChecks_isNone hd ha
  exact ⟨⟨(scalarMul_tidy _ _ hca).1, commitsTo_of_canonicalPoints (.pmul rd ra rb) s _ hs hsrc hw rfl⟩,
    ⟨(shamir_tidy _ _ _ hca).1, commitsTo_of_canonicalPoints (.psham rd ra rb rc) s _ hs hsrc hw rfl⟩⟩

/-- Settles O30: the affine form is INF for Z = 0, and otherwise has the x and y that `affineX_spec` and `affineY_spec`
pin. -/
theorem paffNormalisesThePoint : Obligations.PaffNormalisesThePoint := by
  intro rd ra s hs hd ha hca q
  have commits := commitsTo_of_canonicalPoints (.paff rd ra) s (toAffine q) hs (List.forall_mem_singleton.2 hca)
    (tripleChecks_isNone hd ha) rfl
  refine ⟨fun hz => ?infinite, fun hz =>
    ⟨affineX q, affineY q, fmul_lt _ _, fmul_lt _ _, affineX_spec q hca hz, affineY_spec q hca hz, ?finite⟩⟩
  case infinite => rwa [toAffine, if_pos hz] at commits
  case finite => rwa [toAffine, if_neg hz] at commits

/-- Settles O31: PCHK has the one effect PV, and its test is the range and the curve equation. -/
theorem pchkTestsRangeAndCurve : Obligations.PchkTestsRangeAndCurve := by
  intro ra s hs ha x y
  rw [← validPoint_eq]
  exact commitsTo_done_of_commit (.pchk ra) s [.pv (validPoint x y)] hs
    (Option.isNone_iff_eq_none.2 (if_pos (decide_eq_true ha))) rfl

/-- Settles O32: the function of a point command is the check of its points, and a base over 29 is its range error. -/
theorem pointSourcesAreChecked : Obligations.PointSourcesAreChecked := by
  intro i src s hsrc hs
  obtain ⟨rd, q, -, hi, -⟩ := resultOf_eq_requirePoints s hsrc
  refine ⟨fun hw => ⟨fun hbad => ?noncanon, fun hok => ?commits⟩, fun hw => ?illegal⟩
  case noncanon =>
    simp only [← State.point_canonical_eq_false_iff] at hbad
    exact commitsTo_of_error i s .noncanon hs
      ((issuedResult_wellFormed i s hw).trans (hi.trans (requirePoints_bad _ hbad)))
  case commits =>
    simp only [← State.point_canonical_iff] at hok
    exact ⟨_, (issuesWith_iff i s _ hs).2
      ((issuedResult_wellFormed i s hw).trans (hi.trans (requirePoints_ok _ hok))).symm⟩
  case illegal => exact commitsTo_of_error i s .illegalCmd hs (issuedResult_illFormed i s hw)

/-- Settles O33: a point command commits a tidy point, whose coordinates survive the write. -/
theorem writtenInfinityIsCanonical : Obligations.WrittenInfinityIsCanonical := by
  intro i rd s ws hd hs hi
  obtain ⟨src, hsrc⟩ := exists_pointSources hd
  obtain ⟨rd', q, hd', hr, tidy⟩ := resultOf_eq_requirePoints s hsrc
  obtain rfl := Option.some.inj (hd.symm.trans hd')
  obtain ⟨hc, hws⟩ := requirePoints_commit (hr.symm.trans (resultOf_of_issuesWith_commit hs hi))
  obtain ⟨canonical, inf⟩ := tidy hc
  obtain rfl := pointResult_commit rd q ws hws
  intro u
  have hu : u = s.afterPoint rd (BitVec.ofNat 256 q.x) (BitVec.ofNat 256 q.y) (BitVec.ofNat 256 q.z) (infFlag q) :=
    complete_point s _ rd _ _ _ _
  rw [hu, State.afterPoint_point_canonical s rd canonical]
  exact ⟨canonical, infFlag_eq q, inf⟩

/-- Settles O34: the formulas are the chord and tangent rule in Jacobian coordinates, and each turn of a loop doubles
and adds the points of the scalar bits. -/
theorem pointFunctionsComputeTheGroupLaw : Obligations.PointFunctionsComputeTheGroupLaw :=
  fun _ _ _ _ _ _ _ _ h1 h2 hg hk hu1 hu2 => ⟨represents_pointDouble h1, represents_pointAdd h1 h2,
    represents_scalarMul h1 hk, represents_shamir hg h1 hu1 hu2⟩

end Sys2Proof.Machine
end

section
/-! SUPPORT. What the SHA commands commit, and SHA-256 of a message block by block (43_sha256.md R210 to R218). -/

namespace Sys2Proof.Machine

/-! ## COMPRESS over consecutive blocks (43_sha256.md R213) -/

/-- Compressing whole blocks and then others is compressing their concatenation. -/
theorem compressBlocks_append {j : Nat} (k : Nat) (h : ShaWords) {a : List Byte} (b : List Byte)
    (ha : a.length = 64 * j) :
    compressBlocks (j + k) h (a ++ b) = compressBlocks k (compressBlocks j h a) b := by
  induction j generalizing h a with
  | zero =>
    obtain rfl := List.eq_nil_of_length_eq_zero ha
    rw [Nat.zero_add, List.nil_append, compressBlocks]
  | succ j ih =>
    have hlen : 64 ≤ a.length := by omega
    have hrest : (a.drop 64).length = 64 * j := by rw [List.length_drop]; omega
    rw [Nat.add_right_comm, compressBlocks, compressBlocks, List.take_append_of_le_length hlen,
      List.drop_append_of_le_length hlen, ih _ hrest]

/-- SHA-256 of whole blocks and a short tail is FINAL of the tail after the blocks. -/
theorem sha256_append_tail {m tail : List Byte} (hm : m.length % 64 = 0) (ht : tail.length < 64) :
    sha256 (m ++ tail) =
      digestBytes (shaFinal (compressBlocks (m.length / 64) Config.shaIv m)
        (BitVec.ofNat 64 (8 * (m.length + tail.length))) tail) := by
  have hlen : m.length = 64 * (m.length / 64) := by omega
  have hfull : (m ++ tail).length / 64 = m.length / 64 := by rw [List.length_append]; omega
  have hblocks : compressBlocks (m.length / 64) Config.shaIv (m ++ tail) =
      compressBlocks (m.length / 64) Config.shaIv m := compressBlocks_append 0 Config.shaIv tail hlen
  rw [sha256, hfull, hblocks, ← hlen, List.drop_left, List.length_append]

/-! ## The commands on an open message (43_sha256.md R215, R216) -/

@[simp] theorem Memory.msgbufBytes_length (m : Memory) (k : Nat) : (Memory.msgbufBytes m k).length = k := by
  simp [Memory.msgbufBytes]

/-- The length a command writes to MSGBITS is the old one plus the bits it absorbs. -/
theorem ofNat_lengthAfter (s : State) (extra : Nat) :
    BitVec.ofNat 64 (lengthAfter s extra) = s.sha.bits + BitVec.ofNat 64 extra := by
  rw [lengthAfter, BitVec.ofNat_add, BitVec.ofNat_toNat, BitVec.setWidth_eq]

/-- A length of whole blocks leaves room for any tail that SHAFIN can absorb. -/
theorem wholeBlocks_add_tail_le {bits : BitVec 64} (len : BitVec 6) (h : bits.toNat % 512 = 0) :
    bits.toNat + 8 * len.toNat ≤ 2 ^ 64 - 8 := by
  have hbits := bits.isLt
  have hlen := len.isLt
  omega

section
variable {s : State} (ho : s.sha.isOpen = true)
include ho

/-- The function of SHAFIN with room for its tail: both checks pass. -/
theorem shafinResult_eq_commit (rd : Reg) (len : BitVec 6)
    (hl : s.sha.bits.toNat + 8 * len.toNat ≤ 2 ^ 64 - 1) :
    shafinResult rd len s = .commit [.reg rd (digestWord (finalWords len s)), .shaH (finalWords len s),
      .msgbits (s.sha.bits + BitVec.ofNat 64 (8 * len.toNat)), .shaOpen false] := by
  rw [← ofNat_lengthAfter]
  exact requireShaRoom_open s _ _ ho hl

variable (hs : s.pending = none)
include hs

/-- SHABLK with room for a block commits the compressed chaining value and the length. -/
theorem commitsTo_shablk (hl : s.sha.bits.toNat + 512 ≤ 2 ^ 64 - 1) :
    CommitsTo .shablk s
      { s with
        sha := { s.sha with
          h := compress s.sha.h (Memory.msgbufBytes s.mem 64)
          bits := s.sha.bits + 512#64 }
        done := true } := by
  rw [← ofNat_lengthAfter]
  exact commitsTo_done_of_commit .shablk s _ hs rfl (requireShaRoom_open s 512 _ ho hl)

/-- SHAFIN with room for its tail commits the digest and closes the message. -/
theorem commitsTo_shafin (rd : Reg) (len : BitVec 6) (hl : s.sha.bits.toNat + 8 * len.toNat ≤ 2 ^ 64 - 1) :
    CommitsTo (.shafin rd len) s
      { s with
        w := s.w.set rd.val (digestWord (finalWords len s))
        sha := ⟨finalWords len s, s.sha.bits + BitVec.ofNat 64 (8 * len.toNat), false⟩
        done := true } :=
  commitsTo_done_of_commit (.shafin rd len) s _ hs rfl (shafinResult_eq_commit ho rd len hl)

end

/-- FINAL over the bytes that SHAFIN takes, with the length it writes. -/
theorem finalWords_eq (len : BitVec 6) (s : State) :
    finalWords len s = shaFinal s.sha.h (s.sha.bits + BitVec.ofNat 64 (8 * len.toNat))
      (Memory.msgbufBytes s.mem len.toNat) := by
  rw [finalWords, ofNat_lengthAfter, immValue]

/-! ## What an open message has absorbed (43_sha256.md R213) -/

/-- A message just opened has absorbed nothing. -/
theorem absorbed_nil (s : State) : Absorbed { s with sha := ⟨Config.shaIv, 0#64, true⟩, done := true } [] :=
  ⟨rfl, rfl, by decide, rfl, rfl⟩

section
variable {s : State} {m : List Byte} (ha : Absorbed s m)
include ha

theorem Absorbed.toNat_bits : s.sha.bits.toNat = 8 * m.length := by
  obtain ⟨-, -, hlt, hbits, -⟩ := ha
  rw [hbits, BitVec.toNat_ofNat, Nat.mod_eq_of_lt hlt]

theorem Absorbed.bits_add (k : Nat) : s.sha.bits + BitVec.ofNat 64 (8 * k) = BitVec.ofNat 64 (8 * (m.length + k)) := by
  obtain ⟨-, -, -, hbits, -⟩ := ha
  rw [hbits, ← BitVec.ofNat_add, Nat.mul_add]

/-- Compressing one more block absorbs it, while the length fits. -/
theorem Absorbed.append_block {u : State} {block : List Byte} (hb : block.length = 64)
    (hl : 8 * (m.length + 64) < 2 ^ 64) (ho : u.sha.isOpen = true) (hbits : u.sha.bits = s.sha.bits + 512#64)
    (hh : u.sha.h = compress s.sha.h block) : Absorbed u (m ++ block) := by
  have hadd := ha.bits_add 64
  obtain ⟨-, hm, -, -, hsh⟩ := ha
  have hlen : (m ++ block).length = m.length + 64 := by rw [List.length_append, hb]
  have hcount : (m.length + 64) / 64 = m.length / 64 + 1 := by omega
  refine ⟨ho, ?whole, ?fits, ?length, ?chain⟩
  case whole => rw [hlen]; omega
  case fits => rwa [hlen]
  case length => rw [hlen, ← hadd, hbits]
  case chain =>
    rw [hh, hsh, hlen, hcount, compressBlocks_append 1 _ block (by omega), compressBlocks, compressBlocks,
      List.take_of_length_le hb.le]

/-- FINAL over the tail in MSGBUF gives SHA-256 of what was absorbed and the tail. -/
theorem Absorbed.digestBytes_finalWords (len : BitVec 6) :
    digestBytes (finalWords len s) = sha256 (m ++ Memory.msgbufBytes s.mem len.toNat) := by
  have hadd := ha.bits_add len.toNat
  obtain ⟨-, hm, -, -, hsh⟩ := ha
  have htail : (Memory.msgbufBytes s.mem len.toNat).length < 64 := by
    rw [Memory.msgbufBytes_length]
    exact len.isLt
  rw [sha256_append_tail hm htail, finalWords_eq, hadd, hsh, Memory.msgbufBytes_length]

end

end Sys2Proof.Machine
end

section
/-! The statements about the SHA-256 commands (43_sha256.md), settled. -/

namespace Sys2Proof.Machine

/-- Settles O35: SHAINIT has no check, and its three effects are all of the SHA-256 state. -/
theorem shainitOpensAMessage : Obligations.ShainitOpensAMessage :=
  fun s hs => commitsTo_done_of_commit .shainit s _ hs rfl rfl

/-- Settles O36: the two checks of SHABLK pass, or one of them is its result. -/
theorem shablkAbsorbsOneBlock : Obligations.ShablkAbsorbsOneBlock :=
  fun s hs => ⟨fun ho => commitsTo_shablk ho hs,
    fun ho hl => commitsTo_of_error .shablk s .shaLength hs (requireShaRoom_long s _ _ ho hl),
    fun ho => commitsTo_of_error .shablk s .shaNotOpen hs (requireShaRoom_closed s _ _ ho)⟩

/-- Settles O37: the two checks of SHAFIN pass, or one of them is its result. -/
theorem shafinWritesTheDigest : Obligations.ShafinWritesTheDigest := by
  refine fun rd len s hs => ⟨fun ho hl => ?digest,
    fun ho hl => commitsTo_of_error (.shafin rd len) s .shaLength hs (requireShaRoom_long s _ _ ho hl),
    fun ho => commitsTo_of_error (.shafin rd len) s .shaNotOpen hs (requireShaRoom_closed s _ _ ho)⟩
  case digest =>
    have commits := commitsTo_shafin ho hs rd len hl
    rwa [finalWords_eq] at commits

/-- Settles O38: MSGBITS is a multiple of 512, so a tail of at most 63 bytes passes the check. -/
theorem shafinLengthTestNeverFires : Obligations.ShafinLengthTestNeverFires := by
  intro rd len s inv hs ho
  have hroom := wholeBlocks_add_tail_le len (inv.wholeBlocks ho)
  refine ⟨hroom, fun hi => ?_⟩
  have hcommit := shafinResult_eq_commit ho rd len (by omega)
  nomatch ((issuesWith_iff _ s _ hs).1 hi).trans hcommit

/-- Settles O39: SHAINIT starts the chain of blocks, SHABLK extends it by one, and SHAFIN ends it with the padded
tail. -/
theorem shaCommandsHashTheMessage : Obligations.ShaCommandsHashTheMessage := by
  intro s m rd len hs
  refine ⟨⟨_, shainitOpensAMessage s hs, absorbed_nil s⟩, fun ha hl => ?shablk, fun ha => ?shafin⟩
  case shablk =>
    have ⟨ho, _⟩ := ha
    have hroom : s.sha.bits.toNat + 512 ≤ 2 ^ 64 - 1 := by rw [ha.toNat_bits]; omega
    exact ⟨_, commitsTo_shablk ho hs hroom, ha.append_block (Memory.msgbufBytes_length _ _) hl ho rfl rfl⟩
  case shafin =>
    have ⟨ho, hm, _⟩ := ha
    have hwhole : s.sha.bits.toNat % 512 = 0 := by rw [ha.toNat_bits]; omega
    have hroom := wholeBlocks_add_tail_le len hwhole
    refine ⟨_, commitsTo_shafin ho hs rd len (by omega), ?_, ha.bits_add _, rfl⟩
    rw [← ha.digestBytes_finalWords]
    exact s.reg_setReg_same rd _

end Sys2Proof.Machine
end

section
/-! SUPPORT. The verification command: the effect it commits, its outcome case by case, the curve step u1·G + u2·Q with
the unique inverse of s, and that step in the group of the curve (44_verify.md R241 to R252). -/

namespace Sys2Proof.Machine

/-! ## The command (44_verify.md R241, R251) -/

/-- What an idle core commits for a command is unique. -/
theorem CommitsTo.unique {i : Instr} {s u v : State} (hs : s.pending = none) (hu : CommitsTo i s u)
    (hv : CommitsTo i s v) : u = v :=
  ((commitsTo_iff i s u hs).1 hu).symm.trans ((commitsTo_iff i s v hs).1 hv)

theorem afterVerify_injective (s : State) : Function.Injective (afterVerify s) :=
  fun _ _ h => congrArg (fun t : State => t.flags.vres) h

/-- VERIFY of pairs in range commits its outcome on the five operands. -/
theorem commitsTo_verify {ra rb : Reg} (rc : Reg) {s : State} (hs : s.pending = none) (ha : ra.val ≤ 30)
    (hb : rb.val ≤ 30) :
    CommitsTo (.verify ra rb rc) s (afterVerify s (verifyOutcome (s.reg ra).toNat (s.reg (ra + 1)).toNat
      (s.reg rb).toNat (s.reg (rb + 1)).toNat (s.reg rc).toNat)) := by
  have hw : (Instr.verify ra rb rc).wellFormed = true :=
    Option.isNone_iff_eq_none.2 (if_pos (Bool.and_eq_true_iff.2 ⟨decide_eq_true ha, decide_eq_true hb⟩))
  exact commitsTo_done_of_commit (.verify ra rb rc) s _ hs hw rfl

/-! ## Well-formed operands (44_verify.md R242 to R245) -/

theorem scalarInRange_iff (v : Nat) : scalarInRange v = true ↔ 1 ≤ v ∧ v < Config.n := by
  rw [scalarInRange, Bool.and_eq_true, decide_eq_true_iff, decide_eq_true_iff, Nat.le_sub_one_iff_lt n_prime.pos]

theorem verifyArgsOk_iff (qx qy r sg : Nat) : verifyArgsOk qx qy r sg = true ↔
    (qx < Config.p ∧ qy < Config.p ∧ qy ^ 2 % Config.p = (qx ^ 3 + (Config.p - 3) * qx + Config.b) % Config.p) ∧
      (1 ≤ r ∧ r < Config.n) ∧ 1 ≤ sg ∧ sg < Config.n := by
  rw [verifyArgsOk, validPoint_eq, Bool.and_eq_true, Bool.and_eq_true, decide_eq_true_iff, scalarInRange_iff,
    scalarInRange_iff, and_assoc]

/-! ## The outcome case by case (44_verify.md R241, R249, R250) -/

theorem verifyOutcome_malformed {qx qy r sg : Nat} (h : Nat) (hbad : ¬ verifyArgsOk qx qy r sg = true) :
    verifyOutcome qx qy r sg h = .badArg := if_neg hbad

section WellFormed

variable {qx qy r sg h : Nat} (hok : verifyArgsOk qx qy r sg = true)
include hok

theorem verifyOutcome_infinite (hz : (verifyPoint qx qy r sg h).z = 0) : verifyOutcome qx qy r sg h = .invalid :=
  (if_pos hok).trans (if_pos hz)

theorem verifyOutcome_finite (hz : (verifyPoint qx qy r sg h).z ≠ 0) : verifyOutcome qx qy r sg h =
    if affineX (verifyPoint qx qy r sg h) % Config.n = r then .valid else .invalid :=
  (if_pos hok).trans (if_neg hz)

theorem verifyOutcome_wellFormed : verifyOutcome qx qy r sg h = .valid ∨ verifyOutcome qx qy r sg h = .invalid := by
  by_cases hz : (verifyPoint qx qy r sg h).z = 0
  · exact .inr (verifyOutcome_infinite hok hz)
  · rw [verifyOutcome_finite hok hz]
    exact ite_eq_or_eq _ _ _

end WellFormed

theorem verifyOutcome_ne_none (qx qy r sg h : Nat) : verifyOutcome qx qy r sg h ≠ .none := by
  by_cases hok : verifyArgsOk qx qy r sg = true
  · obtain hv | hv := verifyOutcome_wellFormed (h := h) hok <;> rw [hv] <;> decide
  · rw [verifyOutcome_malformed h hok]
    decide

theorem verifyOutcome_eq_badArg_iff (qx qy r sg h : Nat) :
    verifyOutcome qx qy r sg h = .badArg ↔ ¬ verifyArgsOk qx qy r sg = true := by
  refine ⟨fun hbad hok => ?_, verifyOutcome_malformed h⟩
  obtain hv | hv := verifyOutcome_wellFormed (h := h) hok <;> nomatch hv.symm.trans hbad

/-! ## The curve step and the affine x (44_verify.md R246 to R250) -/

/-- With w the unique inverse of s, and the digest reduced by one conditional subtraction. -/
theorem verifyPoint_eq (qx qy r : Nat) {sg w h : Nat} (hsg : sg < Config.n) (hw : w < Config.n)
    (hinv : sg * w % Config.n = 1) (hh : h < 2 ^ 256) :
    verifyPoint qx qy r sg h = shamir ((if h < Config.n then h else h - Config.n) * w % Config.n) (r * w % Config.n)
      ⟨qx, qy, 1⟩ := by
  have hdigest : h % Config.n = if h < Config.n then h else h - Config.n :=
    mod_eq_sub_once (hh.trans_le (two_pow_256_le_two_mul_modulus .n))
  rw [invMod_unique .n sg w hsg hw hinv, ← hdigest]
  rfl

theorem canonical_affinePair {qx qy : Nat} (hx : qx < Config.p) (hy : qy < Config.p) :
    (⟨qx, qy, 1⟩ : JPoint).canonical = true :=
  (JPoint.canonical_iff _).2 ⟨hx, hy, (by decide : 1 < Config.p)⟩

/-- A canonical x with x·Z² = X is the affine x, because Z is invertible mod p. -/
theorem eq_affineX {q : JPoint} (hq : q.canonical = true) (hz : q.z ≠ 0) {x : Nat} (hx : x < Config.p)
    (h : x * q.z ^ 2 % Config.p = q.x) : x = affineX q := by
  have : Fact Config.p.Prime := ⟨p_prime⟩
  obtain ⟨-, -, hzp⟩ := (JPoint.canonical_iff q).1 hq
  have hz2 : (q.z : ZMod Config.p) ^ 2 ≠ 0 := pow_ne_zero 2 (mt (cast_eq_zero_iff hzp).1 hz)
  have hprod := (ZMod.natCast_eq_natCast_iff' ..).2 (h.trans (affineX_spec q hq hz).symm)
  rw [Nat.cast_mul, Nat.cast_mul, Nat.cast_pow] at hprod
  exact eq_of_cast_eq hx (fmul_lt _ _) (mul_right_cancel₀ hz2 hprod)

/-! ## VERIFY in the group of the curve (44_verify.md R252) -/

/-- The scalars u1 and u2 of VERIFY recover the nonce: u1 + u2·d is the k with s·k = h + r·d mod n. -/
theorem verifyScalars_cast {r sg h d : Nat} (hs1 : 1 ≤ sg) (hsn : sg < Config.n) {k : ZMod Config.n}
    (hk : sg * k = h + r * d) :
    ((mulMod Config.n (h % Config.n) (invMod Config.n sg) + mulMod Config.n r (invMod Config.n sg) * d : Nat) :
      ZMod Config.n) = k := by
  have hmod : sg * invMod Config.n sg % Config.n = 1 := mul_invMod .n sg (Nat.ne_of_gt hs1) hsn
  have hinv : (sg : ZMod Config.n) * invMod Config.n sg = 1 := by
    rw [← Nat.cast_mul, ← ZMod.natCast_mod, hmod, Nat.cast_one]
  rw [Nat.cast_add, Nat.cast_mul, mulMod_cast, mulMod_cast, ZMod.natCast_mod]
  linear_combination (-invMod Config.n sg : ZMod Config.n) * hk + k * hinv

/-- PMUL's loop computes n·G to be infinity. -/
theorem scalarMul_generator_n : (scalarMul generator Config.n).z = 0 := by decide +kernel

section Group

variable [Fact (Nat.Prime Config.p)]

/-- A triple of an affine point has that point's x. -/
theorem affineX_of_represents {q : JPoint} {x y : ZMod Config.p} {hn : curveP256.Nonsingular x y}
    (h : Represents q (.some x y hn)) : q.z ≠ 0 ∧ affineX q = x.val := by
  have hz : q.z ≠ 0 := fun hz => WeierstrassCurve.Affine.Point.some_ne_zero hn (eq_zero_of_represents h hz)
  obtain ⟨hqx, -, -⟩ := (JPoint.canonical_iff q).1 h.1
  obtain ⟨hx, -⟩ := coordinates_of_represents h hz
  refine ⟨hz, (eq_affineX h.1 hz (ZMod.val_lt x) ?_).symm⟩
  rw [← Nat.mod_eq_of_lt hqx, ← ZMod.natCast_eq_natCast_iff', Nat.cast_mul, Nat.cast_pow, ZMod.natCast_zmod_val, hx]

/-- An affine pair that stands for a point of the curve is a valid key. -/
theorem validKey_of_represents {qx qy : Nat} {pt : curveP256.Point} (h : Represents ⟨qx, qy, 1⟩ pt) :
    qx < Config.p ∧ qy < Config.p ∧ qy ^ 2 % Config.p = (qx ^ 3 + (Config.p - 3) * qx + Config.b) % Config.p := by
  obtain ⟨hqx, hqy, -⟩ := (JPoint.canonical_iff _).1 h.1
  obtain ⟨x, y, ⟨heq, -⟩, -, hx, hy⟩ := exists_affine_of_represents h one_ne_zero
  simp only [Nat.cast_one, one_pow, mul_one] at hx hy
  refine ⟨hqx, hqy, (ZMod.natCast_eq_natCast_iff' ..).1 ?_⟩
  rw [WeierstrassCurve.Affine.equation_iff, ← hx, ← hy] at heq
  have h3 : 3 ≤ Config.p := (modulus_bounds .p).1
  simpa [curveP256, Nat.cast_sub h3] using heq

/-- The order of G divides n (00_scope.md R9). -/
theorem n_nsmul_generator {g : curveP256.Point} (hg : Represents generator g) : Config.n • g = 0 :=
  eq_zero_of_represents (represents_scalarMul hg (modulus_bounds .n).2) scalarMul_generator_n

/-- So the multiples of G depend on the scalar mod n only. -/
theorem exists_multiplesOfGenerator {g : curveP256.Point} (hg : Represents generator g) :
    ∃ φ : ZMod Config.n →+ curveP256.Point, ∀ m : Nat, φ m = m • g := by
  have hn : zmultiplesHom curveP256.Point g Config.n = 0 := by
    rw [zmultiplesHom_apply, natCast_zsmul, n_nsmul_generator hg]
  refine ⟨ZMod.lift Config.n ⟨zmultiplesHom curveP256.Point g, hn⟩, fun m => ?_⟩
  exact (congrArg _ (Int.cast_natCast m).symm).trans ((ZMod.lift_coe ..).trans (natCast_zsmul g m))

/-- With the key d·G, the curve step computes k·G for the k with s·k = h + r·d mod n. -/
theorem represents_verifyPoint {g : curveP256.Point} {φ : ZMod Config.n →+ curveP256.Point}
    (hφ : ∀ m : Nat, φ m = m • g) (hg : Represents generator g) {qx qy r sg h d : Nat}
    (hkey : Represents ⟨qx, qy, 1⟩ (d • g)) (hs1 : 1 ≤ sg) (hsn : sg < Config.n) {k : ZMod Config.n}
    (hk : sg * k = h + r * d) : Represents (verifyPoint qx qy r sg h) (φ k) := by
  have hu : ∀ u v, mulMod Config.n u v < 2 ^ 256 := fun u v => (mulMod_lt .n u v).trans (modulus_bounds .n).2
  have hR := represents_shamir hg hkey (hu (h % Config.n) (invMod Config.n sg)) (hu r (invMod Config.n sg))
  rwa [← mul_nsmul', ← add_nsmul, ← hφ, verifyScalars_cast hs1 hsn hk] at hR

/-- A point with the signature's r as its affine x mod n passes the final comparison (44_verify.md R250). -/
theorem verifyOutcome_valid {qx qy r sg h : Nat} (hok : verifyArgsOk qx qy r sg = true) {x y : ZMod Config.p}
    {hn : curveP256.Nonsingular x y} (hpt : Represents (verifyPoint qx qy r sg h) (.some x y hn))
    (hr : x.val % Config.n = r) : verifyOutcome qx qy r sg h = .valid := by
  obtain ⟨hz, hx⟩ := affineX_of_represents hpt
  rw [verifyOutcome_finite hok hz, hx, if_pos hr]

end Group

end Sys2Proof.Machine
end

section
/-! The statements about the verification command (44_verify.md), settled. -/

namespace Sys2Proof.Machine

/-- Settles O42: the outcome is BADARG exactly when the check of the operands fails, and that check is that of PCHK with
the ranges of r and s. -/
theorem verifyBadArgExactlyOnMalformedInput : Obligations.VerifyBadArgExactlyOnMalformedInput := by
  intro ra rb rc s hs ha hb qx qy r sg
  have commits := commitsTo_verify rc hs ha hb
  have hbad : CommitsTo (.verify ra rb rc) s (afterVerify s .badArg) ↔ ¬ verifyArgsOk qx qy r sg = true := by
    rw [← verifyOutcome_eq_badArg_iff]
    exact ⟨fun h => afterVerify_injective s (commits.unique hs h), fun h => h ▸ commits⟩
  refine ⟨?malformed, fun hx hy => ?infinity⟩
  case malformed =>
    rw [hbad, verifyArgsOk_iff]
    simp only [not_and_or, Nat.not_lt, Nat.not_le, Nat.lt_one_iff, or_assoc, ne_eq]
  case infinity =>
    rw [hx, hy, ne_eq, ← curveEquation_iff, curveEquation_zero_zero]
    decide

/-- Settles O43: the given w and x are the inverse of s and the affine x that VERIFY computes. -/
theorem verifyComparesTheAffineX : Obligations.VerifyComparesTheAffineX := by
  intro ra rb rc s w x hs ha hb qx qy r sg h hqx hqy hcurve hr1 hrn hs1 hsn hw1 hwn hinv e pt
  have hok : verifyArgsOk qx qy r sg = true := (verifyArgsOk_iff ..).2 ⟨⟨hqx, hqy, hcurve⟩, ⟨hr1, hrn⟩, hs1, hsn⟩
  have hpt : verifyPoint qx qy r sg h = pt := verifyPoint_eq qx qy r hsn hwn hinv (s.reg rc).isLt
  have commits := commitsTo_verify rc hs ha hb
  refine ⟨fun hz => ?infinite, fun hz hxp hx => ?finite⟩
  case infinite => exact verifyOutcome_infinite hok (hpt ▸ hz) ▸ commits
  case finite =>
    have hcanonical : pt.canonical = true := (shamir_tidy _ _ _ (canonical_affinePair hqx hqy)).1
    rw [eq_affineX hcanonical hz hxp hx, ← hpt]
    exact verifyOutcome_finite hok (hpt ▸ hz) ▸ commits

/-- Settles O44: the curve step computes k·G for a correct signature and -k·G for its twin, and both have the affine x
of the nonce point. -/
theorem verifyAcceptsCorrectSignatures : Obligations.VerifyAcceptsCorrectSignatures := by
  intro _ ra rb rc s g d k xr yr hk hs ha hb hg hkey hkg r sg h hxr hr1 hs1 hsn hsig
  have hok : verifyArgsOk (s.reg ra).toNat (s.reg (ra + 1)).toNat r sg = true :=
    (verifyArgsOk_iff ..).2 ⟨validKey_of_represents hkey, ⟨hr1, hxr ▸ Nat.mod_lt _ n_prime.pos⟩, hs1, hsn⟩
  obtain ⟨φ, hφ⟩ := exists_multiplesOfGenerator hg
  have nonce : ∃ k' : ZMod Config.n, sg * k' = h + r * d ∧ ∃ y hn, φ k' = .some xr y hn := by
    obtain hsig | hsig := hsig <;> rw [← ZMod.natCast_eq_natCast_iff'] at hsig
    · exact ⟨k, by exact_mod_cast hsig, yr, hk, (hφ k).trans hkg⟩
    · refine ⟨-k, ?_, _, _, by rw [map_neg, hφ, hkg, WeierstrassCurve.Affine.Point.neg_some]⟩
      push_cast [Nat.cast_sub hsn.le, ZMod.natCast_self] at hsig
      linear_combination hsig
  obtain ⟨k', hk', y, hn, hpt⟩ := nonce
  have hR := represents_verifyPoint hφ hg hkey hs1 hsn hk'
  exact verifyOutcome_valid hok (hpt ▸ hR) hxr ▸ commitsTo_verify rc hs ha hb

/-- Settles O41: the function is the outcome on the registers' unsigned integers. -/
theorem verifyIsAPureFunctionOfItsOperands : Obligations.VerifyIsAPureFunctionOfItsOperands :=
  ⟨fun qx qy r sg h => verifyOutcome qx.toNat qy.toNat r.toNat sg.toNat h.toNat,
    fun _ _ _ _ _ => verifyOutcome_ne_none _ _ _ _ _, fun _ _ rc _ hs ha hb => commitsTo_verify rc hs ha hb⟩

end Sys2Proof.Machine
end

section
/-! SUPPORT. Completions and the error registers, and the host writes that a busy core drops (60_exceptions.md R263,
R264). -/

namespace Sys2Proof.Machine

/-! ## Completions and the error registers -/

/-- The core's turn out of reset is its completion step (10_state.md R39). -/
theorem step_core_completes {s : State} {rest : List Turn} (hs : s.schedule = .core :: rest) (hr : s.inReset = false) :
    step s = .next (complete { s with schedule := rest }) := by
  rw [step_core s rest hs]
  exact congrArg _ (coreTurn_outOfReset _ hr)

/-- A word completes with an error cause that is not NONE, or with effects (60_exceptions.md R261, R277). -/
theorem complete_word_cases (c : Word32) (s : State) {t : State} (ht : t.pending = some ⟨c, wordResult c s⟩) :
    (∃ cause, cause ≠ .none ∧ complete t = t.afterError c cause) ∨
    (∃ ws, complete t = { applyWrites ws t with done := true, pending := none }) := by
  cases hr : wordResult c s with
  | error cause =>
    exact .inl ⟨cause, (wordResult_error c s cause hr).1, complete_error t c cause (hr ▸ ht)⟩
  | commit ws => exact .inr ⟨ws, complete_commit t c ws (hr ▸ ht)⟩

/-- An error already recorded stays through any completion (60_exceptions.md R263). -/
theorem complete_keeps_first_error {s : State} (h : s.err = true) :
    (complete s).cause = s.cause ∧ (complete s).errcmd = s.errcmd := by
  cases hp : s.pending with
  | none => rw [complete_idle s hp]; exact ⟨rfl, rfl⟩
  | some p =>
    obtain ⟨c, ws | cause⟩ := p
    · rw [complete_commit s c ws hp]
      exact ⟨applyWrites_cause ws s, applyWrites_errcmd ws s⟩
    · rw [complete_error s c cause hp]
      exact ⟨if_pos h, if_pos h⟩

/-- The results of a completion depend only on the pending record and on W, the flags and the SHA-256 state
(10_state.md R39). -/
theorem complete_congr {s t : State} (hp : s.pending = t.pending) (hw : s.w = t.w) (hf : s.flags = t.flags)
    (hs : s.sha = t.sha) :
    (complete s).w = (complete t).w ∧ (complete s).flags = (complete t).flags ∧
      (complete s).sha = (complete t).sha := by
  cases ht : t.pending with
  | none => rw [complete_idle s (hp.trans ht), complete_idle t ht]; exact ⟨hw, hf, hs⟩
  | some p =>
    obtain ⟨c, ws | cause⟩ := p
    · rw [complete_commit s c ws (hp.trans ht), complete_commit t c ws ht]
      exact applyWrites_congr ws s t hw hf hs
    · rw [complete_error s c cause (hp.trans ht), complete_error t c cause ht]
      exact ⟨hw, hf, hs⟩

/-! ## Writes that a busy core drops (20_memory.md R82) -/

theorem writeTarget_msgbuf_busy {s : State} (hb : s.busy = true) (k : Nat) (d : Word32) :
    writeTarget (.msgbuf k) d s = .next (overrun d s) :=
  congrArg Host.Outcome.next (if_pos hb)

theorem writeTarget_w_busy {s : State} (hb : s.busy = true) (i : Reg) (k : Nat) (d : Word32) :
    writeTarget (.w i k) d s = .next (overrun d s) :=
  congrArg Host.Outcome.next (if_pos hb)

/-- The offsets of CMD, MSGBUF and W name targets whose writes a busy core drops. -/
theorem exists_target_dropped_while_busy {off : Offset} (ha : off.toNat % 4 = 0)
    (ho : off = 0x01C#12 ∨ (0x040 ≤ off.toNat ∧ off.toNat < 0x080) ∨ (0x100 ≤ off.toNat ∧ off.toNat < 0x500)) :
    ∃ t, acceptedTarget off .w32 = some t ∧
      ∀ (s : State) (d : Word32), s.busy = true → writeTarget t d s = .next (overrun d s) := by
  rw [acceptedTarget_word off ha]
  obtain rfl | hm | hw := ho
  · exact ⟨.cmd, rfl, fun s d hb => writeCmd_busy d s hb⟩
  · exact ⟨_, windowTarget_of_msgbuf _ hm, fun s d hb => writeTarget_msgbuf_busy hb _ d⟩
  · exact ⟨_, windowTarget_of_w _ hw, fun s d hb => writeTarget_w_busy hb _ _ d⟩

end Sys2Proof.Machine
end

section
/-! The statements about exceptions (60_exceptions.md), settled. -/

namespace Sys2Proof.Machine

/-- Settles O14: the word latches with its result, whose completion records an error or commits effects, and no effect
touches the error registers. -/
theorem everyCommandWordCompletes : Obligations.EveryCommandWordCompletes := by
  intro c s hp hr
  refine ⟨_, writeCmd_idle c s hp, rfl, fun rest => ⟨_, step_core_completes rfl hr, ?_⟩⟩
  refine ⟨(State.busy_eq_false _).2 (complete_pending _), complete_done _, complete_schedule _, ?_⟩
  obtain ⟨cause, hc, hu⟩ | ⟨ws, hu⟩ := complete_word_cases c s
    (t := { s with pending := some ⟨c, wordResult c s⟩, schedule := rest }) rfl <;> rw [hu]
  · exact .inl ⟨rfl, fun he => by simpa [State.afterError, he] using hc⟩
  · exact .inr ⟨applyWrites_err ws _, applyWrites_cause ws _, applyWrites_errcmd ws _⟩

/-- Settles O47: the write is an overrun, which leaves all that the completion reads, and whose ERR then keeps its
cause. -/
theorem writesWhileBusyAreOverruns : Obligations.WritesWhileBusyAreOverruns := by
  intro s rest off d hr hb hs ha ho u
  obtain ⟨t, ht, hdrop⟩ := exists_target_dropped_while_busy ha ho
  have hstep : step s = .next u := by
    rw [step_write32 hr hs ht, hdrop (s.afterAccess rest .okay) d hb, overrun_eq]
    rfl
  have hbusy : u.busy = true := hb
  obtain ⟨hw, hf, hsha⟩ : (complete u).w = (complete s).w ∧ (complete u).flags = (complete s).flags ∧
      (complete u).sha = (complete s).sha := complete_congr rfl rfl rfl rfl
  obtain ⟨hcause, herrcmd⟩ : (complete u).cause = u.cause ∧ (complete u).errcmd = u.errcmd :=
    complete_keeps_first_error rfl
  have hdone : (complete u).done = true := by rw [complete_done, hbusy, Bool.true_or]
  exact ⟨hstep, hw, hf, hsha, hdone, (State.busy_eq_false _).2 (complete_pending u), hcause, herrcmd⟩

/-- Settles O46: the completion is `afterError`, which records under ERR = 0 only. -/
theorem firstErrorIsKept : Obligations.FirstErrorIsKept := by
  intro s c cause hp
  rw [complete_error s c cause hp]
  refine ⟨rfl, fun he => ⟨?_, ?_⟩, fun he => ⟨if_pos he, if_pos he⟩, rfl, rfl, rfl⟩ <;>
    exact if_neg (Bool.eq_false_iff.1 he)

/-- Settles O50: the completion is `afterError`, and no command issues with NONE or OVERRUN. -/
theorem failedCommandsWriteNothing : Obligations.FailedCommandsWriteNothing := by
  intro i s cause hp hi u
  have hu : u = s.afterError (encode i) cause := complete_error _ (encode i) cause rfl
  obtain ⟨hnone, hoverrun⟩ := issuedResult_error i s cause ((issuesWith_iff i s _ hp).1 hi).symm
  rw [hu]
  exact ⟨rfl, rfl, rfl, rfl, rfl, rfl, rfl, rfl, rfl, hnone, hoverrun⟩

end Sys2Proof.Machine
end

section
/-! SUPPORT. Writes to CTRL and the edges of the reset input, as steps; a core in its reset state is Clean
(70_reset_and_hazards.md R290, R291, R295). -/

namespace Sys2Proof.Machine

/-- Clean entry holds in the reset state, whatever moves are to come (70_reset_and_hazards.md R295). -/
theorem clean_of_coreIsReset {s : State} (h : CoreIsReset s) : Clean s :=
  (congrArg Clean h).mpr ⟨rfl, rfl, rfl, rfl, rfl, rfl, rfl, rfl⟩

/-- A host write to CTRL out of reset acts after its OKAY response (10_state.md R43). -/
theorem step_write_ctrl {s : State} {rest : List Turn} {d : Word32} (hr : s.inReset = false)
    (hs : s.schedule = write32 0x008#12 d :: rest) : step s = .next ((s.afterAccess rest .okay).writeCtrl d) :=
  step_write32 (t := .ctrl) hr hs rfl

/-- An asserted reset input holds the core in its reset state, the command in progress lost
(70_reset_and_hazards.md R290). -/
theorem coreIsReset_assertReset (s : State) : CoreIsReset s.assertReset := rfl

/-- A turn of a core held in reset only passes (70_reset_and_hazards.md R290). -/
theorem step_core_inReset {s : State} {rest : List Turn} (hs : s.schedule = .core :: rest) (hr : s.inReset = true) :
    step s = .next { s with schedule := rest } := by
  rw [step_core s rest hs]
  exact congrArg _ (coreTurn_inReset _ hr)

/-- A release of an asserted reset input leaves the reset state (70_reset_and_hazards.md R290). -/
theorem step_release_asserted {s : State} {rest : List Turn} (hs : s.schedule = .resetRelease :: rest)
    (hr : s.inReset = true) : step s = .next { State.reset with schedule := rest, responses := s.responses } := by
  rw [step_release s rest hs]
  exact congrArg _ (releaseReset_asserted _ hr)

end Sys2Proof.Machine
end

section
/-! The statements about reset and hazards (70_reset_and_hazards.md), settled. -/

namespace Sys2Proof.Machine

/-- Settles O2: a write of SRST = 1 to CTRL puts the core in its reset state, which is Clean. -/
theorem resetAndSoftResetAreClean : Obligations.ResetAndSoftResetAreClean :=
  ⟨clean_of_coreIsReset rfl, fun s rest d hr hd hs =>
    ⟨_, step_write_ctrl hr hs, clean_of_coreIsReset (coreIsReset_writeCtrl (s.afterAccess rest .okay) d hd)⟩⟩

/-- Settles O5: the step of each move, and for the assertion that a core in its reset state is Clean. -/
theorem hardwareResetDiscardsTheCommand : Obligations.HardwareResetDiscardsTheCommand := by
  intro s rest
  refine ⟨fun hs => ?assert, step_core_inReset, fun a hs hr => step_host_inReset s a rest hs hr,
    fun d hs hr => step_coreWithClear_inReset s d rest hs hr, step_release_asserted⟩
  case assert =>
    obtain ⟨hbusy, -, hdone, herr, -⟩ := clean_of_coreIsReset (coreIsReset_assertReset { s with schedule := rest })
    exact ⟨_, step_assert s rest hs, rfl, hbusy, hdone, herr, rfl⟩

/-- Settles O6: the two branches of a write to CTRL. -/
theorem softResetAbortsWithoutCommit : Obligations.SoftResetAbortsWithoutCommit := by
  intro s rest d hr hs
  rw [step_write_ctrl hr hs, State.writeCtrl_eq]
  refine ⟨fun hd => ?reset, fun hd => ?enables⟩
  case reset =>
    rw [if_pos hd, State.toReset, State.afterAccess_inReset, hr]
    rfl
  case enables => rw [if_neg (Bool.eq_false_iff.1 hd)]

/-- Settles O15: the core's turn out of reset, on the schedule or with no move left, is the completion step, which acts
exactly on a pending command. -/
theorem completionIsEnabledWhilePending : Obligations.CompletionIsEnabledWhilePending := by
  intro s rest hr
  refine ⟨fun hs => step_core_completes hs hr, fun hs => ?empty, fun hb => ?pending, fun hb => ?idle⟩
  case empty => rw [step_empty s hs, coreTurn_outOfReset s hr]
  case pending => exact ⟨(State.busy_eq_false _).2 (complete_pending s), by rw [complete_done, hb, Bool.true_or]⟩
  case idle => exact complete_idle s ((State.busy_eq_false s).1 hb)

end Sys2Proof.Machine
end
